-- ==== Sys2Proof/Word.lean ====
section
/-! DEFINITION. The words of the engine: port words, values of `F` and output bytes. -/

namespace Sys2Proof

/-- One 32-bit word of the command or response port (30_encoding.md R90, R98). -/
abbrev Word := BitVec 32

/-- A value of `F`: its 64-bit pattern, with the default `NUM` that of an IEEE 754 binary64 number (00_scope.md R8).
The arithmetic on it is a `NumRecord`. -/
abbrev F := BitVec 64

/-- One byte of the output port (20_memory.md R66). -/
abbrev Byte := BitVec 8

/-- `+0.0`, the reset value of every value of `F` (10_state.md R42). -/
abbrev posZero : F := 0#64

end Sys2Proof
end

