-- ==== Sys2Proof/Syntax.lean ====
section
/-! DEFINITION. The command set: one constructor per row of spec/opcode_table.json (30_encoding.md R95). -/

namespace Sys2Proof

/-- A command packet, its header fields and payload operands taken apart (30_encoding.md R91, R93).
`slot` is the 4-bit `SLOT` field, checked against `NSLOT` when the command executes (R94 step 4). -/
inductive Instr where
  /-- `NOP` (40_commands.md R126) -/
  | nop
  /-- `RESET` (R121) -/
  | reset
  /-- `START` (R122) -/
  | start
  /-- `STOP` (R123) -/
  | stop
  /-- `WAIT` (R124) -/
  | wait
  /-- `COMMIT` (R125) -/
  | commit
  /-- `CFG.NONE s` (R130) -/
  | cfgNone (slot : BitVec 4)
  /-- `CFG.SQL s, alpha, hyst` (R131) -/
  | cfgSql (slot : BitVec 4) (alpha hyst : F)
  /-- `CFG.FMD s, rsel` (R132) -/
  | cfgFmd (slot : BitVec 4) (rsel : Bool)
  /-- `CFG.FIR s, cplx, l, m` (R133) -/
  | cfgFir (slot : BitVec 4) (cplx : Bool) (l m : BitVec 16)
  /-- `CFG.RSP s, cplx, l, m, fbw` (R134) -/
  | cfgRsp (slot : BitVec 4) (cplx : Bool) (l m : BitVec 16) (fbw : F)
  /-- `CFG.STR s, lognph, nt, delta, kp, plim` (R135) -/
  | cfgStr (slot : BitVec 4) (lognph : BitVec 4) (nt : BitVec 5) (delta kp plim : F)
  /-- `LDTAP s, [tap_0 ..]` (R141); the count `n` is the length of the list -/
  | ldtap (slot : BitVec 4) (taps : List F)
  /-- `LDITB s, row, [c_0 ..]` (R142); the count `nt` is the length of the list -/
  | lditb (slot : BitVec 4) (row : BitVec 12) (coeffs : List F)
  /-- `SET.FS v` (R150) -/
  | setFs (v : F)
  /-- `SET.RFFS v` (R151) -/
  | setRffs (v : F)
  /-- `SET.DEV v` (R152) -/
  | setDev (v : F)
  /-- `SET.BAUD v` (R153) -/
  | setBaud (v : F)
  /-- `SET.THR v` (R154) -/
  | setThr (v : F)
  /-- `SET.LG v` (R155) -/
  | setLg (v : F)
  /-- `SET.FC v` (R156) -/
  | setFc (v : F)
  /-- `RDCSR n` (R160) -/
  | rdcsr (n : BitVec 12)
  deriving DecidableEq, Repr

end Sys2Proof
end

