-- ==== Sys2Proof/WellFormed.lean ====
section
/-! DEFINITION. Which terms of `Instr` a packet can carry. Every operand but a list's length has the width of
its field already, so only the two load commands have a check. -/

namespace Sys2Proof

/-- The instruction fits its encoding: the count of `LDTAP` is a 12-bit field and that of `LDITB` an 8-bit
field (30_encoding.md R91, R95). -/
def Instr.wellFormed : Instr → Bool
  | .ldtap _ taps => decide (taps.length ≤ 4095)
  | .lditb _ _ coeffs => decide (coeffs.length ≤ 255)
  | .nop | .reset | .start | .stop | .wait | .commit => true
  | .cfgNone _ | .cfgSql _ _ _ | .cfgFmd _ _ | .cfgFir _ _ _ _ | .cfgRsp _ _ _ _ _ | .cfgStr _ _ _ _ _ _ => true
  | .setFs _ | .setRffs _ | .setDev _ | .setBaud _ | .setThr _ | .setLg _ | .setFc _ => true
  | .rdcsr _ => true

end Sys2Proof
end

