-- ==== Sys2Proof/Decode.lean ====
section
/-! DEFINITION. The decoder of the command stream, total on any words, and the encoder, both written from the
tables of 30_encoding.md R91 to R97. -/

namespace Sys2Proof

/-- `OPC`, header bits 31:24 (R91). -/
def opcOf (h : Word) : BitVec 8 := h.extractLsb' 24 8
/-- `SLOT`, header bits 23:20 (R91). -/
def slotOf (h : Word) : BitVec 4 := h.extractLsb' 20 4
/-- `ARG`, header bits 19:8 (R91). -/
def argOf (h : Word) : BitVec 12 := h.extractLsb' 8 12
/-- `ARG2`, header bits 7:0 (R91). -/
def arg2Of (h : Word) : BitVec 8 := h.extractLsb' 0 8

/-- The number of payload words that follow header `h` (R92); a function of the header alone. -/
def plen (h : Word) : Nat :=
  match (opcOf h).toNat with
  | 0x11 => 4
  | 0x13 => 1
  | 0x14 => 3
  | 0x15 => 6
  | 0x20 => 2 * (argOf h).toNat
  | 0x21 => 2 * (arg2Of h).toNat
  | 0x30 | 0x31 | 0x32 | 0x33 | 0x34 | 0x35 | 0x36 => 2
  | _ => 0

/-- The must-be-zero mask of a defined opcode (R97); `none` for a reserved opcode (R95, R96). -/
def mbzMask (opc : BitVec 8) : Option Word :=
  match opc.toNat with
  | 0x00 | 0x01 | 0x02 | 0x03 | 0x04 | 0x05 => some 0x00FFFFFF#32
  | 0x10 | 0x11 => some 0x000FFFFF#32
  | 0x12 | 0x13 | 0x14 => some 0x000FFEFF#32
  | 0x15 => some 0x000FF0E0#32
  | 0x20 => some 0x000000FF#32
  | 0x21 => some 0x00000000#32
  | 0x30 | 0x31 | 0x32 | 0x33 | 0x34 | 0x35 | 0x36 => some 0x00FFFFFF#32
  | 0x40 => some 0x00F000FF#32
  | _ => none

/-- `F_of(w0, w1) = w1 ++ w0` (20_memory.md R62): the low word comes first. -/
def fOf (w0 w1 : Word) : F := w1 ++ w0

/-- The two words of a value of `F`, low word first (20_memory.md R62). -/
def fWords (v : F) : List Word := [v.extractLsb' 0 32, v.extractLsb' 32 32]

/-- A payload of values of `F`, two words each (R93). -/
def fsOf : List Word → List F
  | w0 :: w1 :: ws => fOf w0 w1 :: fsOf ws
  | _ => []

/-- The value of `F` at place `k` of a payload. -/
def valAt (ws : List Word) (k : Nat) : F := (fsOf ws).getD k posZero

/-- The rate word `LM`: `L = LM[31:16]`, `M = LM[15:0]` (R93). -/
def lOf (lm : Word) : BitVec 16 := lm.extractLsb' 16 16
def mOf (lm : Word) : BitVec 16 := lm.extractLsb' 0 16

/-- The command that a header with a defined opcode and its payload stand for (R93, R95). -/
def build (h : Word) (pay : List Word) : Option Instr :=
  match (opcOf h).toNat with
  | 0x00 => some .nop
  | 0x01 => some .reset
  | 0x02 => some .start
  | 0x03 => some .stop
  | 0x04 => some .wait
  | 0x05 => some .commit
  | 0x10 => some (.cfgNone (slotOf h))
  | 0x11 => some (.cfgSql (slotOf h) (valAt pay 0) (valAt pay 1))
  | 0x12 => some (.cfgFmd (slotOf h) ((argOf h).getLsbD 0))
  | 0x13 => some (.cfgFir (slotOf h) ((argOf h).getLsbD 0) (lOf (pay.getD 0 0#32)) (mOf (pay.getD 0 0#32)))
  | 0x14 => some (.cfgRsp (slotOf h) ((argOf h).getLsbD 0) (lOf (pay.getD 0 0#32)) (mOf (pay.getD 0 0#32))
      (valAt (pay.drop 1) 0))
  | 0x15 => some (.cfgStr (slotOf h) ((argOf h).extractLsb' 0 4) ((arg2Of h).extractLsb' 0 5)
      (valAt pay 0) (valAt pay 1) (valAt pay 2))
  | 0x20 => some (.ldtap (slotOf h) (fsOf pay))
  | 0x21 => some (.lditb (slotOf h) (argOf h) (fsOf pay))
  | 0x30 => some (.setFs (valAt pay 0))
  | 0x31 => some (.setRffs (valAt pay 0))
  | 0x32 => some (.setDev (valAt pay 0))
  | 0x33 => some (.setBaud (valAt pay 0))
  | 0x34 => some (.setThr (valAt pay 0))
  | 0x35 => some (.setLg (valAt pay 0))
  | 0x36 => some (.setFc (valAt pay 0))
  | 0x40 => some (.rdcsr (argOf h))
  | _ => none

/-- What the decoder finds at the front of the command stream. -/
inductive Decoded where
  /-- a command, and the words behind its packet -/
  | instr (i : Instr) (rest : List Word)
  /-- a reserved opcode: a packet of one word, answered `ERR_OPCODE` (R96) -/
  | reserved (opc : BitVec 8) (rest : List Word)
  /-- a must-be-zero header bit is set: the whole packet is consumed and answered `ERR_FIELD` (R94 steps 2, 3) -/
  | badField (rest : List Word)
  /-- the packet is not yet complete at the port -/
  | incomplete
  deriving DecidableEq, Repr

/-- Read one packet from the front of the stream: steps 1 to 3 of R94, in that order. -/
def decode (ws : List Word) : Decoded :=
  match ws with
  | [] => .incomplete
  | h :: tail =>
    match mbzMask (opcOf h) with
    | none => .reserved (opcOf h) tail
    | some mbz =>
      if tail.length < plen h then .incomplete
      else if h &&& mbz ≠ 0#32 then .badField (tail.drop (plen h))
      else
        match build h (tail.take (plen h)) with
        | some i => .instr i (tail.drop (plen h))
        | none => .reserved (opcOf h) tail

/-- A header word (R91). -/
def header (opc : BitVec 8) (slot : BitVec 4) (arg : BitVec 12) (arg2 : BitVec 8) : Word :=
  (opc ++ slot ++ arg ++ arg2 : BitVec (8 + 4 + 12 + 8))

/-- `ARG` or `ARG2` bits that hold one flag bit or a narrower field. -/
def flagArg (b : Bool) : BitVec 12 := BitVec.setWidth 12 (BitVec.ofBool b)

/-- The words of a command's packet (R91 to R95). -/
def encode : Instr → List Word
  | .nop => [header 0x00#8 0#4 0#12 0#8]
  | .reset => [header 0x01#8 0#4 0#12 0#8]
  | .start => [header 0x02#8 0#4 0#12 0#8]
  | .stop => [header 0x03#8 0#4 0#12 0#8]
  | .wait => [header 0x04#8 0#4 0#12 0#8]
  | .commit => [header 0x05#8 0#4 0#12 0#8]
  | .cfgNone slot => [header 0x10#8 slot 0#12 0#8]
  | .cfgSql slot alpha hyst => header 0x11#8 slot 0#12 0#8 :: (fWords alpha ++ fWords hyst)
  | .cfgFmd slot rsel => [header 0x12#8 slot (flagArg rsel) 0#8]
  | .cfgFir slot cplx l m => [header 0x13#8 slot (flagArg cplx) 0#8, l ++ m]
  | .cfgRsp slot cplx l m fbw => header 0x14#8 slot (flagArg cplx) 0#8 :: (l ++ m) :: fWords fbw
  | .cfgStr slot lognph nt delta kp plim =>
    header 0x15#8 slot (lognph.setWidth 12) (nt.setWidth 8) :: (fWords delta ++ fWords kp ++ fWords plim)
  | .ldtap slot taps => header 0x20#8 slot (BitVec.ofNat 12 taps.length) 0#8 :: taps.flatMap fWords
  | .lditb slot row coeffs =>
    header 0x21#8 slot row (BitVec.ofNat 8 coeffs.length) :: coeffs.flatMap fWords
  | .setFs v => header 0x30#8 0#4 0#12 0#8 :: fWords v
  | .setRffs v => header 0x31#8 0#4 0#12 0#8 :: fWords v
  | .setDev v => header 0x32#8 0#4 0#12 0#8 :: fWords v
  | .setBaud v => header 0x33#8 0#4 0#12 0#8 :: fWords v
  | .setThr v => header 0x34#8 0#4 0#12 0#8 :: fWords v
  | .setLg v => header 0x35#8 0#4 0#12 0#8 :: fWords v
  | .setFc v => header 0x36#8 0#4 0#12 0#8 :: fWords v
  | .rdcsr n => [header 0x40#8 0#4 n 0#8]

/-- The packet whose bits are `w`: its words from the low bits up, every bit above `nbits` zero, as many words
as its header says (R92). -/
def packetOf (nbits w : Nat) : List Word :=
  let bits := w % 2 ^ nbits
  let h : Word := BitVec.ofNat 32 bits
  h :: (List.range (plen h)).map fun k => BitVec.ofNat 32 (bits >>> (32 * (k + 1)))

/-- The command the decoder reads from a packet whose bits are `w`; none where it refuses. -/
def decodeTableWord (nbits w : Nat) : Option Instr :=
  match decode (packetOf nbits w) with
  | .instr i _ => some i
  | .reserved _ _ => none
  | .badField _ => none
  | .incomplete => none

/-- The hexadecimal literal of a value of `F` (R102): `0x` and 16 digits. -/
def asmF (v : F) : String :=
  let ds := Nat.toDigits 16 v.toNat
  String.ofList ('0' :: 'x' :: (List.replicate (16 - ds.length) '0' ++ ds))

/-- A list of values in square brackets (R102). -/
def asmList (vs : List F) : String := "[" ++ String.intercalate ", " (vs.map asmF) ++ "]"

/-- A flag operand (R102). -/
def asmFlag (b : Bool) : String := if b then "1" else "0"

/-- The assembler line of a command (R102), values of `F` as bit patterns. -/
def asm : Instr → String
  | .nop => "nop"
  | .reset => "reset"
  | .start => "start"
  | .stop => "stop"
  | .wait => "wait"
  | .commit => "commit"
  | .cfgNone slot => "cfg.none s=" ++ toString slot.toNat
  | .cfgSql slot alpha hyst =>
    "cfg.sql s=" ++ toString slot.toNat ++ ", alpha=" ++ asmF alpha ++ ", hyst=" ++ asmF hyst
  | .cfgFmd slot rsel => "cfg.fmd s=" ++ toString slot.toNat ++ ", rsel=" ++ asmFlag rsel
  | .cfgFir slot cplx l m =>
    "cfg.fir s=" ++ toString slot.toNat ++ ", cplx=" ++ asmFlag cplx ++ ", l=" ++ toString l.toNat ++ ", m=" ++
      toString m.toNat
  | .cfgRsp slot cplx l m fbw =>
    "cfg.rsp s=" ++ toString slot.toNat ++ ", cplx=" ++ asmFlag cplx ++ ", l=" ++ toString l.toNat ++ ", m=" ++
      toString m.toNat ++ ", fbw=" ++ asmF fbw
  | .cfgStr slot lognph nt delta kp plim =>
    "cfg.str s=" ++ toString slot.toNat ++ ", lognph=" ++ toString lognph.toNat ++ ", nt=" ++ toString nt.toNat ++
      ", delta=" ++ asmF delta ++ ", kp=" ++ asmF kp ++ ", plim=" ++ asmF plim
  | .ldtap slot taps => "ldtap s=" ++ toString slot.toNat ++ ", " ++ asmList taps
  | .lditb slot row coeffs =>
    "lditb s=" ++ toString slot.toNat ++ ", row=" ++ toString row.toNat ++ ", " ++ asmList coeffs
  | .setFs v => "set.fs " ++ asmF v
  | .setRffs v => "set.rffs " ++ asmF v
  | .setDev v => "set.dev " ++ asmF v
  | .setBaud v => "set.baud " ++ asmF v
  | .setThr v => "set.thr " ++ asmF v
  | .setLg v => "set.lg " ++ asmF v
  | .setFc v => "set.fc " ++ asmF v
  | .rdcsr n => "rdcsr " ++ toString n.toNat

/-- The tap loads of a transaction, one per filter slot (R103). -/
def loadTaps (loads : List (BitVec 4 × List F)) : List Instr := loads.map fun x => .ldtap x.1 x.2

/-- `set_threshold v` (R103): pending writes closed by one `commit`, as are the six below. -/
def setThreshold (v : F) : List Instr := [.setThr v, .commit]
/-- `set_loop_gain v` (R103). -/
def setLoopGain (v : F) : List Instr := [.setLg v, .commit]
/-- `set_deviation v` (R103). -/
def setDeviation (v : F) : List Instr := [.setDev v, .commit]
/-- `set_center_frequency v` (R103). -/
def setCenterFrequency (v : F) : List Instr := [.setFc v, .commit]
/-- `set_sample_rate v, taps` (R103). -/
def setSampleRate (v : F) (loads : List (BitVec 4 × List F)) : List Instr :=
  .setFs v :: (loadTaps loads ++ [.commit])
/-- `set_rf_sample_rate v, taps` (R103). -/
def setRfSampleRate (v : F) (loads : List (BitVec 4 × List F)) : List Instr :=
  .setRffs v :: (loadTaps loads ++ [.commit])
/-- `set_baud v, taps` (R103). -/
def setBaudRate (v : F) (loads : List (BitVec 4 × List F)) : List Instr :=
  .setBaud v :: (loadTaps loads ++ [.commit])
/-- `restart` (R103). -/
def restart : List Instr := [.stop, .wait, .start]

end Sys2Proof
end

