-- ==== Sys2Proof/Config.lean ====
section
/-! DEFINITION. What an implementation fixes (the parameters of 00_scope.md R6), the agents, and the free
values: opaque constants without a body, of which nothing in Lean can evaluate a value. -/

namespace Sys2Proof

/-- A numeric record (00_scope.md R8) over values of 64 bits: the operations, the comparisons and the constants
that the rules use. `ZERO` of every record is written as the pattern 0 (log 5). -/
structure NumRecord where
  add : F → F → F
  sub : F → F → F
  mul : F → F → F
  div : F → F → F
  lt : F → F → Bool
  le : F → F → Bool
  eq : F → F → Bool
  /-- the greatest integer not above a finite value (R10) -/
  floor : F → Int
  /-- the least integer not below a finite value (R10) -/
  ceil : F → Int
  /-- `isfinite` (R10) -/
  finite : F → Bool
  atan2 : F → F → F
  exp10 : F → F
  to32 : F → BitVec 32
  one : F
  twoPi : F
  ten : F
  /-- the value with the other sign, written `-v` in the rules (log 10) -/
  negate : F → F
  /-- an integer converted exactly (`floorF` of R10, the `2` of 60_exceptions.md R305) -/
  ofInt : Int → F
  /-- `n / d <= v`, exactly, for `d >= 1` (45_str.md R258) -/
  atLeast : F → Int → Nat → Bool
  deriving Inhabited

/-- `NUM`, the parameter (00_scope.md R6): the default record, or one of the others (log 5). -/
inductive NumChoice where
  | binary64
  | other (n : Nat)
  deriving DecidableEq, Repr

/-- The implementation parameters of 00_scope.md R6. The model carries them in `State.par`, so a statement
about every state is a statement about every choice of them. -/
structure Params where
  /-- `NSLOT`, number of stage slots -/
  nslot : Nat
  /-- `RCAP`, capacity of every ring, in samples -/
  rcap : Nat
  /-- `TAPMAX`, coefficients per tap bank, and depth of the FIR/RSP history -/
  tapmax : Nat
  /-- `HLEN`, physical depth of the STR window -/
  hlen : Nat
  /-- `NTMAX`, largest interpolator tap count -/
  ntmax : Nat
  /-- `LOGNPHMAX`, largest log2 of the interpolator phase count -/
  lognphmax : Nat
  /-- `NUM`, the numeric record (R8) -/
  num : NumChoice
  /-- `ID_VALUE`, value of the ID register (10_state.md R31) -/
  idValue : BitVec 64
  deriving DecidableEq, Repr

/-- The defaults of 00_scope.md R6. -/
def Params.default : Params :=
  { nslot := 8, rcap := 4096, tapmax := 1024, hlen := 64, ntmax := 16, lognphmax := 10, num := .binary64,
    idValue := 0x5253545200000001#64 }

/-- The constraints of 00_scope.md R6. -/
abbrev Params.Ok (p : Params) : Prop :=
  (1 ≤ p.nslot ∧ p.nslot ≤ 8) ∧ (2 ≤ p.rcap ∧ p.rcap ≤ 65535) ∧ (1 ≤ p.tapmax ∧ p.tapmax ≤ 4095) ∧
  (5 ≤ p.hlen ∧ p.hlen ≤ 255) ∧ (p.ntmax % 2 = 0 ∧ 2 ≤ p.ntmax ∧ p.ntmax ≤ 16) ∧ p.lognphmax ≤ 10

/-- The agents of 00_scope.md R5. `stage k` is `STAGE[k]`: one invocation or one done step per move. -/
inductive Agent where
  | hostCmd
  | hostSrc
  | hostSnk
  | hostIo
  | stage (k : Nat)
  | sched
  deriving DecidableEq, Repr, Inhabited

/-- FREE VALUE (log 2): the agent that is scheduled when `State.plan` names none. 41_ring_scheduler.md R183:
any enabled step of any agent may be the next step. -/
opaque Config.schedule : Nat → Agent

/-- FREE VALUE (log 5): the numeric records other than binary64 (93_implementation_defined.md I14). -/
opaque Config.numRecord : Nat → NumRecord

/-- FREE VALUE (log 8): the sign and payload bits of the NaN that an operation on these operands computes. -/
opaque Config.nanBits : F → F → BitVec 64

/-- FREE VALUE (log 6): `NUM.atan2` where 93_implementation_defined.md I3 fixes no value. -/
opaque Config.atan2Bits : F → F → BitVec 64

/-- FREE VALUE (log 7): the choices out of which `NUM.exp10` builds a monotone function
(93_implementation_defined.md I4). -/
opaque Config.exp10Choice : Nat → Nat → Nat

end Sys2Proof
end

