-- ==== Sys2Proof/Machine/Num.lean ====
section
/-! DEFINITION. The default `NUM` of 00_scope.md R8: IEEE 754 binary64, roundTiesToEven, gradual underflow, no
traps; the record that a choice of `NUM` stands for; and the auxiliary functions of R9 and R10 over any record.

Every finite binary64 value is a whole number of units of 2^-1074. An operation computes the exact result, as a whole
number or a quotient of whole numbers, and rounds it once. -/

namespace Sys2Proof.Machine.NUM

open Sys2Proof

/-- The exponent and fraction bits: the magnitude, which orders like the bits. -/
def mag (v : F) : Nat := v.toNat % 2 ^ 63

/-- The sign bit. -/
def neg (v : F) : Bool := v.msb

/-- The magnitude of an infinity. -/
def infMag : Nat := 0x7FF0000000000000

/-- Neither an infinity nor a NaN (R10). -/
def finite (v : F) : Bool := decide (mag v < infMag)
def isNaN (v : F) : Bool := decide (infMag < mag v)
def isInf (v : F) : Bool := decide (mag v = infMag)
def isZero (v : F) : Bool := decide (mag v = 0)

/-- A value from its sign and magnitude. -/
def pack (sign : Bool) (m : Nat) : F := BitVec.ofNat 64 (m + if sign then 2 ^ 63 else 0)

/-- The NaN an operation on `a` and `b` computes: quiet, its sign and payload free (log 8). -/
def nanOf (a b : F) : F := 0x7FF8000000000000#64 ||| (Config.nanBits a b &&& 0x8007FFFFFFFFFFFF#64)

/-- The magnitude of a finite value in units of 2^-1074. -/
def units (v : F) : Nat :=
  let e := mag v / 2 ^ 52
  let f := mag v % 2 ^ 52
  if e = 0 then f else (2 ^ 52 + f) * 2 ^ (e - 1)

/-- A finite value in units of 2^-1074. -/
def exact (v : F) : Int := if neg v then -(units v : Int) else (units v : Int)

/-- `n / d` rounded to `p` significant bits, ties to even, in units of the format's least subnormal: the bits
of the rounded magnitude, with an exponent range that has no upper end (R8). -/
def roundMag (p n d : Nat) : Nat :=
  let k := (n / d).log2 + 1 - p
  let u := d * 2 ^ k
  let q := n / u
  let r := n % u
  let up := decide (u < 2 * r) || (decide (2 * r = u) && decide (q % 2 = 1))
  k * 2 ^ (p - 1) + (if up then q + 1 else q)

/-- The binary64 value nearest `± n / d` units of 2^-1074; an infinity beyond the largest finite value. -/
def round64 (sign : Bool) (n d : Nat) : F := pack sign (min (roundMag 53 n d) infMag)

/-- The units of 1: `2^1074`. -/
def oneUnits : Nat := 2 ^ 1074

/-- A whole number as a value of `F` (exactly, for every `floorI`). -/
def ofInt (i : Int) : F := round64 (decide (i < 0)) (i.natAbs * oneUnits) 1

def one : F := 0x3FF0000000000000#64
def ten : F := 0x4024000000000000#64
/-- The binary64 nearest 2π (R8). -/
def twoPi : F := 0x401921FB54442D18#64
/-- Half of `TWO_PI`: π rounded. -/
def pi : F := 0x400921FB54442D18#64

/-- The value with the other sign (log 10). -/
def negate (v : F) : F := v ^^^ 0x8000000000000000#64

def add (a b : F) : F :=
  if isNaN a || isNaN b then nanOf a b
  else if isInf a then (if isInf b && (neg a != neg b) then nanOf a b else a)
  else if isInf b then b
  else
    let z := exact a + exact b
    if z = 0 then pack (neg a && neg b) 0 else round64 (decide (z < 0)) z.natAbs 1

def sub (a b : F) : F := add a (negate b)

def mul (a b : F) : F :=
  let sign := neg a != neg b
  if isNaN a || isNaN b then nanOf a b
  else if isInf a || isInf b then (if isZero a || isZero b then nanOf a b else pack sign infMag)
  else round64 sign (units a * units b) oneUnits

def div (a b : F) : F :=
  let sign := neg a != neg b
  if isNaN a || isNaN b then nanOf a b
  else if isInf a then (if isInf b then nanOf a b else pack sign infMag)
  else if isInf b then pack sign 0
  else if isZero b then (if isZero a then nanOf a b else pack sign infMag)
  else round64 sign (units a * oneUnits) (units b)

/-- The order of the values that are no NaN; both zeros have place 0. -/
def key (v : F) : Int := if neg v then -(mag v : Int) else (mag v : Int)

/-- The quiet comparisons: every comparison with a NaN is false, `-0 == +0` (R8). -/
def lt (a b : F) : Bool := !isNaN a && !isNaN b && decide (key a < key b)
def le (a b : F) : Bool := !isNaN a && !isNaN b && decide (key a ≤ key b)
def eq (a b : F) : Bool := !isNaN a && !isNaN b && decide (key a = key b)

/-- The greatest integer not above a finite value (R8). -/
def floor (v : F) : Int := exact v / oneUnits

/-- The least integer not below a finite value (R8). -/
def ceil (v : F) : Int := -((-exact v) / oneUnits)

/-- `to32` (R8): the binary32 pattern, roundTiesToEven. Of a NaN it gives a NaN pattern, which no step
delivers (log 9). -/
def to32 (v : F) : BitVec 32 :=
  let m :=
    if isNaN v then 0x7FC00000
    else if isInf v then 0x7F800000
    else min (roundMag 24 (units v) (2 ^ 925)) 0x7F800000
  BitVec.ofNat 32 (m + if neg v then 2 ^ 31 else 0)

/-- `to32` gave neither an infinity nor a NaN (60_exceptions.md R314). -/
def finite32 (b : BitVec 32) : Bool := decide (b.toNat % 2 ^ 31 < 0x7F800000)

/-- `atan2(y, x)` (R8, 93_implementation_defined.md I3): a free value with the sign of `y` and at most π
rounded, where neither I3 nor IEEE 754's list of exact cases gives one (log 6). -/
def atan2 (y x : F) : F :=
  if isNaN y || isNaN x then nanOf y x
  else if isZero y || (isInf x && !isInf y) then (if neg x then pack (neg y) (mag pi) else pack (neg y) 0)
  else pack (neg y) (min (mag (Config.atan2Bits y x)) (mag pi))

/-- A place in `[lo, hi]`. -/
def between (lo hi c : Nat) : Nat := lo + c % (hi - lo + 1)

/-- A monotone function of an `n`-bit place `x` into `[lo, hi]`, every one of which some choice gives: each
step halves the places and cuts the range at a free point. `path` names the part of the places reached. -/
def monotone (n x path lo hi : Nat) : Nat :=
  match n with
  | 0 => between lo hi (Config.exp10Choice 0 path)
  | n + 1 =>
    let cut := between lo hi (Config.exp10Choice (n + 1) path)
    if x < 2 ^ n then monotone n x (2 * path) lo cut else monotone n (x - 2 ^ n) (2 * path + 1) cut hi

/-- The largest `x` below the overflow point of `10^x`: the value below log10(2^1024) = 308.2547... -/
def exp10Top : F := 0x40734413509F79FE#64

/-- `exp10(x) = 10^x` (R8, 93_implementation_defined.md I4): 1 at 0, an infinity beyond the overflow point, and
a free monotone function with finite values `>= 0` below it (log 7). -/
def exp10 (x : F) : F :=
  if isNaN x then nanOf x x
  else if isZero x then one
  else if neg x then
    (if isInf x then pack false 0 else pack false (monotone 63 (infMag - mag x) 2 0 (mag one)))
  else if mag exp10Top < mag x then pack false infMag
  else pack false (monotone 63 (mag x) 3 (mag one) (infMag - 1))

/-- The bound `n / d <= v` of 45_str.md R258, in units. -/
def atLeast (v : F) (n : Int) (d : Nat) : Bool := decide (n * oneUnits ≤ exact v * d)

/-- The default record (R8). -/
@[reducible] def binary64 : NumRecord :=
  { add := add, sub := sub, mul := mul, div := div, lt := lt, le := le, eq := eq
    floor := floor, ceil := ceil, finite := finite, atan2 := atan2, exp10 := exp10, to32 := to32, one := one, twoPi := twoPi, ten := ten
    negate := negate, ofInt := ofInt, atLeast := atLeast }

end Sys2Proof.Machine.NUM

namespace Sys2Proof

/-- The numeric record of an engine (00_scope.md R6, R8). -/
def Params.record (p : Params) : NumRecord :=
  match p.num with
  | .binary64 => Machine.NUM.binary64
  | .other n => Config.numRecord n

/-- `floorI`, defined for finite values (R10). -/
def NumRecord.floorI (N : NumRecord) (v : F) : Option Int := if N.finite v then some (N.floor v) else none

/-- `ceilI`, defined for finite values (R10). -/
def NumRecord.ceilI (N : NumRecord) (v : F) : Option Int := if N.finite v then some (N.ceil v) else none

/-- `sgn` (R10). -/
def NumRecord.sgn (N : NumRecord) (v : F) : F :=
  if N.lt posZero v then N.one else if N.lt v posZero then N.negate N.one else posZero

/-- `clamp` (R10). -/
def NumRecord.clamp (N : NumRecord) (v lo hi : F) : F := if N.lt v lo then lo else if N.lt hi v then hi else v

/-- `Σ` (R9): from `ZERO`, in the order of the list. -/
def NumRecord.sum (N : NumRecord) (ts : List F) : F := ts.foldl N.add posZero

end Sys2Proof
end

