-- ==== Sys2Proof/Machine/State.lean ====
section
/-! DEFINITION. The state of the engine as plain data (10_state.md), the two kinds of stop, and the reset state. -/

namespace Sys2Proof.Machine

/-- A sample: a pair of values of `F`; of a real sample the second component is `+0.0` and not read (R39). -/
structure Sample where
  re : F
  im : F
  deriving DecidableEq, Repr

/-- `(+0.0, +0.0)`. -/
abbrev Sample.zero : Sample := { re := posZero, im := posZero }

/-- `LC`, the lifecycle register (R21); its values 5 to 7 are never held. -/
inductive Lifecycle where
  | idle
  | running
  | stopping
  | halted
  | faulted
  deriving DecidableEq, Repr

/-- `S[s].KIND` (R25); its values 6 and 7 are never held. -/
inductive Kind where
  | none
  | sql
  | fmd
  | fir
  | rsp
  | str
  deriving DecidableEq, Repr

/-- `FCODE`, the fault codes of 60_exceptions.md R301; `noFault` is code 0. -/
inductive FaultCode where
  | noFault
  | cfgEmpty
  | cfgGap
  | cfgType
  | cfgTaps
  | cfgRate
  | cfgDev
  | cfgGain
  | cfgSql
  | cfgStrHist
  | cfgStrParam
  | cfgStrItb
  | cfgRing
  | cfgFactor
  | numStage
  | ioNonfinite
  | numSink
  | ioExternal
  deriving DecidableEq, Repr

/-- One copy of the tunable registers (R24, R34). -/
structure Tunables where
  fs : F
  rffs : F
  dev : F
  baud : F
  thr : F
  lg : F
  fc : F
  deriving DecidableEq, Repr

/-- All tunables `+0.0` (R42). -/
abbrev Tunables.zero : Tunables :=
  { fs := posZero, rffs := posZero, dev := posZero, baud := posZero, thr := posZero, lg := posZero, fc := posZero }

/-- An entry-indexed memory of values of `F` (20_memory.md R60): the entries that differ from `+0.0`, by rising
index. An entry that is not listed reads `+0.0` (log 11). -/
abbrev Mem := List (Nat × F)

/-- The configuration registers of a slot (R25). -/
structure SlotCfg where
  kind : Kind
  flag : Bool
  l : BitVec 16
  m : BitVec 16
  nt : BitVec 5
  lognph : BitVec 4
  par1 : F
  par2 : F
  par3 : F
  deriving DecidableEq, Repr

/-- The tap memory of a slot (R26): two banks, their counts, `ACT` (false is bank 0) and `DIRTY`. -/
structure TapMem where
  bank0 : Mem
  bank1 : Mem
  count0 : Nat
  count1 : Nat
  act : Bool
  dirty : Bool
  deriving DecidableEq, Repr

/-- The interpolator table of a slot (R27): entry `(r, k)` has index `r * NTMAX + k`; bit `r` of `valid` is
`ITBV[r]`. -/
structure InterpTable where
  coeffs : Mem
  valid : BitVec 1025
  deriving DecidableEq, Repr

/-- The derived registers of a slot (R28). -/
structure Derived where
  tho : F
  thc : F
  gain : F
  p0 : F
  rng : F
  pmin : F
  pmax : F
  dc : BitVec 8
  w : BitVec 8
  cb : BitVec 8
  deriving DecidableEq, Repr

/-- The runtime state of a slot: `DONE` (R29), squelch (R35), demodulator (R36), filter history (R37) and
timing recovery (R38). -/
structure Runtime where
  done : Bool
  pwr : F
  gate : Bool
  prev : Sample
  hist : List Sample
  mu : F
  period : F
  integ : F
  err : F
  skip : BitVec 32
  win : List F
  deriving DecidableEq, Repr

/-- One stage slot (R25 to R29, R35 to R38). -/
structure Slot where
  cfg : SlotCfg
  taps : TapMem
  itb : InterpTable
  dv : Derived
  rt : Runtime
  deriving DecidableEq, Repr

/-- One ring (R39): its queue, oldest sample first, and `TYP` (true is complex). `CNT` is the queue's length. -/
structure Ring where
  queue : List Sample
  cplx : Bool
  deriving DecidableEq, Repr

/-- The configuration of an empty slot (R42). -/
def SlotCfg.reset : SlotCfg :=
  { kind := .none, flag := false, l := 1#16, m := 1#16, nt := 0#5, lognph := 0#4,
    par1 := posZero, par2 := posZero, par3 := posZero }

/-- Empty tap memory (R42; contents: log 11). -/
def TapMem.reset : TapMem :=
  { bank0 := [], bank1 := [], count0 := 0, count1 := 0, act := false, dirty := false }

/-- No row valid (R42; contents: log 11). -/
def InterpTable.reset : InterpTable := { coeffs := [], valid := 0#1025 }

/-- All derived registers zero (R42). -/
def Derived.reset : Derived :=
  { tho := posZero, thc := posZero, gain := posZero, p0 := posZero, rng := posZero, pmin := posZero,
    pmax := posZero, dc := 0#8, w := 0#8, cb := 0#8 }

/-- The reset values of the runtime state (R42). -/
def Runtime.reset (p : Params) : Runtime :=
  { done := false, pwr := posZero, gate := false, prev := Sample.zero,
    hist := List.replicate p.tapmax Sample.zero, mu := posZero, period := posZero, integ := posZero,
    err := posZero, skip := 0#32, win := List.replicate p.hlen posZero }

/-- A slot at its reset values (R42). -/
def Slot.reset (p : Params) : Slot :=
  { cfg := SlotCfg.reset, taps := TapMem.reset, itb := InterpTable.reset, dv := Derived.reset,
    rt := Runtime.reset p }

/-- An empty real ring (R42). -/
def Ring.reset : Ring := { queue := [], cplx := false }

/-- The engine, and the model's own fields: the parameters and the inputs and outputs of the step relation,
which 10_state.md R44 calls no state of the engine (logs 2, 3, 4). -/
structure State where
  /-- the parameters (00_scope.md R6, log 4) -/
  par : Params
  /-- `LC` (R21) -/
  lc : Lifecycle
  /-- `FCODE` (R22) -/
  fcode : FaultCode
  /-- `FSLOT` (R22) -/
  fslot : BitVec 4
  /-- `NSTG` (R23) -/
  nstg : Nat
  /-- the pending copies of the tunables (R24) -/
  pend : Tunables
  /-- the active copies of the tunables (R24) -/
  actv : Tunables
  /-- the `NSLOT` slots -/
  slots : List Slot
  /-- the `NSLOT + 1` rings (R39) -/
  rings : List Ring
  /-- words at the command port that are not yet consumed (log 3) -/
  cmdIn : List Word
  /-- words written to the response port, oldest first (log 3) -/
  resp : List Word
  /-- words the source offers at the input port (log 3) -/
  srcIn : List F
  /-- bytes delivered at the output port, oldest first (log 3) -/
  snkOut : List Byte
  /-- the agents that move next; with none, `Config.schedule` picks (log 2) -/
  plan : List Agent
  /-- how often `Config.schedule` has picked (log 2) -/
  turn : Nat
  deriving DecidableEq, Repr

/-- Why the machine stops. The spec's own faults are no stop: they are the next state that `raiseFault`
(Machine/Ops.lean) gives. These three are raised by a stage invocation only, in states that no run from reset
reaches (log 12); each is safe. -/
inductive Fault where
  /-- an invocation indexes `TAP`, `ITB`, `HIST` or `WIN` outside the space (20_memory.md R67: such an index
  cannot occur). Raised by `pfir` and `invokeStr`; safe. -/
  | outsideMemory
  /-- `floorI` of an infinity or a NaN, which 00_scope.md R10 does not define. Raised by `invokeStr`; safe. -/
  | undefinedInteger
  /-- `q(f)` for an `f` outside `[0, 1]`, which 45_str.md R258 does not define. Raised by `invokeStr`; safe. -/
  | noRow
  deriving DecidableEq, Repr

/-- Why an instruction has no meaning. -/
inductive Refusal where
  /-- `exec` has no meaning for the instruction yet. No arm of `exec` raises it; safe. -/
  | notModelled (mnemonic : String)
  deriving DecidableEq, Repr

/-- The engine after power-on with parameters `p` (R42, 70_reset_and_hazards.md R341), nothing at its ports. -/
def State.init (p : Params) : State :=
  { par := p, lc := .idle, fcode := .noFault, fslot := 0#4, nstg := 0,
    pend := Tunables.zero, actv := Tunables.zero,
    slots := List.replicate p.nslot (Slot.reset p), rings := List.replicate (p.nslot + 1) Ring.reset,
    cmdIn := [], resp := [], srcIn := [], snkOut := [], plan := [], turn := 0 }

/-- The machine right after reset (R42), with the default parameters of 00_scope.md R6. -/
def State.reset : State := State.init Params.default

end Sys2Proof.Machine
end

