-- ==== Sys2Proof/Machine/Ops.lean ====
section
/-! DEFINITION. The named operations over memories, slots, rings and ports, fault entry and the return from it. -/

namespace Sys2Proof.Machine

/-- What one step answers. -/
abbrev Out := Host.Outcome State Fault Refusal

/-! ### Entry-indexed memories (20_memory.md R60) -/

/-- One entry; `+0.0` where none is listed (log 11). -/
def Mem.read : Mem → Nat → F
  | [], _ => posZero
  | (b, v) :: m, a => if b = a then v else Mem.read m a

/-- Write one entry, keeping the canonical form: indices rising, `+0.0` not listed. -/
def Mem.write : Mem → Nat → F → Mem
  | [], a, v => if v = posZero then [] else [(a, v)]
  | (b, w) :: m, a, v =>
    if a < b then (if v = posZero then (b, w) :: m else (a, v) :: (b, w) :: m)
    else if a = b then (if v = posZero then m else (a, v) :: m)
    else (b, w) :: Mem.write m a v

/-- `MemWrite(space, a, n, vs)` (00_scope.md R11): consecutive entries from `a` up. -/
def Mem.writeAll : Mem → Nat → List F → Mem
  | m, _, [] => m
  | m, a, v :: vs => Mem.writeAll (Mem.write m a v) (a + 1) vs

/-- `MemRead(space, a, n)` (R11). -/
def Mem.readAll (m : Mem) (a n : Nat) : List F := (List.range n).map fun k => Mem.read m (a + k)

/-- The canonical form. -/
abbrev Mem.Wf (m : Mem) : Prop := m.Pairwise (fun x y => x.1 < y.1) ∧ ∀ x ∈ m, x.2 ≠ posZero

/-! ### Tap banks (10_state.md R26) -/

/-- `TAPN[b]`. -/
def TapMem.count (t : TapMem) (b : Bool) : Nat := if b then t.count1 else t.count0
/-- `TAP[b]`. -/
def TapMem.bank (t : TapMem) (b : Bool) : Mem := if b then t.bank1 else t.bank0
/-- `TAP[b][0 .. TAPN[b]-1]`. -/
def TapMem.vector (t : TapMem) (b : Bool) : List F := Mem.readAll (t.bank b) 0 (t.count b)

/-- Load a tap vector into bank `b` (40_commands.md R141). -/
def TapMem.load (t : TapMem) (b : Bool) (vs : List F) : TapMem :=
  if b then { t with bank1 := Mem.writeAll t.bank1 0 vs, count1 := vs.length, dirty := true }
  else { t with bank0 := Mem.writeAll t.bank0 0 vs, count0 := vs.length, dirty := true }

/-- Make the pending bank active when it is dirty (40_commands.md R127). -/
def TapMem.adopt (t : TapMem) : TapMem := if t.dirty then { t with act := !t.act, dirty := false } else t

/-! ### The interpolator table (10_state.md R27) -/

/-- The index of entry `(r, k)`. -/
def itbIndex (p : Params) (r k : Nat) : Nat := r * p.ntmax + k
/-- `ITB[r][0 .. n-1]`. -/
def InterpTable.row (p : Params) (t : InterpTable) (r n : Nat) : List F := Mem.readAll t.coeffs (itbIndex p r 0) n
/-- `ITBV[r]`. -/
def InterpTable.rowValid (t : InterpTable) (r : Nat) : Bool := t.valid.getLsbD r
/-- Write a row and set its valid bit (40_commands.md R142). -/
def InterpTable.load (p : Params) (t : InterpTable) (r : Nat) (vs : List F) : InterpTable :=
  { coeffs := Mem.writeAll t.coeffs (itbIndex p r 0) vs, valid := t.valid ||| BitVec.twoPow 1025 r }

/-! ### Slots and rings -/

/-- `S[k]`; a slot at its reset values where there is none. -/
def State.slot (s : State) (k : Nat) : Slot := s.slots.getD k (Slot.reset s.par)
/-- Replace `S[k]`. -/
def State.setSlot (s : State) (k : Nat) (x : Slot) : State := { s with slots := s.slots.set k x }
/-- `RING[e]`. -/
def State.ring (s : State) (e : Nat) : Ring := s.rings.getD e Ring.reset
/-- Replace `RING[e]`. -/
def State.setRing (s : State) (e : Nat) (x : Ring) : State := { s with rings := s.rings.set e x }
/-- `RING[e].CNT`. -/
def State.cnt (s : State) (e : Nat) : Nat := (s.ring e).queue.length

/-- The samples `deq(e, n)` returns (41_ring_scheduler.md R172). -/
def State.front (s : State) (e n : Nat) : List Sample := (s.ring e).queue.take n
/-- `deq(e, n)` (R172): remove the `n` oldest samples. -/
def State.deq (s : State) (e n : Nat) : State :=
  s.setRing e { s.ring e with queue := (s.ring e).queue.drop n }
/-- `enq(e, xs)` (R173): append behind the samples already queued. -/
def State.enq (s : State) (e : Nat) (xs : List Sample) : State :=
  s.setRing e { s.ring e with queue := (s.ring e).queue ++ xs }

/-- `finite((re, im))` (00_scope.md R10). -/
def Sample.finite (N : NumRecord) (x : Sample) : Bool := N.finite x.re && N.finite x.im

/-- `finite(x)` of a sample of an edge (R10): of the pair where the edge is complex, of the one value of `F` where it
is real. -/
def Sample.finiteOn (N : NumRecord) (cplx : Bool) (x : Sample) : Bool := if cplx then x.finite N else N.finite x.re

/-! ### Stage metadata (41_ring_scheduler.md R170, R171) -/

/-- `intype`: true is complex. -/
def Slot.inCplx (x : Slot) : Bool :=
  match x.cfg.kind with
  | .sql | .fmd => true
  | .fir | .rsp => x.cfg.flag
  | .str | .none => false
/-- `outtype`: true is complex. -/
def Slot.outCplx (x : Slot) : Bool :=
  match x.cfg.kind with
  | .sql => true
  | .fir | .rsp => x.cfg.flag
  | .fmd | .str | .none => false
/-- `need(s)`. -/
def Slot.need (x : Slot) : Nat :=
  match x.cfg.kind with
  | .sql | .fmd => 1
  | .fir | .rsp => x.cfg.m.toNat
  | .str => x.rt.skip.toNat
  | .none => 0
/-- `prod(s)`. -/
def Slot.prod (x : Slot) : Nat :=
  match x.cfg.kind with
  | .sql | .fmd | .str => 1
  | .fir | .rsp => x.cfg.l.toNat
  | .none => 0

/-- The number of leading slots with `KIND != NONE` (40_commands.md R122). -/
def leading : List Slot → Nat
  | [] => 0
  | x :: xs => if x.cfg.kind = .none then 0 else leading xs + 1

/-! ### The response port (30_encoding.md R98, R99) -/

/-- The status codes (R99). -/
inductive Status where
  | ok
  | errOpcode
  | errField
  | errSlot
  | errState
  | errCsr
  | errKind
  | errFault
  deriving DecidableEq, Repr

def Status.code : Status → BitVec 8
  | .ok => 0x00#8
  | .errOpcode => 0x01#8
  | .errField => 0x02#8
  | .errSlot => 0x03#8
  | .errState => 0x04#8
  | .errCsr => 0x05#8
  | .errKind => 0x06#8
  | .errFault => 0x10#8

/-- The status word `code ++ info` (R98). -/
def statusWord (c : Status) (info : BitVec 24) : Word := c.code ++ info

/-- `respond(code, info)` (R98). -/
def State.respond (s : State) (c : Status) (info : BitVec 24) : State :=
  { s with resp := s.resp ++ [statusWord c info] }

/-- `respond(code, info, v)` (R98): the status word, then `v`, low word first. -/
def State.respondData (s : State) (c : Status) (info : BitVec 24) (v : BitVec 64) : State :=
  { s with resp := s.resp ++ [statusWord c info, v.extractLsb' 0 32, v.extractLsb' 32 32] }

/-! ### Numbers of the named values -/

def Lifecycle.code : Lifecycle → Nat
  | .idle => 0
  | .running => 1
  | .stopping => 2
  | .halted => 3
  | .faulted => 4

def Kind.code : Kind → Nat
  | .none => 0
  | .sql => 1
  | .fmd => 2
  | .fir => 3
  | .rsp => 4
  | .str => 5

/-- `FCODE` (60_exceptions.md R301). -/
def FaultCode.code : FaultCode → Nat
  | .noFault => 0x00
  | .cfgEmpty => 0x01
  | .cfgGap => 0x02
  | .cfgType => 0x03
  | .cfgTaps => 0x04
  | .cfgRate => 0x05
  | .cfgDev => 0x06
  | .cfgGain => 0x07
  | .cfgSql => 0x08
  | .cfgStrHist => 0x09
  | .cfgStrParam => 0x0A
  | .cfgStrItb => 0x0B
  | .cfgRing => 0x0C
  | .cfgFactor => 0x0D
  | .numStage => 0x10
  | .ioNonfinite => 0x11
  | .numSink => 0x12
  | .ioExternal => 0x13

/-! ### Taking a fault, and the return from it -/

/-- `raise Fault(code, slot)` (60_exceptions.md R320), applied to the state before the step that raises it: the
first fault is latched and stays. -/
def State.raiseFault (s : State) (c : FaultCode) (slot : BitVec 4) : State :=
  if s.lc = .faulted then s else { s with lc := .faulted, fcode := c, fslot := slot }

/-- The engine at its reset values (10_state.md R42), the only way out of `FAULTED` (60_exceptions.md R323).
The parameters and what stands at the ports stay (log 3). -/
def State.resetEngine (s : State) : State :=
  { State.init s.par with
    cmdIn := s.cmdIn, resp := s.resp, srcIn := s.srcIn, snkOut := s.snkOut, plan := s.plan, turn := s.turn }

end Sys2Proof.Machine
end

