-- ==== Sys2Proof/Machine/Flags.lean ====
section
/-! DEFINITION. The single-bit flags (10_state.md R40) and the register words that show them. The engine has no
condition codes. -/

namespace Sys2Proof.Machine

/-- A register word from its fields `(lowest bit, width, value)`, all other bits 0 (10_state.md R30). -/
def regWord (fields : List (Nat × Nat × Nat)) : BitVec 64 :=
  BitVec.ofNat 64 (fields.foldl (fun acc f => acc + f.2.2 % 2 ^ f.2.1 * 2 ^ f.1) 0)

def bit (b : Bool) : Nat := if b then 1 else 0

/-- `GATE` after a sample (42_squelch.md R203): open above `THO`, closed at or below `THC`, else kept. -/
def gateNext (N : NumRecord) (dv : Derived) (pwr : F) (gate : Bool) : Bool :=
  if N.lt dv.tho pwr then true else if N.le pwr dv.thc then false else gate

/-- The gate bit the host sees: 0 for a slot that is not `SQL` (R32). -/
def Slot.gateShown (x : Slot) : Bool := decide (x.cfg.kind = .sql) && x.rt.gate

/-- `STATUS` (R32). -/
def State.status (s : State) : BitVec 64 :=
  regWord ([(0, 3, s.lc.code), (24, 8, s.fcode.code), (32, 4, s.fslot.toNat)] ++
    (List.range s.par.nslot).map (fun k => (8 + k, 1, bit (s.slot k).rt.done)) ++
    (List.range s.par.nslot).map (fun k => (16 + k, 1, bit (s.slot k).gateShown)))

/-- `CFGW[s]` (R33). -/
def Slot.cfgw (x : Slot) : BitVec 64 :=
  regWord [(0, 3, x.cfg.kind.code), (3, 1, bit x.cfg.flag), (4, 5, x.cfg.nt.toNat), (9, 4, x.cfg.lognph.toNat),
    (16, 16, x.cfg.m.toNat), (32, 16, x.cfg.l.toNat)]

/-- `TAPINFO[s]` (R33), which shows `ACT` and `DIRTY`. -/
def Slot.tapinfo (x : Slot) : BitVec 64 :=
  regWord [(0, 12, x.taps.count x.taps.act), (16, 12, x.taps.count !x.taps.act), (32, 1, bit x.taps.act),
    (33, 1, bit x.taps.dirty)]

/-- `GEOM[s]` (R33). -/
def Slot.geom (x : Slot) : BitVec 64 :=
  regWord [(0, 8, x.dv.dc.toNat), (8, 8, x.dv.w.toNat), (16, 8, x.dv.cb.toNat)]

/-- `RINGINFO[e]` (R33). -/
def Ring.info (r : Ring) : BitVec 64 := regWord [(0, 16, r.queue.length), (16, 1, bit r.cplx)]

end Sys2Proof.Machine
end

