-- ==== Sys2Proof/Machine/Invocation.lean ====
section
/-! DEFINITION. What a stage invocation answers, and the two small stages: squelch and demodulator. -/

namespace Sys2Proof.Machine

/-- What an invocation answers (41_ring_scheduler.md R180, R181). -/
inductive Invoked where
  /-- the samples appended, and the runtime state written -/
  | emit (out : List Sample) (rt : Runtime)
  /-- `raise Fault(NUM_STAGE, s)`: the step is abandoned -/
  | raise
  /-- the spec gives the state no meaning; no run from reset reaches it (log 12) -/
  | stuck (f : Fault)
  deriving DecidableEq, Repr

/-- The smoothed power after a sample (42_squelch.md R203). -/
def smoothed (N : NumRecord) (alpha pwr : F) (x : Sample) : F :=
  let m2 := N.add (N.mul x.re x.re) (N.mul x.im x.im)
  N.add pwr (N.mul alpha (N.sub m2 pwr))

/-- `invoke_SQL(s, [x])` (42_squelch.md R203). -/
def invokeSql (N : NumRecord) (k : Slot) (x : Sample) : Invoked :=
  let pwr := smoothed N k.cfg.par1 k.rt.pwr x
  let gate := gateNext N k.dv pwr k.rt.gate
  if N.finite pwr then .emit [if gate then x else Sample.zero] { k.rt with pwr := pwr, gate := gate }
  else .raise

/-- The phase step between two samples (43_fmdemod.md R218): the angle of `x` times the conjugate of `p`, and
`+0.0` where the product is zero. -/
def phaseStep (N : NumRecord) (p x : Sample) : F :=
  let re := N.add (N.mul x.re p.re) (N.mul x.im p.im)
  let im := N.sub (N.mul x.im p.re) (N.mul x.re p.im)
  if N.eq re posZero && N.eq im posZero then posZero else N.atan2 im re

/-- `invoke_FMD(s, [x])` (43_fmdemod.md R218). -/
def invokeFmd (N : NumRecord) (k : Slot) (x : Sample) : Invoked :=
  let y := N.mul k.dv.gain (phaseStep N k.rt.prev x)
  if N.finite y then .emit [{ re := y, im := posZero }] { k.rt with prev := x } else .raise

end Sys2Proof.Machine
end

