-- ==== Sys2Proof/Machine/Filter.lean ====
section
/-! DEFINITION. The polyphase core `pfir` of the FIR and RSP stages (44_fir.md R233 to R236, 46_resampler.md R291). -/

namespace Sys2Proof.Machine

/-- `shift(s, x)` (44_fir.md R233): the newest sample first; of a real sample the imaginary part is stored
`+0.0`. -/
def shiftHist (p : Params) (cplx : Bool) (hist : List Sample) (x : Sample) : List Sample :=
  ((if cplx then x else { x with im := posZero }) :: hist).take p.tapmax

/-- `J(p)`: the number of `j` with `p + j*L < N` (R234). -/
def branchLen (n l p : Nat) : Nat := if n ≤ p then 0 else (n - 1 - p) / l + 1

/-- One polyphase sum (R234), over one component of the history. -/
def branchSum (N : NumRecord) (taps : List F) (hist : List Sample) (l p : Nat) (part : Sample → F) : F :=
  N.sum ((List.range (branchLen taps.length l p)).map fun j =>
    N.mul (taps.getD (p + j * l) posZero) (part (hist.getD j Sample.zero)))

/-- `pout(s, p)` (R234). -/
def pout (N : NumRecord) (cplx : Bool) (taps : List F) (hist : List Sample) (l p : Nat) : Sample :=
  { re := branchSum N taps hist l p Sample.re
    im := if cplx then branchSum N taps hist l p Sample.im else posZero }

/-- The inner loop of `pfir` (R236): emit while `t0 < L`. Every turn raises `t0` by `M >= 1`, so `L` turns of
fuel are enough. Answers the outputs and `t0`, or none where an output is not finite. -/
def emitWhile (N : NumRecord) (cplx : Bool) (taps : List F) (hist : List Sample) (l m : Nat) :
    Nat → Nat → Option (List Sample × Nat)
  | 0, t0 => some ([], t0)
  | fuel + 1, t0 =>
    if t0 < l then
      let y := pout N cplx taps hist l t0
      if y.finiteOn N cplx then
        match emitWhile N cplx taps hist l m fuel (t0 + m) with
        | some (ys, t) => some (y :: ys, t)
        | none => none
      else none
    else some ([], t0)

/-- The outer loop of `pfir` (R236): shift each input sample in, emit, step the position back by `L`. Answers
the outputs and the history, or none where an output is not finite. -/
def polyphase (p : Params) (cplx : Bool) (taps : List F) (l m : Nat) :
    List Sample → Nat → List Sample → Option (List Sample × List Sample)
  | [], _, hist => some ([], hist)
  | x :: xs, t0, hist =>
    let h := shiftHist p cplx hist x
    match emitWhile p.record cplx taps h l m l t0 with
    | some (ys, t) =>
      match polyphase p cplx taps l m xs (t - l) h with
      | some (zs, h') => some (ys ++ zs, h')
      | none => none
    | none => none

/-- `pfir(s, xs)` (R236), used as `invoke_FIR` and as `invoke_RSP` (46_resampler.md R291). -/
def pfir (p : Params) (k : Slot) (xs : List Sample) : Invoked :=
  if p.tapmax < k.taps.count k.taps.act then .stuck .outsideMemory
  else
    match polyphase p k.cfg.flag (k.taps.vector k.taps.act) k.cfg.l.toNat k.cfg.m.toNat xs 0 k.rt.hist with
    | some (out, hist) => .emit out { k.rt with hist := hist }
    | none => .raise

end Sys2Proof.Machine
end

