-- ==== Sys2Proof/Machine/Timing.lean ====
section
/-! DEFINITION. The symbol timing recovery stage (45_str.md R255 to R265). -/

namespace Sys2Proof.Machine

/-- `wshift(s, x)` (45_str.md R256) over the first `w` places of the window. -/
def shiftWin (w : Nat) (win : List F) (x : F) : List F := (win.take w).drop 1 ++ x :: win.drop w

/-- `(2*r - 1) / (2*NPH) <= f < (2*r + 1) / (2*NPH)`, exact (45_str.md R258). -/
def rowCovers (N : NumRecord) (nph : Nat) (f : F) (r : Nat) : Bool :=
  N.atLeast f (2 * (r : Int) - 1) (2 * nph) && !N.atLeast f (2 * (r : Int) + 1) (2 * nph)

/-- `q(f)` (R258): the row of a fraction in `[0, 1]`. -/
def rowOf (N : NumRecord) (nph : Nat) (f : F) : Option Nat :=
  if N.le posZero f && N.le f N.one then (List.range (nph + 1)).find? (rowCovers N nph f)
  else none

/-- The window places that an interpolation at offset `o` reads first (R257). -/
def firstPlace (k : Slot) (o : Int) : Int := k.dv.cb.toNat + o - ((k.cfg.nt.toNat : Int) / 2 - 1)

/-- `interp(s, o, f)` (R257) over the window `win`. -/
def interp (p : Params) (k : Slot) (win : List F) (o : Int) (f : F) : Except Fault F :=
  match rowOf p.record (2 ^ k.cfg.lognph.toNat) f with
  | none => .error .noRow
  | some r =>
    let nt := k.cfg.nt.toNat
    let a := firstPlace k o
    if k.cfg.lognph.toNat ≤ p.lognphmax ∧ nt ≤ p.ntmax ∧ 0 ≤ a ∧ a + nt ≤ k.dv.w.toNat then
      .ok (p.record.sum (List.zipWith p.record.mul (k.itb.row p r nt) ((win.drop a.toNat).take nt)))
    else .error .outsideMemory

/-- A real instant as the whole samples and the fraction beside the base sample (R259). -/
def splitInstant (N : NumRecord) (v : F) : Except Fault (Int × F) :=
  match N.floorI v with
  | some o => .ok (o, N.sub v (N.ofInt o))
  | none => .error .undefinedInteger

/-- The interpolated value at the instant `v` beside the base sample (R259). -/
def sampleAt (p : Params) (k : Slot) (win : List F) (v : F) : Except Fault F :=
  match splitInstant p.record v with
  | .ok (o, f) => interp p k win o f
  | .error e => .error e

/-- `mid`, `early`, `late` (R259, R260). -/
def instants (p : Params) (k : Slot) (win : List F) : Except Fault (F × F × F) :=
  match interp p k win 0 k.rt.mu with
  | .error e => .error e
  | .ok mid =>
    match sampleAt p k win (p.record.sub k.rt.mu k.cfg.par1) with
    | .error e => .error e
    | .ok early =>
      match sampleAt p k win (p.record.add k.rt.mu k.cfg.par1) with
      | .error e => .error e
      | .ok late => .ok (mid, early, late)

/-- The timing error (R261). -/
def timingError (N : NumRecord) (mid early late : F) : F := N.mul (N.sgn mid) (N.sub late early)

/-- `integ'` (R262, R264). -/
def integNext (N : NumRecord) (k : Slot) (lg e : F) : F :=
  N.clamp (N.add k.rt.integ (N.mul lg e)) (N.negate k.dv.rng) k.dv.rng

/-- The advance to the next instant (R263, R264). -/
def advance (N : NumRecord) (k : Slot) (period e : F) : F :=
  N.clamp (N.add period (N.mul k.cfg.par2 e)) k.dv.pmin k.dv.pmax

/-- Steps 4 and 5 of the cycle (R260): the loop filter, the advance and the emitted sample. -/
def closeLoop (N : NumRecord) (k : Slot) (lg : F) (win : List F) (mid e : F) : Invoked :=
  let integ := integNext N k lg e
  let period := N.add k.dv.p0 integ
  let t := N.add k.rt.mu (advance N k period e)
  match splitInstant N t with
  | .error x => .stuck x
  | .ok (n, mu) =>
    .emit [{ re := mid, im := posZero }]
      { k.rt with
        win := win, skip := BitVec.ofInt 32 n, mu := mu, integ := integ, period := period, err := e }

/-- `invoke_STR(s, xs)` (R260). `lg` is `LG_A`. -/
def invokeStr (p : Params) (lg : F) (k : Slot) (xs : List Sample) : Invoked :=
  if k.dv.w.toNat = 0 ∨ p.hlen < k.dv.w.toNat then .stuck .outsideMemory
  else
    let win := (xs.map Sample.re).foldl (shiftWin k.dv.w.toNat) k.rt.win
    match instants p k win with
    | .error x => .stuck x
    | .ok (mid, early, late) =>
      let e := timingError p.record mid early late
      if p.record.finite mid && p.record.finite e then closeLoop p.record k lg win mid e else .raise

end Sys2Proof.Machine
end

