-- ==== Sys2Proof/Machine/Agents.lean ====
section
/-! DEFINITION. The steps of the agents beside the command port: source, sink, I/O failure, stages, scheduler
(41_ring_scheduler.md R176 to R185, 60_exceptions.md R316). An agent whose step is not enabled does nothing. -/

namespace Sys2Proof.Machine

/-! ### The source -/

/-- The sample at the head of the input port and the words behind it (20_memory.md R64): one word for a real
sample, two for a complex one, which enter together. -/
def offered (cplx : Bool) (ws : List F) : Option (Sample × List F) :=
  match cplx, ws with
  | false, w :: rest => some ({ re := w, im := posZero }, rest)
  | true, w :: v :: rest => some ({ re := w, im := v }, rest)
  | _, _ => none

/-- The input port is open and has room (R176). -/
def pushReady (s : State) : Bool := decide (s.lc = .running) && decide (s.cnt 0 < s.par.rcap)

/-- `HOSTSRC`: push one sample (R176). -/
def hostSrc (s : State) : State :=
  match pushReady s, offered (s.ring 0).cplx s.srcIn with
  | true, some (x, rest) =>
    if x.finiteOn s.par.record (s.ring 0).cplx then State.enq { s with srcIn := rest } 0 [x]
    else s.raiseFault .ioNonfinite 0xF#4
  | _, _ => s

/-! ### The sink -/

/-- The four bytes of a binary32 pattern, least significant first (20_memory.md R66). -/
def bytesOf (b : BitVec 32) : List Byte :=
  [b.extractLsb' 0 8, b.extractLsb' 8 8, b.extractLsb' 16 8, b.extractLsb' 24 8]

/-- The binary32 patterns of a sample, real part first (R66). -/
def sinkWords (N : NumRecord) (cplx : Bool) (x : Sample) : List (BitVec 32) :=
  if cplx then [N.to32 x.re, N.to32 x.im] else [N.to32 x.re]

/-- `HOSTSNK`: pop one sample (41_ring_scheduler.md R177). -/
def hostSnk (s : State) : State :=
  match (s.ring s.nstg).queue with
  | [] => s
  | v :: _ =>
    if 1 ≤ s.nstg ∧ s.lc ≠ .idle then
      let ws := sinkWords s.par.record (s.ring s.nstg).cplx v
      if ws.all NUM.finite32 then
        State.deq { s with snkOut := s.snkOut ++ ws.flatMap bytesOf } s.nstg 1
      else s.raiseFault .numSink 0xF#4
    else s

/-! ### The I/O failure -/

/-- The pipeline runs: `LC` is `RUNNING` or `STOPPING`. -/
def State.live (s : State) : Bool := decide (s.lc = .running ∨ s.lc = .stopping)

/-- `HOSTIO`: the I/O-failure event, lost where it is not enabled (60_exceptions.md R316). -/
def hostIo (s : State) : State := if s.live then s.raiseFault .ioExternal 0xF#4 else s

/-! ### The stages -/

/-- Slot `k` is a stage of the pipeline that is not done (R170, R180). -/
def stageLive (s : State) (k : Nat) : Bool :=
  decide (k < s.nstg) && decide ((s.slot k).cfg.kind ≠ .none) && s.live && !(s.slot k).rt.done

/-- The invocation step of `STAGE[k]` is enabled (R180). -/
def invokeReady (s : State) (k : Nat) : Bool :=
  stageLive s k && decide ((s.slot k).need ≤ s.cnt k) && decide ((s.slot k).prod ≤ s.par.rcap - s.cnt (k + 1))

/-- The invocation rule of the slot's kind (R171). -/
def invoke (s : State) (x : Slot) (ins : List Sample) : Invoked :=
  match x.cfg.kind with
  | .sql => invokeSql s.par.record x (ins.headD Sample.zero)
  | .fmd => invokeFmd s.par.record x (ins.headD Sample.zero)
  | .fir => pfir s.par x ins
  | .rsp => pfir s.par x ins
  | .str => invokeStr s.par s.actv.lg x ins
  | .none => .emit [] x.rt

/-- The invocation step of `STAGE[k]` (R180, R181). -/
def invokeStep (s : State) (k : Nat) : Out :=
  let x := s.slot k
  match invoke s x (s.front k x.need) with
  | .emit out rt => .next (((s.deq k x.need).setSlot k { x with rt := rt }).enq (k + 1) out)
  | .raise => .next (s.raiseFault .numStage (BitVec.ofNat 4 k))
  | .stuck f => .fault f

/-- The done step of `STAGE[k]` is enabled (R184). -/
def doneReady (s : State) (k : Nat) : Bool :=
  stageLive s k && decide (s.lc = .stopping) && (decide (k = 0) || (s.slot (k - 1)).rt.done) &&
    decide (s.cnt k < (s.slot k).need)

/-- The done step of `STAGE[k]` (R184). -/
def doneStep (s : State) (k : Nat) : State :=
  s.setSlot k { s.slot k with rt := { (s.slot k).rt with done := true } }

/-- `STAGE[k]`: the invocation step or the done step, which are never both enabled. -/
def stageStep (s : State) (k : Nat) : Out :=
  if invokeReady s k then invokeStep s k else if doneReady s k then .next (doneStep s k) else .next s

/-! ### The scheduler -/

/-- `SCHED`: the halt step (R185). -/
def schedHalt (s : State) : State :=
  if s.lc = .stopping ∧ 1 ≤ s.nstg ∧ (s.slot (s.nstg - 1)).rt.done = true then { s with lc := .halted } else s

/-! ### Whose turn it is -/

/-- The agent that moves next (41_ring_scheduler.md R183, log 2). -/
def State.nextAgent (s : State) : Agent :=
  match s.plan with
  | a :: _ => a
  | [] => Config.schedule s.turn

/-- The state with that turn taken from the schedule. -/
def State.advancePlan (s : State) : State :=
  match s.plan with
  | _ :: rest => { s with plan := rest }
  | [] => { s with turn := s.turn + 1 }

end Sys2Proof.Machine
end

