-- ==== Sys2Proof/Machine/Operands.lean ====
section
/-! DEFINITION. The operand forms of the commands: the control registers a number names, and the checks every
command passes before it takes effect (30_encoding.md R94 steps 4 to 7). -/

namespace Sys2Proof.Machine

/-- A slot's control registers by their low four bits (10_state.md R33). -/
def slotCsr (x : Slot) (sub : Nat) : Option (BitVec 64) :=
  match sub with
  | 0x0 => some x.cfgw
  | 0x1 => some x.cfg.par1
  | 0x2 => some x.cfg.par2
  | 0x3 => some x.cfg.par3
  | 0x4 => some x.tapinfo
  | 0x5 => some (match x.cfg.kind with
      | .sql => x.rt.pwr | .fmd => x.rt.prev.re | .str => x.rt.mu | .none | .fir | .rsp => 0#64)
  | 0x6 => some (match x.cfg.kind with
      | .sql => regWord [(0, 1, bit x.rt.gate)] | .fmd => x.rt.prev.im | .str => x.rt.period
      | .none | .fir | .rsp => 0#64)
  | 0x7 => some (match x.cfg.kind with | .str => x.rt.integ | .none | .sql | .fmd | .fir | .rsp => 0#64)
  | 0x8 => some (match x.cfg.kind with | .str => x.rt.err | .none | .sql | .fmd | .fir | .rsp => 0#64)
  | 0x9 => some (match x.cfg.kind with
      | .str => regWord [(0, 32, x.rt.skip.toNat)] | .none | .sql | .fmd | .fir | .rsp => 0#64)
  | 0xA => some (match x.cfg.kind with
      | .sql => x.dv.tho | .fmd => x.dv.gain | .str => x.dv.p0 | .none | .fir | .rsp => 0#64)
  | 0xB => some (match x.cfg.kind with
      | .sql => x.dv.thc | .str => x.dv.rng | .none | .fmd | .fir | .rsp => 0#64)
  | 0xC => some (match x.cfg.kind with | .str => x.dv.pmin | .none | .sql | .fmd | .fir | .rsp => 0#64)
  | 0xD => some (match x.cfg.kind with | .str => x.dv.pmax | .none | .sql | .fmd | .fir | .rsp => 0#64)
  | 0xE => some (match x.cfg.kind with | .str => x.geom | .none | .sql | .fmd | .fir | .rsp => 0#64)
  | _ => none

/-- `csr[n]`; none for a number that is not a register (R30 to R33). -/
def State.csr (s : State) (n : BitVec 12) : Option (BitVec 64) :=
  match n.toNat with
  | 0x000 => some s.par.idValue
  | 0x001 => some s.status
  | 0x002 => some (regWord [(0, 4, s.nstg)])
  | 0x010 => some s.pend.fs
  | 0x011 => some s.actv.fs
  | 0x012 => some s.pend.rffs
  | 0x013 => some s.actv.rffs
  | 0x014 => some s.pend.dev
  | 0x015 => some s.actv.dev
  | 0x016 => some s.pend.baud
  | 0x017 => some s.actv.baud
  | 0x018 => some s.pend.thr
  | 0x019 => some s.actv.thr
  | 0x01A => some s.pend.lg
  | 0x01B => some s.actv.lg
  | 0x01C => some s.pend.fc
  | 0x01D => some s.actv.fc
  | a =>
    if 0x100 ≤ a ∧ a < 0x100 + 0x10 * s.par.nslot then slotCsr (s.slot ((a - 0x100) / 0x10)) (a % 0x10)
    else if 0x200 ≤ a ∧ a ≤ 0x200 + s.par.nslot then some (s.ring (a - 0x200)).info
    else none

/-- The slot operand of a command that takes one (30_encoding.md R95). -/
def slotOperand : Instr → Option (BitVec 4)
  | .cfgNone k | .cfgSql k _ _ | .cfgFmd k _ | .cfgFir k _ _ _ | .cfgRsp k _ _ _ _ | .cfgStr k _ _ _ _ _ => some k
  | .ldtap k _ | .lditb k _ _ => some k
  | .nop | .reset | .start | .stop | .wait | .commit => none
  | .setFs _ | .setRffs _ | .setDev _ | .setBaud _ | .setThr _ | .setLg _ | .setFc _ | .rdcsr _ => none

/-- The lifecycle states a command is legal in (40_commands.md R120). -/
def legalIn : Instr → Lifecycle → Bool
  | .nop, _ | .reset, _ | .stop, _ | .wait, _ | .rdcsr _, _ => true
  | .start, lc => decide (lc = .idle ∨ lc = .halted)
  | .commit, lc => decide (lc = .running ∨ lc = .stopping)
  | .cfgNone _, lc | .cfgSql _ _ _, lc | .cfgFmd _ _, lc | .cfgFir _ _ _ _, lc | .cfgRsp _ _ _ _ _, lc
  | .cfgStr _ _ _ _ _ _, lc | .lditb _ _ _, lc => decide (lc = .idle ∨ lc = .halted)
  | .ldtap _ _, lc => decide (lc ≠ .faulted)
  | .setFs _, lc | .setRffs _, lc | .setDev _, lc | .setBaud _, lc | .setThr _, lc | .setLg _, lc
  | .setFc _, lc => decide (lc ≠ .faulted)

/-- R94 step 6: the slot's kind is one the command applies to. -/
def kindTakes (s : State) : Instr → Bool
  | .ldtap k _ => decide ((s.slot k.toNat).cfg.kind = .fir ∨ (s.slot k.toNat).cfg.kind = .rsp)
  | .lditb k _ _ => decide ((s.slot k.toNat).cfg.kind = .str)
  | .cfgNone _ | .cfgSql _ _ _ | .cfgFmd _ _ | .cfgFir _ _ _ _ | .cfgRsp _ _ _ _ _ | .cfgStr _ _ _ _ _ _ => true
  | .nop | .reset | .start | .stop | .wait | .commit => true
  | .setFs _ | .setRffs _ | .setDev _ | .setBaud _ | .setThr _ | .setLg _ | .setFc _ | .rdcsr _ => true

/-- R94 step 7: the command's own range checks (40_commands.md R141, R142, R160). -/
def rangeError (s : State) : Instr → Option (Status × BitVec 24)
  | .ldtap _ taps => if taps.length ≤ s.par.tapmax then none else some (.errField, 0#24)
  | .lditb k row coeffs =>
    let c := (s.slot k.toNat).cfg
    if coeffs.length = c.nt.toNat ∧ coeffs.length ≤ s.par.ntmax ∧ c.lognph.toNat ≤ s.par.lognphmax ∧
        row.toNat ≤ 2 ^ c.lognph.toNat then none
    else some (.errField, 0#24)
  | .rdcsr n => if (s.csr n).isSome then none else some (.errCsr, n.setWidth 24)
  | .cfgNone _ | .cfgSql _ _ _ | .cfgFmd _ _ | .cfgFir _ _ _ _ | .cfgRsp _ _ _ _ _ | .cfgStr _ _ _ _ _ _ => none
  | .nop | .reset | .start | .stop | .wait | .commit => none
  | .setFs _ | .setRffs _ | .setDev _ | .setBaud _ | .setThr _ | .setLg _ | .setFc _ => none

/-- The slot number is one of the engine's (R94 step 4). -/
def slotExists (s : State) (i : Instr) : Bool :=
  match slotOperand i with
  | some k => decide (k.toNat < s.par.nslot)
  | none => true

/-- Steps 4 to 7 of 30_encoding.md R94, in that order: the first failing check, as its status and info. -/
def refusal (s : State) (i : Instr) : Option (Status × BitVec 24) :=
  if !slotExists s i then some (.errSlot, 0#24)
  else if !legalIn i s.lc then some (.errState, 0#24)
  else if !kindTakes s i then some (.errKind, 0#24)
  else rangeError s i

/-- A command: refused with its status and nothing else changed (R94), or its effect. -/
def command (i : Instr) (s : State) (effect : State → State) : Out :=
  match refusal s i with
  | some (c, info) => .next (s.respond c info)
  | none => .next (effect s)

end Sys2Proof.Machine
end

