-- ==== Sys2Proof/Machine/Configure.lean ====
section
/-! DEFINITION. The configuration commands (40_commands.md R129 to R135). -/

namespace Sys2Proof.Machine

/-- What every `CFG.*` command does (R129): the whole slot returns to its reset values, then takes the
configuration given; the payload values are stored as they are. -/
def configure (slot : BitVec 4) (c : SlotCfg) (s : State) : State :=
  (s.setSlot slot.toNat { Slot.reset s.par with cfg := c }).respond .ok 0#24

/-- `CFG.NONE` (R130). -/
def execCfgNone (slot : BitVec 4) (s : State) : Out :=
  command (.cfgNone slot) s (configure slot SlotCfg.reset)

/-- `CFG.SQL` (R131). -/
def execCfgSql (slot : BitVec 4) (alpha hyst : F) (s : State) : Out :=
  command (.cfgSql slot alpha hyst) s
    (configure slot { SlotCfg.reset with kind := .sql, par1 := alpha, par2 := hyst })

/-- `CFG.FMD` (R132). -/
def execCfgFmd (slot : BitVec 4) (rsel : Bool) (s : State) : Out :=
  command (.cfgFmd slot rsel) s (configure slot { SlotCfg.reset with kind := .fmd, flag := rsel })

/-- `CFG.FIR` (R133). -/
def execCfgFir (slot : BitVec 4) (cplx : Bool) (l m : BitVec 16) (s : State) : Out :=
  command (.cfgFir slot cplx l m) s
    (configure slot { SlotCfg.reset with kind := .fir, flag := cplx, l := l, m := m })

/-- `CFG.RSP` (R134). -/
def execCfgRsp (slot : BitVec 4) (cplx : Bool) (l m : BitVec 16) (fbw : F) (s : State) : Out :=
  command (.cfgRsp slot cplx l m fbw) s
    (configure slot { SlotCfg.reset with kind := .rsp, flag := cplx, l := l, m := m, par1 := fbw })

/-- `CFG.STR` (R135). -/
def execCfgStr (slot : BitVec 4) (lognph : BitVec 4) (nt : BitVec 5) (delta kp plim : F) (s : State) : Out :=
  command (.cfgStr slot lognph nt delta kp plim) s
    (configure slot
      { SlotCfg.reset with kind := .str, lognph := lognph, nt := nt, par1 := delta, par2 := kp, par3 := plim })

end Sys2Proof.Machine
end

