-- ==== Sys2Proof/Machine/Validate.lean ====
section
/-! DEFINITION. Derived values, validation, adoption and start values: what `START` and `COMMIT` share
(40_commands.md R127, R128; 60_exceptions.md R305; 10_state.md R43). -/

namespace Sys2Proof.Machine

/-! ### Derived values -/

/-- `THO` (42_squelch.md R202). -/
def thoOf (N : NumRecord) (thr hyst : F) : F := N.exp10 (N.div (N.add thr hyst) N.ten)
/-- `THC` (42_squelch.md R202). -/
def thcOf (N : NumRecord) (thr hyst : F) : F := N.exp10 (N.div (N.sub thr hyst) N.ten)
/-- The rate `R` of a demodulator slot (43_fmdemod.md R216). -/
def fmdRate (t : Tunables) (c : SlotCfg) : F := if c.flag then t.rffs else t.fs
/-- `GAIN` (43_fmdemod.md R217). -/
def gainOf (N : NumRecord) (r dev : F) : F := N.div r (N.mul N.twoPi dev)
/-- `P0` (45_str.md R252). -/
def p0Of (N : NumRecord) (t : Tunables) : F := N.div t.fs t.baud
/-- `RNG` (R252). -/
def rngOf (N : NumRecord) (t : Tunables) (c : SlotCfg) : F := N.mul c.par3 (p0Of N t)
/-- `PMIN` (R252). -/
def pminOf (N : NumRecord) (t : Tunables) (c : SlotCfg) : F := N.sub (p0Of N t) (rngOf N t c)
/-- `PMAX` (R252). -/
def pmaxOf (N : NumRecord) (t : Tunables) (c : SlotCfg) : F := N.add (p0Of N t) (rngOf N t c)
/-- `DC` (R253), 0 where `ceilI(DELTA)` is not defined. -/
def dcOf (N : NumRecord) (c : SlotCfg) : Nat := ((N.ceilI c.par1).getD 0).toNat
/-- `W` (R253). -/
def wOf (N : NumRecord) (c : SlotCfg) : Nat := c.nt.toNat + 2 * dcOf N c + 1
/-- `CB` (R253). -/
def cbOf (N : NumRecord) (c : SlotCfg) : Nat := dcOf N c + c.nt.toNat / 2 - 1

/-- `derive()` for one slot (40_commands.md R128): the derived registers of its kind. -/
def deriveSlot (N : NumRecord) (t : Tunables) (x : Slot) : Slot :=
  match x.cfg.kind with
  | .sql => { x with dv := { x.dv with tho := thoOf N t.thr x.cfg.par2, thc := thcOf N t.thr x.cfg.par2 } }
  | .fmd => { x with dv := { x.dv with gain := gainOf N (fmdRate t x.cfg) t.dev } }
  | .str =>
    { x with dv := { x.dv with
        p0 := p0Of N t, rng := rngOf N t x.cfg, pmin := pminOf N t x.cfg, pmax := pmaxOf N t x.cfg,
        dc := BitVec.ofNat 8 (dcOf N x.cfg), w := BitVec.ofNat 8 (wOf N x.cfg), cb := BitVec.ofNat 8 (cbOf N x.cfg) } }
  | .none | .fir | .rsp => x

/-- The first `n` slots changed by `f`. -/
def mapFirst (n : Nat) (f : Slot → Slot) (xs : List Slot) : List Slot := (xs.take n).map f ++ xs.drop n

/-- `derive()` (R128). -/
def State.derive (s : State) : State := { s with slots := mapFirst s.nstg (deriveSlot s.par.record s.actv) s.slots }

/-- `adopt()` (40_commands.md R127). -/
def State.adopt (s : State) : State :=
  { s with actv := s.pend, slots := s.slots.map fun x => { x with taps := x.taps.adopt } }

/-! ### Validation (60_exceptions.md R305) -/

/-- The first of the checks that fails, as its code. -/
def firstBad : List (Bool × FaultCode) → FaultCode
  | [] => .noFault
  | (good, c) :: rest => if good then firstBad rest else c

/-- The tap vector that adoption would make active. -/
def candidateTaps (x : Slot) : List F := x.taps.vector (if x.taps.dirty then !x.taps.act else x.taps.act)

/-- `finite(v)` and `v > 0`. -/
def positive (N : NumRecord) (v : F) : Bool := N.finite v && N.lt posZero v
/-- `finite(v)` and `v >= 0`. -/
def nonnegative (N : NumRecord) (v : F) : Bool := N.finite v && N.le posZero v

def checkSql (N : NumRecord) (t : Tunables) (c : SlotCfg) : List (Bool × FaultCode) :=
  [(positive N c.par1 && N.le c.par1 N.one && nonnegative N c.par2, .cfgSql),
   (N.finite t.thr, .cfgSql),
   (N.finite (thoOf N t.thr c.par2) && N.finite (thcOf N t.thr c.par2), .cfgSql)]

def checkFmd (N : NumRecord) (t : Tunables) (c : SlotCfg) : List (Bool × FaultCode) :=
  [(positive N (fmdRate t c), .cfgRate),
   (positive N t.dev, .cfgDev),
   (positive N (gainOf N (fmdRate t c) t.dev), .cfgDev)]

/-- Checks (b) and (c) of `FIR`, shared with `RSP`. -/
def checkTaps (p : Params) (x : Slot) : List (Bool × FaultCode) :=
  [(decide (1 ≤ (candidateTaps x).length) && (candidateTaps x).all p.record.finite, .cfgTaps),
   (decide (x.cfg.l.toNat ≤ p.rcap) && decide (x.cfg.m.toNat ≤ p.rcap), .cfgRing)]

def checkFir (p : Params) (x : Slot) : List (Bool × FaultCode) :=
  (decide (1 ≤ x.cfg.l.toNat) && decide (1 ≤ x.cfg.m.toNat) &&
    (decide (x.cfg.l.toNat = 1) || decide (x.cfg.m.toNat = 1)), .cfgFactor) :: checkTaps p x

def checkRsp (p : Params) (x : Slot) : List (Bool × FaultCode) :=
  (decide (1 ≤ x.cfg.l.toNat) && decide (1 ≤ x.cfg.m.toNat), .cfgFactor) :: checkTaps p x

/-- Check (a) of `STR`: `NT`, `LOGNPH`, `DELTA`, `PLIM` (45_str.md R251). -/
def strParamsGood (p : Params) (c : SlotCfg) : Bool :=
  decide (c.nt.toNat % 2 = 0) && decide (2 ≤ c.nt.toNat) && decide (c.nt.toNat ≤ p.ntmax) &&
    decide (c.lognph.toNat ≤ p.lognphmax) && positive p.record c.par1 &&
    decide ((p.record.ceilI c.par1).getD 0 ≤ 100) && nonnegative p.record c.par3 && p.record.lt c.par3 p.record.one

/-- Check (d) of `STR`: every row `0 .. NPH` is valid and finite (45_str.md R257). -/
def tableGood (p : Params) (x : Slot) : Bool :=
  (List.range (2 ^ x.cfg.lognph.toNat + 1)).all fun r =>
    x.itb.rowValid r && (x.itb.row p r x.cfg.nt.toNat).all p.record.finite

/-- `max(W - CB, floorI(PMAX) + 1)`, the largest block of an `STR` stage (45_str.md R266). -/
def strLargest (N : NumRecord) (t : Tunables) (c : SlotCfg) : Int :=
  max (wOf N c - cbOf N c : Nat) ((N.floorI (pmaxOf N t c)).getD 0 + 1)

def checkStr (p : Params) (t : Tunables) (x : Slot) : List (Bool × FaultCode) :=
  [(strParamsGood p x.cfg, .cfgStrParam),
   (nonnegative p.record x.cfg.par2, .cfgGain),
   (decide (wOf p.record x.cfg ≤ p.hlen), .cfgStrHist),
   (tableGood p x, .cfgStrItb),
   (positive p.record t.fs && positive p.record t.baud, .cfgRate),
   (nonnegative p.record t.lg, .cfgGain),
   (p.record.finite (p0Of p.record t) && p.record.le (p.record.ofInt 2) (p0Of p.record t) &&
     p.record.finite (pmaxOf p.record t x.cfg) && p.record.le p.record.one (pminOf p.record t x.cfg), .cfgStrParam),
   (decide (strLargest p.record t x.cfg ≤ p.rcap), .cfgRing)]

/-- The checks of one slot, in the order written. -/
def slotChecks (p : Params) (t : Tunables) (x : Slot) : List (Bool × FaultCode) :=
  match x.cfg.kind with
  | .sql => checkSql p.record t x.cfg
  | .fmd => checkFmd p.record t x.cfg
  | .fir => checkFir p x
  | .rsp => checkRsp p x
  | .str => checkStr p t x
  | .none => []

/-- Step 2: the first configured slot at or after `k`. -/
def gapAt : Nat → List Slot → Option Nat
  | _, [] => none
  | k, x :: xs => if x.cfg.kind = .none then gapAt (k + 1) xs else some k

/-- Step 3: the first slot whose input type is not its predecessor's output type; `k` is the place of the
list's head. -/
def typeClashAt : Nat → List Slot → Option Nat
  | k, x :: y :: xs => if x.outCplx = y.inCplx then typeClashAt (k + 1) (y :: xs) else some (k + 1)
  | _, _ => none

/-- Step 4: the first slot with a failing check; `k` is the place of the list's head. -/
def defectAt (p : Params) (t : Tunables) : Nat → List Slot → FaultCode × BitVec 4
  | _, [] => (.noFault, 0#4)
  | k, x :: xs =>
    match firstBad (slotChecks p t x) with
    | .noFault => defectAt p t (k + 1) xs
    | c => (c, BitVec.ofNat 4 k)

/-- `validate(candidate)` (R305), the candidate being the pending tunables and the banks adoption would make
active: the first defect, or `(noFault, 0)`. -/
def validate (p : Params) (t : Tunables) (slots : List Slot) (n : Nat) : FaultCode × BitVec 4 :=
  if n = 0 then (.cfgEmpty, 0xF#4)
  else
    match gapAt n (slots.drop n) with
    | some k => (.cfgGap, BitVec.ofNat 4 k)
    | none =>
      match typeClashAt 0 (slots.take n) with
      | some k => (.cfgType, BitVec.ofNat 4 k)
      | none => defectAt p t 0 (slots.take n)

/-! ### Start values and rings (10_state.md R43, 40_commands.md R122) -/

/-- The start values of one slot: `DONE` and the runtime state of its kind (R35 to R38, 45_str.md R254). -/
def startSlot (p : Params) (x : Slot) : Slot :=
  let rt := { x.rt with done := false }
  match x.cfg.kind with
  | .sql => { x with rt := { rt with pwr := posZero, gate := false } }
  | .fmd => { x with rt := { rt with prev := Sample.zero } }
  | .fir | .rsp => { x with rt := { rt with hist := List.replicate p.tapmax Sample.zero } }
  | .str =>
    { x with rt := { rt with
        mu := posZero, integ := posZero, err := posZero, period := x.dv.p0,
        skip := BitVec.ofNat 32 (x.dv.w.toNat - x.dv.cb.toNat), win := List.replicate p.hlen posZero } }
  | .none => { x with rt := rt }

/-- Every ring emptied; `RING[0]` typed by the first stage's input, `RING[s+1]` by stage `s`'s output, a ring
behind the last stage's keeping its type (log 15). -/
def startRings (slots : List Slot) (n : Nat) (rings : List Ring) : List Ring :=
  rings.mapIdx fun e r =>
    { queue := [],
      cplx :=
        if e = 0 then (match slots with | x :: _ => x.inCplx | [] => r.cplx)
        else if e ≤ n then (match slots[e - 1]? with | some x => x.outCplx | none => r.cplx)
        else r.cplx }

end Sys2Proof.Machine
end

