-- ==== Sys2Proof/Machine/Lifecycle.lean ====
section
/-! DEFINITION. The lifecycle commands (40_commands.md R121 to R126). -/

namespace Sys2Proof.Machine

/-- `info` of an `ERR_FAULT` response: bits 7:0 `FCODE`, bits 11:8 `FSLOT` (30_encoding.md R98). -/
def faultInfo (s : State) : BitVec 24 := BitVec.ofNat 24 (s.fcode.code + s.fslot.toNat * 2 ^ 8)

/-- `info` of a `WAIT` response: bits 2:0 `LC`, bits 15:8 `FCODE`, bits 19:16 `FSLOT` (R98). -/
def waitInfo (s : State) : BitVec 24 :=
  BitVec.ofNat 24 (s.lc.code + s.fcode.code * 2 ^ 8 + s.fslot.toNat * 2 ^ 16)

/-- A failed `START` or `COMMIT`: the fault is raised, nothing is adopted, and the latch is answered
(60_exceptions.md R307, R320). -/
def State.rejectConfig (s : State) (c : FaultCode) (slot : BitVec 4) : State :=
  (s.raiseFault c slot).respond .errFault (faultInfo (s.raiseFault c slot))

/-- The state of a pipeline of `n` stages that has been started from the pending configuration (R122). -/
def State.started (s : State) (n : Nat) : State :=
  let d := State.derive { s.adopt with nstg := n }
  { d with
    slots := mapFirst n (startSlot s.par) d.slots
    rings := startRings d.slots n d.rings
    lc := .running }

/-- The effect of `START` (R122). -/
def startEffect (s : State) : State :=
  let n := leading s.slots
  match validate s.par s.pend s.slots n with
  | (.noFault, _) => (s.started n).respond .ok (BitVec.ofNat 24 n)
  | (c, slot) => s.rejectConfig c slot

/-- The effect of `COMMIT` (R125): the candidate of `START`, with `n = NSTG`. -/
def commitEffect (s : State) : State :=
  match validate s.par s.pend s.slots s.nstg with
  | (.noFault, _) => s.adopt.derive.respond .ok 0#24
  | (c, slot) => s.rejectConfig c slot

/-- The effect of `STOP` (R123). -/
def stopEffect (s : State) : State :=
  State.respond (if s.lc = .running then { s with lc := .stopping } else s) .ok 0#24

/-- The `WAIT` packet's step is enabled when no stage will step again (R124). -/
def waitEnabled (s : State) : Bool := decide (s.lc = .idle ∨ s.lc = .halted ∨ s.lc = .faulted)

/-- The effect of `WAIT` (R124). Where the step is not enabled, the packet stays at the command port. -/
def waitEffect (s : State) : State :=
  if waitEnabled s then s.respond .ok (waitInfo s) else { s with cmdIn := encode .wait ++ s.cmdIn }

/-- `NOP` (R126). -/
def execNop (s : State) : Out := command .nop s fun s => s.respond .ok 0#24

/-- `RESET` (R121). -/
def execReset (s : State) : Out := command .reset s fun s => s.resetEngine.respond .ok 0#24

/-- `START` (R122). -/
def execStart (s : State) : Out := command .start s startEffect

/-- `STOP` (R123). -/
def execStop (s : State) : Out := command .stop s stopEffect

/-- `WAIT` (R124). -/
def execWait (s : State) : Out := command .wait s waitEffect

/-- `COMMIT` (R125). -/
def execCommit (s : State) : Out := command .commit s commitEffect

end Sys2Proof.Machine
end

