-- ==== Sys2Proof/Machine/Load.lean ====
section
/-! DEFINITION. The load commands (40_commands.md R141, R142). -/

namespace Sys2Proof.Machine

/-- The effect of `LDTAP` (R141): the pending bank is loaded, the active one is not touched. -/
def loadTapsEffect (slot : BitVec 4) (taps : List F) (s : State) : State :=
  let x := s.slot slot.toNat
  (s.setSlot slot.toNat { x with taps := x.taps.load (!x.taps.act) taps }).respond .ok 0#24

/-- The effect of `LDITB` (R142). -/
def loadRowEffect (slot : BitVec 4) (row : BitVec 12) (coeffs : List F) (s : State) : State :=
  let x := s.slot slot.toNat
  (s.setSlot slot.toNat { x with itb := x.itb.load s.par row.toNat coeffs }).respond .ok 0#24

/-- `LDTAP` (R141). -/
def execLdtap (slot : BitVec 4) (taps : List F) (s : State) : Out :=
  command (.ldtap slot taps) s (loadTapsEffect slot taps)

/-- `LDITB` (R142). -/
def execLditb (slot : BitVec 4) (row : BitVec 12) (coeffs : List F) (s : State) : Out :=
  command (.lditb slot row coeffs) s (loadRowEffect slot row coeffs)

end Sys2Proof.Machine
end

