-- ==== Sys2Proof/Machine/Observe.lean ====
section
/-! DEFINITION. The observation command (40_commands.md R160). -/

namespace Sys2Proof.Machine

/-- The effect of `RDCSR` on a number that is a register (R160). -/
def readCsrEffect (n : BitVec 12) (s : State) : State :=
  match s.csr n with
  | some v => s.respondData .ok 0#24 v
  | none => s.respond .errCsr (n.setWidth 24)

/-- `RDCSR` (R160). -/
def execRdcsr (n : BitVec 12) (s : State) : Out := command (.rdcsr n) s (readCsrEffect n)

end Sys2Proof.Machine
end

