-- ==== Sys2Proof/Machine/Tunable.lean ====
section
/-! DEFINITION. The tunable commands (40_commands.md R150 to R156): each writes one pending copy. -/

namespace Sys2Proof.Machine

/-- `X_P <- v ; respond(OK, 0)`: the pending copies become `t`. -/
def setPending (t : Tunables) (s : State) : State := State.respond { s with pend := t } .ok 0#24

/-- `SET.FS` (R150). -/
def execSetFs (v : F) (s : State) : Out := command (.setFs v) s (setPending { s.pend with fs := v })

/-- `SET.RFFS` (R151). -/
def execSetRffs (v : F) (s : State) : Out := command (.setRffs v) s (setPending { s.pend with rffs := v })

/-- `SET.DEV` (R152). -/
def execSetDev (v : F) (s : State) : Out := command (.setDev v) s (setPending { s.pend with dev := v })

/-- `SET.BAUD` (R153). -/
def execSetBaud (v : F) (s : State) : Out := command (.setBaud v) s (setPending { s.pend with baud := v })

/-- `SET.THR` (R154). -/
def execSetThr (v : F) (s : State) : Out := command (.setThr v) s (setPending { s.pend with thr := v })

/-- `SET.LG` (R155). -/
def execSetLg (v : F) (s : State) : Out := command (.setLg v) s (setPending { s.pend with lg := v })

/-- `SET.FC` (R156). -/
def execSetFc (v : F) (s : State) : Out := command (.setFc v) s (setPending { s.pend with fc := v })

end Sys2Proof.Machine
end

