-- ==== Sys2Proof/Machine/Dispatch.lean ====
section
/-! DEFINITION. The meaning of every command, applied to the state in which its packet has been consumed from the
command port. -/

namespace Sys2Proof.Machine

def exec (i : Instr) (s : State) : Host.Outcome State Fault Refusal :=
  match i with
  | .nop => Sys2Proof.Machine.execNop s
  | .reset => Sys2Proof.Machine.execReset s
  | .start => Sys2Proof.Machine.execStart s
  | .stop => Sys2Proof.Machine.execStop s
  | .wait => Sys2Proof.Machine.execWait s
  | .commit => Sys2Proof.Machine.execCommit s
  | .cfgNone slot => Sys2Proof.Machine.execCfgNone slot s
  | .cfgSql slot alpha hyst => Sys2Proof.Machine.execCfgSql slot alpha hyst s
  | .cfgFmd slot rsel => Sys2Proof.Machine.execCfgFmd slot rsel s
  | .cfgFir slot cplx l m => Sys2Proof.Machine.execCfgFir slot cplx l m s
  | .cfgRsp slot cplx l m fbw => Sys2Proof.Machine.execCfgRsp slot cplx l m fbw s
  | .cfgStr slot lognph nt delta kp plim => Sys2Proof.Machine.execCfgStr slot lognph nt delta kp plim s
  | .ldtap slot taps => Sys2Proof.Machine.execLdtap slot taps s
  | .lditb slot row coeffs => Sys2Proof.Machine.execLditb slot row coeffs s
  | .setFs v => Sys2Proof.Machine.execSetFs v s
  | .setRffs v => Sys2Proof.Machine.execSetRffs v s
  | .setDev v => Sys2Proof.Machine.execSetDev v s
  | .setBaud v => Sys2Proof.Machine.execSetBaud v s
  | .setThr v => Sys2Proof.Machine.execSetThr v s
  | .setLg v => Sys2Proof.Machine.execSetLg v s
  | .setFc v => Sys2Proof.Machine.execSetFc v s
  | .rdcsr n => Sys2Proof.Machine.execRdcsr n s

end Sys2Proof.Machine
end

