-- ==== Sys2Proof/Machine/Port.lean ====
section
/-! DEFINITION. The command port's step, and the step of each agent. -/

namespace Sys2Proof.Machine

/-- `HOSTCMD`: one whole packet is consumed, executed and answered (30_encoding.md R90, R94, R96). A packet that
is not yet complete at the port enables no step (log 13). DESIGN CHOICE (log 22): a `WAIT` header with a must-be-zero
bit set is answered `ERR_FIELD` at once also while `LC` is `RUNNING` or `STOPPING`. -/
def hostCmd (s : State) : Out :=
  match decode s.cmdIn with
  | .instr i rest => exec i { s with cmdIn := rest }
  | .reserved opc rest => .next (State.respond { s with cmdIn := rest } .errOpcode (opc.setWidth 24))
  | .badField rest => .next (State.respond { s with cmdIn := rest } .errField 0#24)
  | .incomplete => .next s

/-- The step of one agent (00_scope.md R5). -/
def agentStep (a : Agent) (s : State) : Out :=
  match a with
  | .hostCmd => hostCmd s
  | .hostSrc => .next (hostSrc s)
  | .hostSnk => .next (hostSnk s)
  | .hostIo => .next (hostIo s)
  | .stage k => stageStep s k
  | .sched => .next (schedHalt s)

end Sys2Proof.Machine
end

