-- ==== Sys2Proof/Machine/Step.lean ====
section
/-! DEFINITION. One step of the machine: one step of one agent. -/

namespace Sys2Proof.Machine

/-- One step: the agent whose turn it is moves (41_ring_scheduler.md R183). -/
def step (s : State) : Host.Outcome State Fault Refusal := agentStep s.nextAgent s.advancePlan

/-- The state with one packet in front at the command port and the command agent to move next, so that the next
step runs exactly that packet (log 1). -/
def State.withFetchWord (s : State) (nbits w : Nat) : State :=
  { s with cmdIn := packetOf nbits w ++ s.cmdIn, plan := .hostCmd :: s.plan }

end Sys2Proof.Machine
end

