-- ==== Sys2Proof/Safety.lean ====
section
/-! DEFINITION. What counts as a good state, in the words the statements use. -/

namespace Sys2Proof.Machine

/-! ### The command port -/

/-- `ws` written to the response port, nothing else changed. -/
def State.answers (s : State) (ws : List Word) : State := { s with resp := s.resp ++ ws }

/-- The next step executes the command `i`: the command agent moves and its packet is complete at the port. -/
def Executes (s : State) (i : Instr) : Prop :=
  s.nextAgent = .hostCmd ∧ ∃ rest, decode s.cmdIn = .instr i rest

/-- The field of width `w` at bit `lo` of a register, as a number. -/
def field (v : BitVec 64) (lo w : Nat) : Nat := (v.extractLsb' lo w).toNat

/-! ### Values written by the initialising steps -/

/-- The configuration of an empty slot (10_state.md R25, R42). -/
def emptyCfg : SlotCfg :=
  { kind := .none, flag := false, l := 1#16, m := 1#16, nt := 0#5, lognph := 0#4,
    par1 := posZero, par2 := posZero, par3 := posZero }

/-- The slot holds the configuration `c` and, in everything else, the values of 10_state.md R42. The contents of
the tap banks and of the table are not part of it (70_reset_and_hazards.md R343). -/
structure SlotCleared (p : Params) (c : SlotCfg) (x : Slot) : Prop where
  cfg : x.cfg = c
  counts : x.taps.count0 = 0 ∧ x.taps.count1 = 0
  act : x.taps.act = false
  dirty : x.taps.dirty = false
  rows : x.itb.valid = 0#1025
  sqlDerived : x.dv.tho = posZero ∧ x.dv.thc = posZero
  fmdDerived : x.dv.gain = posZero
  strDerived : x.dv.p0 = posZero ∧ x.dv.rng = posZero ∧ x.dv.pmin = posZero ∧ x.dv.pmax = posZero
  geometry : x.dv.dc = 0#8 ∧ x.dv.w = 0#8 ∧ x.dv.cb = 0#8
  done : x.rt.done = false
  sql : x.rt.pwr = posZero ∧ x.rt.gate = false
  fmd : x.rt.prev = { re := posZero, im := posZero }
  hist : x.rt.hist = List.replicate p.tapmax { re := posZero, im := posZero }
  loop : x.rt.mu = posZero ∧ x.rt.period = posZero ∧ x.rt.integ = posZero ∧ x.rt.err = posZero
  skip : x.rt.skip = 0#32
  win : x.rt.win = List.replicate p.hlen posZero

/-- Every register at the value 10_state.md R42 gives it. -/
structure IsReset (t : State) : Prop where
  lc : t.lc = .idle
  latch : t.fcode = .noFault ∧ t.fslot = 0#4
  nstg : t.nstg = 0
  pending : t.pend = (
    { fs := posZero, rffs := posZero, dev := posZero, baud := posZero, thr := posZero, lg := posZero, fc := posZero } :
      Tunables)
  active : t.actv = (
    { fs := posZero, rffs := posZero, dev := posZero, baud := posZero, thr := posZero, lg := posZero, fc := posZero } :
      Tunables)
  slotCount : t.slots.length = t.par.nslot
  slots : ∀ x ∈ t.slots, SlotCleared t.par emptyCfg x
  ringCount : t.rings.length = t.par.nslot + 1
  rings : ∀ r ∈ t.rings, r.queue = [] ∧ r.cplx = false

/-- What the two states share when only `LC`, the latch, slots, rings, `NSTG`, the tunables and the response port
may differ: the parameters, the other ports and the schedule. -/
def SameSurroundings (s t : State) : Prop :=
  t.par = s.par ∧ t.cmdIn = s.cmdIn ∧ t.srcIn = s.srcIn ∧ t.snkOut = s.snkOut ∧ t.plan = s.plan ∧ t.turn = s.turn

/-- `adopt()` on one tap memory (40_commands.md R127): a dirty pending bank becomes the active one. -/
def AdoptedTaps (before after : TapMem) : Prop :=
  after.bank0 = before.bank0 ∧ after.bank1 = before.bank1 ∧ after.count0 = before.count0 ∧
  after.count1 = before.count1 ∧ after.dirty = false ∧
  after.act = if before.dirty then !before.act else before.act

/-- The derived registers of the slot's kind are those of the tunables `t` (42_squelch.md R202, 43_fmdemod.md R216
and R217, 45_str.md R252 and R253). -/
def DerivedFrom (N : NumRecord) (t : Tunables) (x : Slot) : Prop :=
  match x.cfg.kind with
  | .sql =>
    x.dv.tho = N.exp10 (N.div (N.add t.thr x.cfg.par2) N.ten) ∧
    x.dv.thc = N.exp10 (N.div (N.sub t.thr x.cfg.par2) N.ten)
  | .fmd => x.dv.gain = N.div (if x.cfg.flag then t.rffs else t.fs) (N.mul N.twoPi t.dev)
  | .str =>
    x.dv.p0 = N.div t.fs t.baud ∧ x.dv.rng = N.mul x.cfg.par3 x.dv.p0 ∧
    x.dv.pmin = N.sub x.dv.p0 x.dv.rng ∧ x.dv.pmax = N.add x.dv.p0 x.dv.rng ∧
    (∃ i, N.ceilI x.cfg.par1 = some i ∧ (x.dv.dc.toNat : Int) = max i 0) ∧
    x.dv.w.toNat = x.cfg.nt.toNat + 2 * x.dv.dc.toNat + 1 ∧
    x.dv.cb.toNat + 1 = x.dv.dc.toNat + x.cfg.nt.toNat / 2
  | .none | .fir | .rsp => True

/-- The runtime state of the slot's kind is at its start values (10_state.md R35 to R38, 45_str.md R254). -/
def Started (p : Params) (x : Slot) : Prop :=
  x.rt.done = false ∧
  match x.cfg.kind with
  | .sql => x.rt.pwr = posZero ∧ x.rt.gate = false
  | .fmd => x.rt.prev = { re := posZero, im := posZero }
  | .fir | .rsp => x.rt.hist = List.replicate p.tapmax { re := posZero, im := posZero }
  | .str =>
    x.rt.mu = posZero ∧ x.rt.integ = posZero ∧ x.rt.err = posZero ∧ x.rt.period = x.dv.p0 ∧
    x.rt.skip.toNat + x.dv.cb.toNat = x.dv.w.toNat ∧ x.rt.win = List.replicate p.hlen posZero
  | .none => True

/-! ### Shape of the state -/

/-- The memories of a slot have their sizes and their canonical form (10_state.md R26, R27, R37, R38). -/
structure SlotWf (p : Params) (x : Slot) : Prop where
  bank0 : Mem.Wf x.taps.bank0
  bank1 : Mem.Wf x.taps.bank1
  count0 : x.taps.count0 ≤ p.tapmax
  count1 : x.taps.count1 ≤ p.tapmax
  coeffs : Mem.Wf x.itb.coeffs
  hist : x.rt.hist.length = p.tapmax
  win : x.rt.win.length = p.hlen

/-- The state has its shape: `NSLOT` slots, `NSLOT + 1` rings of at most `RCAP` samples (10_state.md R45
`CNT <= RCAP`), a pipeline no longer than the slots, and a fault latched exactly in `FAULTED` (R21, R22). -/
structure StateWf (s : State) : Prop where
  par : s.par.Ok
  slotCount : s.slots.length = s.par.nslot
  ringCount : s.rings.length = s.par.nslot + 1
  stages : s.nstg ≤ s.par.nslot
  slots : ∀ x ∈ s.slots, SlotWf s.par x
  rings : ∀ r ∈ s.rings, r.queue.length ≤ s.par.rcap
  latch : s.lc = .faulted ↔ s.fcode ≠ .noFault

/-- No ring holds an infinity or a NaN (60_exceptions.md R310). -/
abbrev RingsFinite (s : State) : Prop := ∀ r ∈ s.rings, ∀ x ∈ r.queue, x.finite s.par.record = true

/-- No piece of a slot's runtime state is an infinity or a NaN (10_state.md R45). -/
structure RuntimeFinite (N : NumRecord) (x : Slot) : Prop where
  pwr : N.finite x.rt.pwr = true
  prev : x.rt.prev.finite N = true
  hist : ∀ y ∈ x.rt.hist, y.finite N = true
  mu : N.finite x.rt.mu = true
  period : N.finite x.rt.period = true
  integ : N.finite x.rt.integ = true
  err : N.finite x.rt.err = true
  win : ∀ v ∈ x.rt.win, N.finite v = true

/-! ### The live pipeline -/

/-- The edges of a live pipeline carry one sample type each (41_ring_scheduler.md R171): every slot below
`NSTG` is a stage, ring 0 has the first stage's input type, ring `k+1` the output type of stage `k`, and that
is the input type of stage `k+1`. -/
structure EdgesTyped (s : State) : Prop where
  some : 1 ≤ s.nstg
  staged : ∀ k < s.nstg, (s.slot k).cfg.kind ≠ .none
  first : (s.ring 0).cplx = (s.slot 0).inCplx
  edge : ∀ k < s.nstg, (s.ring (k + 1)).cplx = (s.slot k).outCplx
  joint : ∀ k, k + 1 < s.nstg → (s.slot k).outCplx = (s.slot (k + 1)).inCplx

/-- The derived registers and the configuration of a timing recovery slot as validation leaves them
(45_str.md R251 to R253; 60_exceptions.md R305 checks (a), (c), (g), (h)). -/
structure StrValid (N : NumRecord) (p : Params) (x : Slot) : Prop where
  ntEven : x.cfg.nt.toNat % 2 = 0
  ntRange : 2 ≤ x.cfg.nt.toNat ∧ x.cfg.nt.toNat ≤ p.ntmax
  lognph : x.cfg.lognph.toNat ≤ p.lognphmax
  delta : positive N x.cfg.par1 = true
  deltaTop : (N.ceilI x.cfg.par1).getD 0 ≤ 100
  kp : nonnegative N x.cfg.par2 = true
  dc : x.dv.dc.toNat = dcOf N x.cfg
  w : x.dv.w.toNat = wOf N x.cfg
  cb : x.dv.cb.toNat = cbOf N x.cfg
  wTop : wOf N x.cfg ≤ p.hlen
  p0 : N.finite x.dv.p0 = true ∧ N.le (N.ofInt 2) x.dv.p0 = true
  rng : nonnegative N x.dv.rng = true
  pmin : x.dv.pmin = N.sub x.dv.p0 x.dv.rng
  pmax : x.dv.pmax = N.add x.dv.p0 x.dv.rng
  pminLow : N.le N.one x.dv.pmin = true
  pmaxFinite : N.finite x.dv.pmax = true
  pmaxTop : (N.floorI x.dv.pmax).getD 0 < p.rcap

/-- The loop state of a timing recovery slot that every invocation keeps (10_state.md R45). -/
structure LoopOk (N : NumRecord) (x : Slot) : Prop where
  muFinite : N.finite x.rt.mu = true
  muLow : N.le posZero x.rt.mu = true
  muHigh : N.lt x.rt.mu N.one = true
  integ : N.finite x.rt.integ = true
  skip : 1 ≤ x.rt.skip.toNat

/-- The active tunables that a slot of this configuration reads (42_squelch.md R202, 43_fmdemod.md R216 and R217,
45_str.md R252 and R262). -/
def tunablesRead (t : Tunables) (c : SlotCfg) : List F :=
  match c.kind with
  | .sql => [t.thr]
  | .fmd => [if c.flag then t.rffs else t.fs, t.dev]
  | .str => [t.fs, t.baud, t.lg]
  | .none | .fir | .rsp => []

/-- What holds while `LC` is `RUNNING` or `STOPPING`: the edges are typed, every timing recovery stage is as
validation and its own invocations leave it, the rate factors are positive, the active tunables that a configured
stage reads and the active taps of the filters are finite, and stages are done in order from source to sink
(41_ring_scheduler.md R171, R184; 10_state.md R45; 60_exceptions.md R305). -/
structure LivePipeline (s : State) : Prop where
  edges : EdgesTyped s
  str : ∀ k < s.nstg, (s.slot k).cfg.kind = .str → StrValid s.par.record s.par (s.slot k) ∧ LoopOk s.par.record (s.slot k)
  gain : ∀ k < s.nstg, (s.slot k).cfg.kind = .str → nonnegative s.par.record s.actv.lg = true
  rates : ∀ k < s.nstg, (s.slot k).cfg.kind = .fir ∨ (s.slot k).cfg.kind = .rsp →
    1 ≤ (s.slot k).cfg.l.toNat ∧ 1 ≤ (s.slot k).cfg.m.toNat
  tunables : ∀ k < s.nstg, ∀ v ∈ tunablesRead s.actv (s.slot k).cfg, s.par.record.finite v = true
  taps : ∀ k < s.nstg, (s.slot k).cfg.kind = .fir ∨ (s.slot k).cfg.kind = .rsp →
    ∀ v ∈ (s.slot k).taps.vector (s.slot k).taps.act, s.par.record.finite v = true
  doneInOrder : ∀ k, k + 1 < s.nstg → (s.slot (k + 1)).rt.done = true → (s.slot k).rt.done = true

/-! ### Closed forms -/

/-- The powers that a squelch slot computes over a run of samples, each from the one before (42_squelch.md R203). -/
def powers (N : NumRecord) (alpha : F) : F → List Sample → List F
  | _, [] => []
  | q, x :: xs => smoothed N alpha q x :: powers N alpha (smoothed N alpha q x) xs

/-- A run of squelch invocations: the outputs and the slot after them, none where one raises a fault. -/
def squelchRun (N : NumRecord) (k : Slot) : List Sample → Option (List Sample × Slot)
  | [] => some ([], k)
  | x :: xs =>
    match invokeSql N k x with
    | .emit out rt =>
      match squelchRun N { k with rt := rt } xs with
      | some (outs, k') => some (out ++ outs, k')
      | none => none
    | .raise => none
    | .stuck _ => none

/-- The overflow bound of binary64 in units of `2^-1074`: the greatest finite value and half a unit in its last
place, from which on roundTiesToEven gives an infinity (00_scope.md R8). -/
def NUM.overflowUnits : Nat := (2 ^ 54 - 1) * 2 ^ 2044

end Sys2Proof.Machine
end

