-- ==== Sys2Proof/Certificates/Slice0/Obligations.lean ====
section
/-! DEFINITION. The statements for the provers. Each docstring names the rule it formalises. -/

open Sys2Proof Sys2Proof.Machine

/-! ### The command stream -/

/-- Decode and encode agree on every well-formed command, with every operand at every value its field admits,
whatever follows the packet (30_encoding.md R90 to R97). -/
def Obligations.DecodeOfEncode : Prop :=
  ∀ (i : Instr) (rest : List Word), i.wellFormed = true → decode (encode i ++ rest) = .instr i rest

/-- Every packet the decoder accepts is the encoding of the command it reads, so no two words of a packet stand
for one command (30_encoding.md R90 to R97). -/
def Obligations.EncodeOfDecode : Prop :=
  ∀ (ws rest : List Word) (i : Instr), decode ws = .instr i rest → i.wellFormed = true ∧ encode i ++ rest = ws

/-- Example words of 40_commands.md R122, R131 to R135, R142, R156 and R160 decode to the commands they are given
for. -/
def Obligations.ExampleWordsDecode : Prop :=
  decode [0x02000000#32] = .instr .start [] ∧
  decode [0x11000000#32, 0x00000000#32, 0x3FE00000#32, 0x00000000#32, 0x00000000#32] =
    .instr (.cfgSql 0#4 0x3FE0000000000000#64 0#64) [] ∧
  decode [0x12100000#32] = .instr (.cfgFmd 1#4 false) [] ∧
  decode [0x13200000#32, 0x00010002#32] = .instr (.cfgFir 2#4 false 1#16 2#16) [] ∧
  decode [0x14000100#32, 0x00030002#32, 0x9999999A#32, 0x3FD99999#32] =
    .instr (.cfgRsp 0#4 true 3#16 2#16 0x3FD999999999999A#64) [] ∧
  decode [0x15400708#32, 0x00000000#32, 0x3FE00000#32, 0x00000000#32, 0x3FC00000#32, 0x00000000#32, 0x3FD00000#32] =
    .instr (.cfgStr 4#4 7#4 8#5 0x3FE0000000000000#64 0x3FC0000000000000#64 0x3FD0000000000000#64) [] ∧
  decode [0x21000201#32, 0x00000000#32, 0xBFB00000#32] = .instr (.lditb 0#4 2#12 [0xBFB0000000000000#64]) [] ∧
  decode [0x36000000#32, 0x80000000#32, 0x41BA956B#32] = .instr (.setFc 0x41BA956B80000000#64) [] ∧
  decode [0x40000100#32] = .instr (.rdcsr 1#12) []

/-- A header with a reserved opcode is a packet of one word: it changes nothing and is answered `ERR_OPCODE` with
the opcode (30_encoding.md R96). -/
def Obligations.ReservedOpcodeAnswered : Prop :=
  ∀ (s : State) (h : Word) (tail : List Word),
    let o := (h.extractLsb' 24 8).toNat
    s.nextAgent = .hostCmd → s.cmdIn = h :: tail →
    ((0x06 ≤ o ∧ o ≤ 0x0F) ∨ (0x16 ≤ o ∧ o ≤ 0x1F) ∨ (0x22 ≤ o ∧ o ≤ 0x2F) ∨ (0x37 ≤ o ∧ o ≤ 0x3F) ∨ 0x41 ≤ o) →
    step s = .next ({ s.advancePlan with cmdIn := tail }.answers [BitVec.ofNat 32 (0x01000000 + o)])

/-- A header with a must-be-zero bit set is answered `ERR_FIELD` once its payload is consumed, and changes nothing
(30_encoding.md R97; R94 steps 2 and 3). That this takes in a `WAIT` header while `LC` is `RUNNING` or `STOPPING`, where
40_commands.md R124 enables no step for a `WAIT` packet, is the model's choice (log 22). -/
def Obligations.MustBeZeroRefused : Prop :=
  ∀ (s : State) (h mask : Word) (tail : List Word),
    let o := (h.extractLsb' 24 8).toNat
    s.nextAgent = .hostCmd → s.cmdIn = h :: tail → plen h ≤ tail.length →
    (((o ≤ 0x05 ∨ (0x30 ≤ o ∧ o ≤ 0x36)) ∧ mask = 0x00FFFFFF#32) ∨ ((o = 0x10 ∨ o = 0x11) ∧ mask = 0x000FFFFF#32) ∨
      ((o = 0x12 ∨ o = 0x13 ∨ o = 0x14) ∧ mask = 0x000FFEFF#32) ∨ (o = 0x15 ∧ mask = 0x000FF0E0#32) ∨
      (o = 0x20 ∧ mask = 0x000000FF#32) ∨ (o = 0x40 ∧ mask = 0x00F000FF#32)) →
    h &&& mask ≠ 0#32 →
    step s = .next ({ s.advancePlan with cmdIn := tail.drop (plen h) }.answers [0x02000000#32])

/-- A step runs the decoded command: when the command agent moves and a packet is whole at the port, `step` is
`exec` of that command in the state in which the packet has been consumed and the schedule has moved on. -/
def Obligations.StepRunsDecodedCommand : Prop :=
  ∀ (s : State) (i : Instr) (rest : List Word),
    s.nextAgent = .hostCmd → decode s.cmdIn = .instr i rest → step s = exec i { s.advancePlan with cmdIn := rest }

/-! ### Refused commands -/

/-- `ERR_SLOT` comes first, in every lifecycle state; `ERR_KIND` comes after the lifecycle check and before the
ranges are looked at. Neither changes anything (30_encoding.md R94 steps 4 and 6, R99). -/
def Obligations.SlotAndKindRefused : Prop :=
  ∀ (s : State) (k : BitVec 4),
    (s.par.nslot ≤ k.toNat → ∀ i : Instr, slotOperand i = some k → exec i s = .next (s.answers [0x03000000#32])) ∧
    (k.toNat < s.par.nslot → s.lc ≠ .faulted → (s.slot k.toNat).cfg.kind ≠ .fir → (s.slot k.toNat).cfg.kind ≠ .rsp →
      ∀ taps : List F, exec (.ldtap k taps) s = .next (s.answers [0x06000000#32])) ∧
    (k.toNat < s.par.nslot → s.lc = .idle ∨ s.lc = .halted → (s.slot k.toNat).cfg.kind ≠ .str →
      ∀ (row : BitVec 12) (coeffs : List F), exec (.lditb k row coeffs) s = .next (s.answers [0x06000000#32]))

/-- A command met in a lifecycle state in which it is not legal is answered `ERR_STATE` and changes nothing
(40_commands.md R120; 30_encoding.md R94 step 5). -/
def Obligations.IllegalStateRefused : Prop :=
  ∀ s : State,
    (s.lc = .running ∨ s.lc = .stopping ∨ s.lc = .faulted → exec .start s = .next (s.answers [0x04000000#32])) ∧
    (s.lc = .idle ∨ s.lc = .halted ∨ s.lc = .faulted → exec .commit s = .next (s.answers [0x04000000#32])) ∧
    (s.lc = .running ∨ s.lc = .stopping ∨ s.lc = .faulted → ∀ (i : Instr) (k : BitVec 4), slotOperand i = some k →
      k.toNat < s.par.nslot → (∀ taps, i ≠ .ldtap k taps) → exec i s = .next (s.answers [0x04000000#32])) ∧
    (s.lc = .faulted → ∀ (k : BitVec 4) (taps : List F), k.toNat < s.par.nslot →
      exec (.ldtap k taps) s = .next (s.answers [0x04000000#32])) ∧
    (s.lc = .faulted → ∀ v : F, ∀ i ∈ [Instr.setFs v, .setRffs v, .setDev v, .setBaud v, .setThr v, .setLg v, .setFc v],
      exec i s = .next (s.answers [0x04000000#32]))

/-- An index outside a space is refused by the command that carries it and changes nothing (20_memory.md R67). -/
def Obligations.OutOfRangeRefused : Prop :=
  ∀ s : State,
    (∀ (k : BitVec 4) (taps : List F), k.toNat < s.par.nslot → s.lc ≠ .faulted →
      (s.slot k.toNat).cfg.kind = .fir ∨ (s.slot k.toNat).cfg.kind = .rsp → s.par.tapmax < taps.length →
      exec (.ldtap k taps) s = .next (s.answers [0x02000000#32])) ∧
    (∀ (k : BitVec 4) (row : BitVec 12) (coeffs : List F), k.toNat < s.par.nslot → s.lc = .idle ∨ s.lc = .halted →
      (s.slot k.toNat).cfg.kind = .str →
      coeffs.length ≠ (s.slot k.toNat).cfg.nt.toNat ∨ s.par.ntmax < coeffs.length ∨
        s.par.lognphmax < (s.slot k.toNat).cfg.lognph.toNat ∨ 2 ^ (s.slot k.toNat).cfg.lognph.toNat < row.toNat →
      exec (.lditb k row coeffs) s = .next (s.answers [0x02000000#32])) ∧
    (∀ n : BitVec 12, s.csr n = none → exec (.rdcsr n) s = .next (s.answers [BitVec.ofNat 32 (0x05000000 + n.toNat)]))

/-! ### The lifecycle commands -/

/-- `NOP` and `STOP` in every state: `STOP` makes `RUNNING` into `STOPPING`, and nothing else changes
(40_commands.md R126, R123). -/
def Obligations.NopAndStop : Prop :=
  ∀ s : State,
    exec .nop s = .next (s.answers [0x00000000#32]) ∧
    (s.lc = .running → exec .stop s = .next ({ s with lc := .stopping }.answers [0x00000000#32])) ∧
    (s.lc ≠ .running → exec .stop s = .next (s.answers [0x00000000#32]))

/-- `RESET` in every state leaves every register at its reset value (10_state.md R42, 40_commands.md R121); the
parameters, the other ports and the schedule are not state of the engine and stay (R44, log 3). -/
def Obligations.ResetCommandResets : Prop :=
  ∀ s : State, ∃ t, exec .reset s = .next t ∧ IsReset t ∧ SameSurroundings s t ∧ t.resp = s.resp ++ [0x00000000#32]

/-- After power-on every register is at its reset value (70_reset_and_hazards.md R341, 10_state.md R42). The rest is
the model's choice: the ports are lists, which then hold no begun packet, no response and no delivered byte (R341;
log 3), and the parameters, which are inputs (R44), are the defaults of 00_scope.md R6 (log 4). -/
def Obligations.PowerOnState : Prop :=
  IsReset State.reset ∧ State.reset.cmdIn = [] ∧ State.reset.resp = [] ∧ State.reset.snkOut = [] ∧
  State.reset.par =
    { nslot := 8, rcap := 4096, tapmax := 1024, hlen := 64, ntmax := 16, lognphmax := 10, num := .binary64,
      idValue := 0x5253545200000001#64 }

/-- `WAIT` where it is enabled answers the lifecycle state and the latch and writes nothing (40_commands.md R124,
30_encoding.md R98). -/
def Obligations.WaitAnswers : Prop :=
  ∀ s : State, s.lc = .idle ∨ s.lc = .halted ∨ s.lc = .faulted →
    exec .wait s = .next (s.answers [BitVec.ofNat 32 (s.lc.code + s.fcode.code * 0x100 + s.fslot.toNat * 0x10000)])

/-- A `WAIT` in `RUNNING` or `STOPPING` holds the command port: its packet stays in front and nothing but the
schedule moves (40_commands.md R124; that the packet stays at the port is log 14). -/
def Obligations.WaitHoldsThePort : Prop :=
  ∀ (s : State) (rest : List Word), s.nextAgent = .hostCmd → s.lc = .running ∨ s.lc = .stopping →
    s.cmdIn = 0x04000000#32 :: rest → step s = .next s.advancePlan

/-- A `START` whose candidate passes validation (40_commands.md R122, R127, R128; 10_state.md R43). That the slots
from `n` up keep their derived registers and their runtime state, `DONE` and `GATE` included, is the model's choice
where R122 and R43 differ (log 16, DEDUCED). -/
def Obligations.StartSucceeds : Prop :=
  ∀ (s : State) (z : BitVec 4), StateWf s → s.lc = .idle ∨ s.lc = .halted →
    validate s.par s.pend s.slots (leading s.slots) = (.noFault, z) →
    let n := leading s.slots
    ∃ t, exec .start s = .next t ∧ SameSurroundings s t ∧ t.resp = s.resp ++ [BitVec.ofNat 32 n] ∧
      t.lc = .running ∧ t.fcode = s.fcode ∧ t.fslot = s.fslot ∧ t.nstg = n ∧ t.pend = s.pend ∧ t.actv = s.pend ∧
      t.slots.length = s.slots.length ∧ t.rings.length = s.rings.length ∧
      (∀ k < s.par.nslot, (t.slot k).cfg = (s.slot k).cfg ∧ (t.slot k).itb = (s.slot k).itb ∧
        AdoptedTaps (s.slot k).taps (t.slot k).taps) ∧
      (∀ k < n, DerivedFrom s.par.record s.pend (t.slot k) ∧ Started s.par (t.slot k)) ∧
      (∀ k < s.par.nslot, n ≤ k → (t.slot k).dv = (s.slot k).dv ∧ (t.slot k).rt = (s.slot k).rt) ∧
      (∀ e ≤ s.par.nslot, (t.ring e).queue = []) ∧ (t.ring 0).cplx = (s.slot 0).inCplx ∧
      (∀ k < n, (t.ring (k + 1)).cplx = (s.slot k).outCplx)

/-- A `START` or `COMMIT` whose candidate fails validation: the fault is latched and answered, nothing is adopted
(60_exceptions.md R307, R320; 40_commands.md R122, R125). -/
def Obligations.CandidateRejected : Prop :=
  ∀ (s : State) (c : FaultCode) (k : BitVec 4), c ≠ .noFault →
    let t := { s with lc := .faulted, fcode := c, fslot := k }.answers
      [BitVec.ofNat 32 (0x10000000 + c.code + k.toNat * 0x100)]
    (s.lc = .idle ∨ s.lc = .halted → validate s.par s.pend s.slots (leading s.slots) = (c, k) →
      exec .start s = .next t) ∧
    (s.lc = .running ∨ s.lc = .stopping → validate s.par s.pend s.slots s.nstg = (c, k) → exec .commit s = .next t)

/-- A `COMMIT` whose candidate passes validation adopts everything pending and derives again; no runtime state, no
ring and no other register changes (40_commands.md R125, R127, R128). -/
def Obligations.CommitSucceeds : Prop :=
  ∀ (s : State) (z : BitVec 4), StateWf s → s.lc = .running ∨ s.lc = .stopping →
    validate s.par s.pend s.slots s.nstg = (.noFault, z) →
    ∃ t, exec .commit s = .next t ∧ SameSurroundings s t ∧ t.resp = s.resp ++ [0x00000000#32] ∧
      t.lc = s.lc ∧ t.fcode = s.fcode ∧ t.fslot = s.fslot ∧ t.nstg = s.nstg ∧ t.pend = s.pend ∧ t.actv = s.pend ∧
      t.slots.length = s.slots.length ∧ t.rings = s.rings ∧
      (∀ k < s.par.nslot, (t.slot k).cfg = (s.slot k).cfg ∧ (t.slot k).itb = (s.slot k).itb ∧
        (t.slot k).rt = (s.slot k).rt ∧ AdoptedTaps (s.slot k).taps (t.slot k).taps) ∧
      (∀ k < s.nstg, DerivedFrom s.par.record s.pend (t.slot k)) ∧
      (∀ k < s.par.nslot, s.nstg ≤ k → (t.slot k).dv = (s.slot k).dv)

/-- Validation finds the first defect: no stage, then a configured slot behind the pipeline, then a type clash, then
the first slot with a failing check, and nothing otherwise (60_exceptions.md R305, steps 1 to 5). -/
def Obligations.ValidationFindsFirstDefect : Prop :=
  ∀ (p : Params) (t : Tunables) (slots : List Slot) (n : Nat), n ≤ slots.length →
    let x := fun k : Nat => slots.getD k (Slot.reset p)
    let gap := fun k : Nat => n ≤ k ∧ k < slots.length ∧ (x k).cfg.kind ≠ .none
    let clash := fun k : Nat => 1 ≤ k ∧ k < n ∧ (x k).inCplx ≠ (x (k - 1)).outCplx
    let defect := fun (k : Nat) (c : FaultCode) => k < n ∧ firstBad (slotChecks p t (x k)) = c ∧ c ≠ .noFault
    (n = 0 → validate p t slots n = (.cfgEmpty, 0xF#4)) ∧
    (∀ k, 0 < n → gap k → (∀ j < k, ¬gap j) → validate p t slots n = (.cfgGap, BitVec.ofNat 4 k)) ∧
    (∀ k, 0 < n → (∀ j, ¬gap j) → clash k → (∀ j < k, ¬clash j) →
      validate p t slots n = (.cfgType, BitVec.ofNat 4 k)) ∧
    (∀ k c, 0 < n → (∀ j, ¬gap j) → (∀ j, ¬clash j) → defect k c → (∀ j < k, ∀ d, ¬defect j d) →
      validate p t slots n = (c, BitVec.ofNat 4 k)) ∧
    (0 < n → (∀ j, ¬gap j) → (∀ j, ¬clash j) → (∀ j d, ¬defect j d) → validate p t slots n = (.noFault, 0#4))

/-- The checks of one slot in the order written, each kind's first failing one deciding (60_exceptions.md R305,
"Checks per kind"). -/
def Obligations.ChecksPerKind : Prop :=
  ∀ (p : Params) (t : Tunables) (x : Slot),
    let N := p.record
    let c := x.cfg
    let code := firstBad (slotChecks p t x)
    let ok := N.finite
    let taps := x.taps.vector (if x.taps.dirty then !x.taps.act else x.taps.act)
    let tapsBad := ¬(1 ≤ taps.length ∧ ∀ v ∈ taps, ok v = true)
    let ringBad := ¬(c.l.toNat ≤ p.rcap ∧ c.m.toNat ≤ p.rcap)
    let pos := fun v => ok v = true ∧ N.lt posZero v = true
    let nonneg := fun v => ok v = true ∧ N.le posZero v = true
    let rate := if c.flag then t.rffs else t.fs
    (c.kind = .none → code = .noFault) ∧
    (c.kind = .sql → code =
      if pos c.par1 ∧ N.le c.par1 N.one = true ∧ nonneg c.par2 ∧ ok t.thr = true ∧
        ok (thoOf N t.thr c.par2) = true ∧ ok (thcOf N t.thr c.par2) = true then .noFault else .cfgSql) ∧
    (c.kind = .fmd → code =
      if ¬pos rate then .cfgRate else if ¬pos t.dev ∨ ¬pos (gainOf N rate t.dev) then .cfgDev else .noFault) ∧
    (c.kind = .fir → code =
      if ¬(1 ≤ c.l.toNat ∧ 1 ≤ c.m.toNat ∧ (c.l = 1#16 ∨ c.m = 1#16)) then .cfgFactor
      else if tapsBad then .cfgTaps else if ringBad then .cfgRing else .noFault) ∧
    (c.kind = .rsp → code =
      if ¬(1 ≤ c.l.toNat ∧ 1 ≤ c.m.toNat) then .cfgFactor
      else if tapsBad then .cfgTaps else if ringBad then .cfgRing else .noFault) ∧
    (c.kind = .str → code =
      if ¬(c.nt.toNat % 2 = 0 ∧ 2 ≤ c.nt.toNat ∧ c.nt.toNat ≤ p.ntmax ∧ c.lognph.toNat ≤ p.lognphmax ∧ pos c.par1 ∧
          (∀ i, N.ceilI c.par1 = some i → i ≤ 100) ∧ nonneg c.par3 ∧ N.lt c.par3 N.one = true) then .cfgStrParam
      else if ¬nonneg c.par2 then .cfgGain
      else if ¬(wOf N c ≤ p.hlen) then .cfgStrHist
      else if ¬(∀ r ≤ 2 ^ c.lognph.toNat, x.itb.valid.getLsbD r = true ∧
          ∀ j < c.nt.toNat, ok (Mem.read x.itb.coeffs (r * p.ntmax + j)) = true) then .cfgStrItb
      else if ¬(pos t.fs ∧ pos t.baud) then .cfgRate
      else if ¬nonneg t.lg then .cfgGain
      else if ¬(ok (p0Of N t) = true ∧ N.le (N.ofInt 2) (p0Of N t) = true ∧ ok (pmaxOf N t c) = true ∧
          N.le N.one (pminOf N t c) = true) then .cfgStrParam
      else if ¬(wOf N c - cbOf N c ≤ p.rcap ∧ ∀ i, N.floorI (pmaxOf N t c) = some i → i + 1 ≤ p.rcap) then .cfgRing
      else .noFault)

/-! ### Configuration, load and tunable commands -/

/-- Every `CFG.*` command in `IDLE` or `HALTED` gives the slot its reset values and then its configuration, the
payload stored as given, and changes nothing else (40_commands.md R129 to R135). -/
def Obligations.ConfigureSlot : Prop :=
  ∀ (s : State) (k : BitVec 4), s.lc = .idle ∨ s.lc = .halted → k.toNat < s.par.nslot →
    let does := fun (i : Instr) (c : SlotCfg) =>
      ∃ x, SlotCleared s.par c x ∧ exec i s = .next ((s.setSlot k.toNat x).answers [0x00000000#32])
    does (.cfgNone k) emptyCfg ∧
    (∀ alpha hyst, does (.cfgSql k alpha hyst) { emptyCfg with kind := .sql, par1 := alpha, par2 := hyst }) ∧
    (∀ rsel, does (.cfgFmd k rsel) { emptyCfg with kind := .fmd, flag := rsel }) ∧
    (∀ cplx l m, does (.cfgFir k cplx l m) { emptyCfg with kind := .fir, flag := cplx, l := l, m := m }) ∧
    (∀ cplx l m fbw, does (.cfgRsp k cplx l m fbw)
      { emptyCfg with kind := .rsp, flag := cplx, l := l, m := m, par1 := fbw }) ∧
    (∀ lognph nt delta kp plim, does (.cfgStr k lognph nt delta kp plim)
      { emptyCfg with kind := .str, lognph := lognph, nt := nt, par1 := delta, par2 := kp, par3 := plim })

/-- `LDTAP` loads the pending bank, its count and `DIRTY`, and nothing else: the active bank, `ACT`, the entries
beyond the count and every other register stay (40_commands.md R141). -/
def Obligations.LoadTaps : Prop :=
  ∀ (s : State) (k : BitVec 4) (taps : List F), StateWf s → s.lc ≠ .faulted → k.toNat < s.par.nslot →
    (s.slot k.toNat).cfg.kind = .fir ∨ (s.slot k.toNat).cfg.kind = .rsp → taps.length ≤ s.par.tapmax →
    let old := (s.slot k.toNat).taps
    ∃ new : TapMem,
      exec (.ldtap k taps) s =
        .next ((s.setSlot k.toNat { s.slot k.toNat with taps := new }).answers [0x00000000#32]) ∧
      new.act = old.act ∧ new.dirty = true ∧
      new.bank old.act = old.bank old.act ∧ new.count old.act = old.count old.act ∧
      new.count (!old.act) = taps.length ∧ new.vector (!old.act) = taps ∧
      (∀ j, taps.length ≤ j → Mem.read (new.bank (!old.act)) j = Mem.read (old.bank (!old.act)) j)

/-- `LDITB` writes one row of the table and its valid bit, and nothing else (40_commands.md R142). -/
def Obligations.LoadTableRow : Prop :=
  ∀ (s : State) (k : BitVec 4) (row : BitVec 12) (coeffs : List F), StateWf s → s.lc = .idle ∨ s.lc = .halted →
    k.toNat < s.par.nslot → (s.slot k.toNat).cfg.kind = .str →
    coeffs.length = (s.slot k.toNat).cfg.nt.toNat → coeffs.length ≤ s.par.ntmax →
    (s.slot k.toNat).cfg.lognph.toNat ≤ s.par.lognphmax → row.toNat ≤ 2 ^ (s.slot k.toNat).cfg.lognph.toNat →
    let old := (s.slot k.toNat).itb
    ∃ new : InterpTable,
      exec (.lditb k row coeffs) s =
        .next ((s.setSlot k.toNat { s.slot k.toNat with itb := new }).answers [0x00000000#32]) ∧
      (∀ r, new.valid.getLsbD r = (decide (r = row.toNat) || old.valid.getLsbD r)) ∧
      (∀ (j : Nat) (h : j < coeffs.length), Mem.read new.coeffs (row.toNat * s.par.ntmax + j) = coeffs[j]) ∧
      (∀ a, a < row.toNat * s.par.ntmax ∨ row.toNat * s.par.ntmax + coeffs.length ≤ a →
        Mem.read new.coeffs a = Mem.read old.coeffs a)

/-- The seven tunable commands write one pending copy each, whatever the value, and nothing else
(40_commands.md R150 to R156). -/
def Obligations.SetTunable : Prop :=
  ∀ (s : State) (v : F), s.lc ≠ .faulted →
    exec (.setFs v) s = .next ({ s with pend := { s.pend with fs := v } }.answers [0x00000000#32]) ∧
    exec (.setRffs v) s = .next ({ s with pend := { s.pend with rffs := v } }.answers [0x00000000#32]) ∧
    exec (.setDev v) s = .next ({ s with pend := { s.pend with dev := v } }.answers [0x00000000#32]) ∧
    exec (.setBaud v) s = .next ({ s with pend := { s.pend with baud := v } }.answers [0x00000000#32]) ∧
    exec (.setThr v) s = .next ({ s with pend := { s.pend with thr := v } }.answers [0x00000000#32]) ∧
    exec (.setLg v) s = .next ({ s with pend := { s.pend with lg := v } }.answers [0x00000000#32]) ∧
    exec (.setFc v) s = .next ({ s with pend := { s.pend with fc := v } }.answers [0x00000000#32])

/-! ### Observation -/

/-- `RDCSR` of a register answers its value, low word first, in every lifecycle state, and writes nothing
(40_commands.md R160, 30_encoding.md R98). -/
def Obligations.ReadRegister : Prop :=
  ∀ (s : State) (n : BitVec 12) (v : BitVec 64), s.csr n = some v →
    exec (.rdcsr n) s = .next (s.answers [0x00000000#32, v.extractLsb' 0 32, v.extractLsb' 32 32])

/-- Which numbers are registers (10_state.md R33). -/
def Obligations.RegisterNumbers : Prop :=
  ∀ (s : State) (n : BitVec 12), s.par.Ok →
    ((s.csr n).isSome = true ↔
      n.toNat ≤ 0x002 ∨ (0x010 ≤ n.toNat ∧ n.toNat ≤ 0x01D) ∨
      (∃ k < s.par.nslot, ∃ j < 0xF, n.toNat = 0x100 + 0x10 * k + j) ∨ (∃ e ≤ s.par.nslot, n.toNat = 0x200 + e))

/-- The registers outside the slots, and the fields of `STATUS` (10_state.md R31 to R34). -/
def Obligations.GlobalRegisters : Prop :=
  ∀ s : State, StateWf s →
    s.csr 0x000#12 = some s.par.idValue ∧ s.csr 0x001#12 = some s.status ∧
    (∃ v, s.csr 0x002#12 = some v ∧ field v 0 4 = s.nstg ∧ field v 4 60 = 0) ∧
    s.csr 0x010#12 = some s.pend.fs ∧ s.csr 0x011#12 = some s.actv.fs ∧
    s.csr 0x012#12 = some s.pend.rffs ∧ s.csr 0x013#12 = some s.actv.rffs ∧
    s.csr 0x014#12 = some s.pend.dev ∧ s.csr 0x015#12 = some s.actv.dev ∧
    s.csr 0x016#12 = some s.pend.baud ∧ s.csr 0x017#12 = some s.actv.baud ∧
    s.csr 0x018#12 = some s.pend.thr ∧ s.csr 0x019#12 = some s.actv.thr ∧
    s.csr 0x01A#12 = some s.pend.lg ∧ s.csr 0x01B#12 = some s.actv.lg ∧
    s.csr 0x01C#12 = some s.pend.fc ∧ s.csr 0x01D#12 = some s.actv.fc ∧
    (∀ e ≤ s.par.nslot, ∃ v, s.csr (BitVec.ofNat 12 (0x200 + e)) = some v ∧
      field v 0 16 = (s.ring e).queue.length ∧ v.getLsbD 16 = (s.ring e).cplx ∧ field v 17 47 = 0) ∧
    field s.status 0 3 = s.lc.code ∧ field s.status 3 5 = 0 ∧
    (∀ k < s.par.nslot, s.status.getLsbD (8 + k) = (s.slot k).rt.done ∧
      s.status.getLsbD (16 + k) = (decide ((s.slot k).cfg.kind = .sql) && (s.slot k).rt.gate)) ∧
    (∀ k < 8, s.par.nslot ≤ k → s.status.getLsbD (8 + k) = false ∧ s.status.getLsbD (16 + k) = false) ∧
    field s.status 24 8 = s.fcode.code ∧ field s.status 32 4 = s.fslot.toNat ∧ field s.status 36 28 = 0

/-- The registers of a slot, kind by kind (10_state.md R33). -/
def Obligations.SlotRegisters : Prop :=
  ∀ (s : State) (k : Nat), StateWf s → k < s.par.nslot →
    let x := s.slot k
    let reg := fun j : Nat => s.csr (BitVec.ofNat 12 (0x100 + 0x10 * k + j))
    (∃ v, reg 0x0 = some v ∧ field v 0 3 = x.cfg.kind.code ∧ v.getLsbD 3 = x.cfg.flag ∧
      field v 4 5 = x.cfg.nt.toNat ∧ field v 9 4 = x.cfg.lognph.toNat ∧ field v 13 3 = 0 ∧
      field v 16 16 = x.cfg.m.toNat ∧ field v 32 16 = x.cfg.l.toNat ∧ field v 48 16 = 0) ∧
    reg 0x1 = some x.cfg.par1 ∧ reg 0x2 = some x.cfg.par2 ∧ reg 0x3 = some x.cfg.par3 ∧
    (∃ v, reg 0x4 = some v ∧ field v 0 12 = x.taps.count x.taps.act ∧ field v 12 4 = 0 ∧
      field v 16 12 = x.taps.count (!x.taps.act) ∧ field v 28 4 = 0 ∧ v.getLsbD 32 = x.taps.act ∧
      v.getLsbD 33 = x.taps.dirty ∧ field v 34 30 = 0) ∧
    (x.cfg.kind = .sql → reg 0x5 = some x.rt.pwr ∧
      reg 0x6 = some (if x.rt.gate then 1#64 else 0#64) ∧ reg 0xA = some x.dv.tho ∧ reg 0xB = some x.dv.thc) ∧
    (x.cfg.kind = .fmd → reg 0x5 = some x.rt.prev.re ∧ reg 0x6 = some x.rt.prev.im ∧ reg 0xA = some x.dv.gain ∧
      reg 0xB = some 0#64) ∧
    (x.cfg.kind = .str → reg 0x5 = some x.rt.mu ∧ reg 0x6 = some x.rt.period ∧ reg 0x7 = some x.rt.integ ∧
      reg 0x8 = some x.rt.err ∧ reg 0x9 = some (x.rt.skip.setWidth 64) ∧ reg 0xA = some x.dv.p0 ∧
      reg 0xB = some x.dv.rng ∧ reg 0xC = some x.dv.pmin ∧ reg 0xD = some x.dv.pmax ∧
      ∃ v, reg 0xE = some v ∧ field v 0 8 = x.dv.dc.toNat ∧ field v 8 8 = x.dv.w.toNat ∧
        field v 16 8 = x.dv.cb.toNat ∧ field v 24 40 = 0) ∧
    (x.cfg.kind ≠ .sql ∧ x.cfg.kind ≠ .fmd ∧ x.cfg.kind ≠ .str →
      ∀ j ∈ [0x5, 0x6, 0xA, 0xB], reg j = some 0#64) ∧
    (x.cfg.kind ≠ .str → ∀ j ∈ [0x7, 0x8, 0x9, 0xC, 0xD, 0xE], reg j = some 0#64)

/-- Every command at the port is answered by one response packet, and no other agent writes a response
(30_encoding.md R90, R98); a `WAIT` that holds the port is not answered yet. -/
def Obligations.OneResponsePerCommand : Prop :=
  ∀ s t : State, step s = .next t →
    (s.nextAgent ≠ .hostCmd → t.resp = s.resp) ∧
    (∀ i, Executes s i → ¬(i = .wait ∧ (s.lc = .running ∨ s.lc = .stopping)) →
      (∃ w, t.resp = s.resp ++ [w]) ∨ ∃ n v, i = .rdcsr n ∧ s.csr n = some v ∧
        t.resp = s.resp ++ [0x00000000#32, v.extractLsb' 0 32, v.extractLsb' 32 32])

/-! ### Faults and the lifecycle -/

/-- Fault entry: the latch and `LC` are written outside `FAULTED`, and nothing is written in `FAULTED`
(60_exceptions.md R320). -/
def Obligations.FaultEntry : Prop :=
  ∀ (s : State) (c : FaultCode) (k : BitVec 4),
    (s.lc ≠ .faulted → s.raiseFault c k = { s with lc := .faulted, fcode := c, fslot := k }) ∧
    (s.lc = .faulted → s.raiseFault c k = s)

/-- The first fault stays latched, and only the `RESET` command leaves `FAULTED` (60_exceptions.md R323,
10_state.md R22). -/
def Obligations.OnlyResetLeavesFaulted : Prop :=
  ∀ s t : State, step s = .next t → s.lc = .faulted →
    (t.lc = .faulted ∧ t.fcode = s.fcode ∧ t.fslot = s.fslot) ∨ (Executes s .reset ∧ IsReset t)

/-- The lifecycle transitions are those of the table, and no step makes another (60_exceptions.md R327). -/
def Obligations.LifecycleTransitions : Prop :=
  ∀ s t : State, step s = .next t → t.lc ≠ s.lc →
    (Executes s .reset ∧ t.lc = .idle) ∨
    (Executes s .start ∧ (s.lc = .idle ∨ s.lc = .halted) ∧ (t.lc = .running ∨ t.lc = .faulted)) ∨
    (Executes s .stop ∧ s.lc = .running ∧ t.lc = .stopping) ∨
    (s.nextAgent = .sched ∧ s.lc = .stopping ∧ t.lc = .halted) ∨
    (Executes s .commit ∧ (s.lc = .running ∨ s.lc = .stopping) ∧ t.lc = .faulted) ∨
    (((∃ k, s.nextAgent = .stage k) ∨ s.nextAgent = .hostIo) ∧ (s.lc = .running ∨ s.lc = .stopping) ∧
      t.lc = .faulted) ∨
    (s.nextAgent = .hostSrc ∧ s.lc = .running ∧ t.lc = .faulted) ∨
    (s.nextAgent = .hostSnk ∧ (s.lc = .running ∨ s.lc = .stopping ∨ s.lc = .halted) ∧ t.lc = .faulted)

/-- The I/O-failure event is a fault while the pipeline runs and lost otherwise (60_exceptions.md R316); in
`FAULTED` no stage, no scheduler and no source step does anything: nothing is drained (41_ring_scheduler.md R187). -/
def Obligations.IoFailureAndFatalStop : Prop :=
  ∀ s : State,
    (s.lc = .running ∨ s.lc = .stopping →
      agentStep .hostIo s = .next { s with lc := .faulted, fcode := .ioExternal, fslot := 0xF#4 }) ∧
    (s.lc = .idle ∨ s.lc = .halted ∨ s.lc = .faulted → agentStep .hostIo s = .next s) ∧
    (s.lc = .faulted →
      (∀ k, agentStep (.stage k) s = .next s) ∧ agentStep .sched s = .next s ∧ agentStep .hostSrc s = .next s)

/-! ### The data path -/

/-- A push (41_ring_scheduler.md R176, 20_memory.md R64): one word of a real edge or two of a complex one enter
ring 0 as one sample; a sample that is not finite is a fault and does not enter (that its words stay at the port is
log 17); a closed or full port does nothing. -/
def Obligations.SourcePush : Prop :=
  ∀ s : State,
    let N := s.par.record
    let put := fun (x : Sample) (rest : List F) =>
      { s with srcIn := rest, rings := s.rings.set 0 { s.ring 0 with queue := (s.ring 0).queue ++ [x] } }
    let refused := { s with lc := .faulted, fcode := .ioNonfinite, fslot := 0xF#4 }
    (s.lc = .running → (s.ring 0).queue.length < s.par.rcap →
      (∀ w rest, (s.ring 0).cplx = false → s.srcIn = w :: rest →
        agentStep .hostSrc s = .next (if N.finite w then put { re := w, im := posZero } rest else refused)) ∧
      (∀ w v rest, (s.ring 0).cplx = true → s.srcIn = w :: v :: rest →
        agentStep .hostSrc s =
          .next (if N.finite w = true ∧ N.finite v = true then put { re := w, im := v } rest else refused))) ∧
    (s.lc ≠ .running ∨ s.par.rcap ≤ (s.ring 0).queue.length → agentStep .hostSrc s = .next s)

/-- A pop (41_ring_scheduler.md R177, 20_memory.md R66, 60_exceptions.md R314): the head leaves the last ring and its
binary32 bytes are delivered, least significant first, the real part before the imaginary; a sample that does not
fit is a fault and stays. -/
def Obligations.SinkPop : Prop :=
  ∀ s : State,
    let N := s.par.record
    let bytes := fun b : BitVec 32 => [b.extractLsb' 0 8, b.extractLsb' 8 8, b.extractLsb' 16 8, b.extractLsb' 24 8]
    let fits := fun v : F => NUM.finite32 (N.to32 v) = true
    let taken := fun (q : List Sample) (bs : List Byte) =>
      { s with snkOut := s.snkOut ++ bs, rings := s.rings.set s.nstg { s.ring s.nstg with queue := q } }
    let refused := if s.lc = .faulted then s else { s with lc := .faulted, fcode := .numSink, fslot := 0xF#4 }
    (∀ v q, 1 ≤ s.nstg → s.lc ≠ .idle → (s.ring s.nstg).queue = v :: q →
      ((s.ring s.nstg).cplx = false → fits v.re → agentStep .hostSnk s = .next (taken q (bytes (N.to32 v.re)))) ∧
      ((s.ring s.nstg).cplx = true → fits v.re → fits v.im →
        agentStep .hostSnk s = .next (taken q (bytes (N.to32 v.re) ++ bytes (N.to32 v.im)))) ∧
      (¬fits v.re ∨ ((s.ring s.nstg).cplx = true ∧ ¬fits v.im) → agentStep .hostSnk s = .next refused)) ∧
    (s.nstg = 0 ∨ s.lc = .idle ∨ (s.ring s.nstg).queue = [] → agentStep .hostSnk s = .next s)

/-- An enabled invocation (41_ring_scheduler.md R180, R181): its samples leave the input ring, its outputs join the
output ring, the slot's runtime state is written and nothing else changes; or it raises its fault and nothing but
the latch and `LC` changes. -/
def Obligations.InvocationStep : Prop :=
  ∀ (s : State) (k : Nat),
    let x := s.slot k
    let ins := (s.ring k).queue.take x.need
    k < s.nstg → x.cfg.kind ≠ .none → s.lc = .running ∨ s.lc = .stopping → x.rt.done = false →
    x.need ≤ (s.ring k).queue.length → x.prod ≤ s.par.rcap - (s.ring (k + 1)).queue.length →
    (∀ out rt, invoke s x ins = .emit out rt →
      agentStep (.stage k) s = .next
        { s with
          slots := s.slots.set k { x with rt := rt }
          rings := (s.rings.set k { s.ring k with queue := (s.ring k).queue.drop x.need }).set (k + 1)
            { s.ring (k + 1) with queue := (s.ring (k + 1)).queue ++ out } }) ∧
    (invoke s x ins = .raise →
      agentStep (.stage k) s = .next { s with lc := .faulted, fcode := .numStage, fslot := BitVec.ofNat 4 k })

/-- A stage whose step is not enabled does nothing, in each of the cases that R180 and R184 leave: no slot of the
pipeline; a lifecycle state in which nothing runs, whatever the rings hold; a stage that is done; a whole block
waiting for room in the output ring, even while stopping; a short input ring outside the drain; and a short input
ring in the drain whose predecessor is not done (41_ring_scheduler.md R180, R184; 20_memory.md R81,
70_reset_and_hazards.md R353). -/
def Obligations.BlockedStageWaits : Prop :=
  ∀ (s : State) (k : Nat),
    (s.nstg ≤ k ∨ (s.slot k).cfg.kind = .none → agentStep (.stage k) s = .next s) ∧
    (s.lc = .idle ∨ s.lc = .halted ∨ s.lc = .faulted → agentStep (.stage k) s = .next s) ∧
    ((s.slot k).rt.done = true → agentStep (.stage k) s = .next s) ∧
    ((s.slot k).need ≤ (s.ring k).queue.length → s.par.rcap - (s.ring (k + 1)).queue.length < (s.slot k).prod →
      agentStep (.stage k) s = .next s) ∧
    ((s.ring k).queue.length < (s.slot k).need → s.lc ≠ .stopping → agentStep (.stage k) s = .next s) ∧
    ((s.ring k).queue.length < (s.slot k).need → 0 < k → (s.slot (k - 1)).rt.done = false →
      agentStep (.stage k) s = .next s)

/-- The done step: in `STOPPING`, a stage that is not done, whose predecessor is done and whose input ring holds no
whole block, becomes done; and the halt step: when the last stage is done `LC` becomes `HALTED`. Nothing else changes
(41_ring_scheduler.md R184, R185). -/
def Obligations.DrainAndHalt : Prop :=
  ∀ s : State,
    (∀ k, k < s.nstg → (s.slot k).cfg.kind ≠ .none → s.lc = .stopping →
      (s.slot k).rt.done = false → k = 0 ∨ (s.slot (k - 1)).rt.done = true →
      (s.ring k).queue.length < (s.slot k).need →
      agentStep (.stage k) s =
        .next { s with slots := s.slots.set k { s.slot k with rt := { (s.slot k).rt with done := true } } }) ∧
    (s.lc = .stopping → 1 ≤ s.nstg → (s.slot (s.nstg - 1)).rt.done = true →
      agentStep .sched s = .next { s with lc := .halted }) ∧
    (s.lc ≠ .stopping ∨ (s.slot (s.nstg - 1)).rt.done = false → agentStep .sched s = .next s)

/-- A stage's step reads and writes its own slot's runtime state, its input ring and its output ring: every other
slot, ring and register is as before, and so are its own configuration, taps, table and derived registers
(20_memory.md R71). -/
def Obligations.StageIsolation : Prop :=
  ∀ (s t : State) (k : Nat), agentStep (.stage k) s = .next t →
    SameSurroundings s t ∧ t.resp = s.resp ∧ t.nstg = s.nstg ∧ t.pend = s.pend ∧ t.actv = s.actv ∧
    (∀ j, j ≠ k → t.slot j = s.slot j) ∧ (∀ e, e ≠ k → e ≠ k + 1 → t.ring e = s.ring e) ∧
    (t.slot k).cfg = (s.slot k).cfg ∧ (t.slot k).taps = (s.slot k).taps ∧ (t.slot k).itb = (s.slot k).itb ∧
    (t.slot k).dv = (s.slot k).dv ∧ (∀ e, (t.ring e).cplx = (s.ring e).cplx)

/-- Two stages that can both step give the same state in either order, so the schedule between them cannot be seen
(20_memory.md R75). -/
def Obligations.StageStepsCommute : Prop :=
  ∀ (s a b : State) (j k : Nat), StateWf s → j ≠ k → invokeReady s j = true → invokeReady s k = true →
    agentStep (.stage j) s = .next a → agentStep (.stage k) s = .next b → a.lc = s.lc → b.lc = s.lc →
    ∃ t, agentStep (.stage k) a = .next t ∧ agentStep (.stage j) b = .next t

/-! ### The stages -/

/-- The squelch invocation (42_squelch.md R203). -/
def Obligations.SquelchInvocation : Prop :=
  ∀ (s : State) (x : Slot) (v : Sample), x.cfg.kind = .sql →
    let N := s.par.record
    let m2 := N.add (N.mul v.re v.re) (N.mul v.im v.im)
    let pwr := N.add x.rt.pwr (N.mul x.cfg.par1 (N.sub m2 x.rt.pwr))
    let gate := if N.lt x.dv.tho pwr then true else if N.le pwr x.dv.thc then false else x.rt.gate
    (N.finite pwr = false → invoke s x [v] = .raise) ∧
    (N.finite pwr = true → invoke s x [v] =
      .emit [if gate then v else { re := posZero, im := posZero }] { x.rt with pwr := pwr, gate := gate })

/-- With the default numeric record, over a run that starts with the gate closed, the output is exactly zero for as
long as every smoothed power stays at or below `THC`; and a sample whose smoothed power is above `THO` passes
unchanged (42_squelch.md R206). -/
def Obligations.SquelchGatesRuns : Prop :=
  ∀ (x : Slot) (vs : List Sample) (outs : List Sample) (x' : Slot), squelchRun NUM.binary64 x vs = some (outs, x') →
    (x.rt.gate = false → NUM.le x.dv.thc x.dv.tho = true →
      (∀ q ∈ powers NUM.binary64 x.cfg.par1 x.rt.pwr vs, NUM.le q x.dv.thc = true) →
      outs = List.replicate vs.length { re := posZero, im := posZero } ∧ x'.rt.gate = false) ∧
    ((∀ q ∈ powers NUM.binary64 x.cfg.par1 x.rt.pwr vs, NUM.lt x.dv.tho q = true) → outs = vs)

/-- The demodulator invocation (43_fmdemod.md R218). -/
def Obligations.DemodulatorInvocation : Prop :=
  ∀ (s : State) (x : Slot) (v : Sample), x.cfg.kind = .fmd →
    let N := s.par.record
    let p := x.rt.prev
    let re := N.add (N.mul v.re p.re) (N.mul v.im p.im)
    let im := N.sub (N.mul v.im p.re) (N.mul v.re p.im)
    let ang := if N.eq re posZero = true ∧ N.eq im posZero = true then posZero else N.atan2 im re
    let y := N.mul x.dv.gain ang
    (N.finite y = false → invoke s x [v] = .raise) ∧
    (N.finite y = true → invoke s x [v] = .emit [{ re := y, im := posZero }] { x.rt with prev := v })

/-- With the default numeric record the first sample of a run, and any sample next to a zeroed one, gives exactly
`+0.0` (43_fmdemod.md R219(a) and (b)). -/
def Obligations.DemodulatorZeroVector : Prop :=
  ∀ (s : State) (x : Slot) (v : Sample), s.par.num = .binary64 → x.cfg.kind = .fmd →
    positive s.par.record x.dv.gain = true → v.finite s.par.record = true → x.rt.prev.finite s.par.record = true →
    (NUM.isZero x.rt.prev.re = true ∧ NUM.isZero x.rt.prev.im = true) ∨ (NUM.isZero v.re = true ∧ NUM.isZero v.im = true) →
    invoke s x [v] = .emit [{ re := posZero, im := posZero }] { x.rt with prev := v }

/-- What one invocation of a filter or resampler computes, written out: exactly `L` outputs; output `i` is the sum,
from `+0.0` and in ascending `j`, of `taps[b + j*L] * HIST[j]` over all `j` with `b + j*L < N`, where `b` is
`(i*M) mod L` and input sample `floor(i*M/L)` is the newest in the history; two such sums for a complex stage, and the
imaginary part `+0.0` for a real one; a fault where one of the outputs is not finite (44_fir.md R233, R234, R236;
46_resampler.md R291). -/
def Obligations.PolyphaseClosedForm : Prop :=
  ∀ (s : State) (x : Slot) (xs : List Sample), x.cfg.kind = .fir ∨ x.cfg.kind = .rsp →
    x.taps.count x.taps.act ≤ s.par.tapmax → xs.length = x.cfg.m.toNat → 1 ≤ x.cfg.m.toNat →
    let N := s.par.record
    let n := x.taps.count x.taps.act
    let L := x.cfg.l.toNat
    let tap := Mem.read (x.taps.bank x.taps.act)
    let stored := fun v : Sample => if x.cfg.flag then v else { re := v.re, im := posZero }
    let past := fun i : Nat => (xs.take i).foldl (fun h v => (stored v :: h).take s.par.tapmax) x.rt.hist
    let sum := fun (b : Nat) (h : List Sample) (part : Sample → F) =>
      ((List.range n).filter fun j => b + j * L < n).foldl
        (fun acc j => N.add acc (N.mul (tap (b + j * L)) (part (h.getD j Sample.zero)))) posZero
    let out := fun i : Nat =>
      let b := i * x.cfg.m.toNat % L
      let h := past (i * x.cfg.m.toNat / L + 1)
      ({ re := sum b h Sample.re, im := if x.cfg.flag then sum b h Sample.im else posZero } : Sample)
    let fits := fun v : Sample => N.finite v.re = true ∧ (x.cfg.flag = true → N.finite v.im = true)
    ((∀ i < L, fits (out i)) →
      invoke s x xs = .emit ((List.range L).map out) { x.rt with hist := past xs.length }) ∧
    ((∃ i < L, ¬fits (out i)) → invoke s x xs = .raise)

/-- The shifts of the filter history and of the timing window (44_fir.md R233, 45_str.md R256). -/
def Obligations.HistoryShifts : Prop :=
  (∀ (p : Params) (cplx : Bool) (hist : List Sample) (v d : Sample), hist.length = p.tapmax → 1 ≤ p.tapmax →
    (shiftHist p cplx hist v).length = p.tapmax ∧
    (shiftHist p cplx hist v).getD 0 d = (if cplx then v else { v with im := posZero }) ∧
    ∀ j, 1 ≤ j → j < p.tapmax → (shiftHist p cplx hist v).getD j d = hist.getD (j - 1) d) ∧
  (∀ (w : Nat) (win : List F) (v d : F), 1 ≤ w → w ≤ win.length →
    (shiftWin w win v).length = win.length ∧ (shiftWin w win v).getD (w - 1) d = v ∧
    (∀ i, i + 1 < w → (shiftWin w win v).getD i d = win.getD (i + 1) d) ∧
    (∀ i, w ≤ i → (shiftWin w win v).getD i d = win.getD i d))

/-- Row selection with the default numeric record: for a fraction in `[0, 1]` exactly one row of `0 .. NPH`
satisfies the two exact bounds, and that row is taken (45_str.md R258). -/
def Obligations.RowSelection : Prop :=
  ∀ (nph : Nat) (f : F), 1 ≤ nph → NUM.finite f = true → 0 ≤ NUM.exact f → NUM.exact f ≤ NUM.oneUnits →
    ∃ r ≤ nph, rowOf NUM.binary64 nph f = some r ∧
      (∀ q : Nat, ((2 * (q : Int) - 1) * NUM.oneUnits ≤ 2 * nph * NUM.exact f ∧
        2 * nph * NUM.exact f < (2 * (q : Int) + 1) * NUM.oneUnits) ↔ q = r)

/-- The interpolator: the selected row against `NT` samples of the window from `CB + o - (NT/2 - 1)` up, summed in
ascending order (45_str.md R257). -/
def Obligations.InterpolatorSum : Prop :=
  ∀ (p : Params) (x : Slot) (win : List F) (o : Int) (f v : F), x.dv.w.toNat ≤ win.length →
    interp p x win o f = .ok v →
    ∃ r, rowOf p.record (2 ^ x.cfg.lognph.toNat) f = some r ∧
      v = p.record.sum ((List.range x.cfg.nt.toNat).map fun k =>
        p.record.mul (Mem.read x.itb.coeffs (r * p.ntmax + k))
          (win.getD ((x.dv.cb.toNat : Int) + o - ((x.cfg.nt.toNat : Int) / 2 - 1) + k).toNat posZero))

/-- One symbol of a timing recovery slot: the three instants, the detector, the loop filter with the active loop gain
`LG_A`, and the advance, each from the values at the start of the invocation (45_str.md R260). -/
def Obligations.TimingCycle : Prop :=
  ∀ (s : State) (x : Slot) (xs : List Sample) (mid early late : F) (oe ol n : Int), x.cfg.kind = .str →
    0 < x.dv.w.toNat → x.dv.w.toNat ≤ s.par.hlen →
    let N := s.par.record
    let win := (xs.map Sample.re).foldl (shiftWin x.dv.w.toNat) x.rt.win
    let te := N.sub x.rt.mu x.cfg.par1
    let tl := N.add x.rt.mu x.cfg.par1
    let sgn := if N.lt posZero mid then N.one else if N.lt mid posZero then N.negate N.one else posZero
    let clamp := fun v lo hi : F => if N.lt v lo then lo else if N.lt hi v then hi else v
    let e := N.mul sgn (N.sub late early)
    let integ := clamp (N.add x.rt.integ (N.mul s.actv.lg e)) (N.negate x.dv.rng) x.dv.rng
    let period := N.add x.dv.p0 integ
    let adv := clamp (N.add period (N.mul x.cfg.par2 e)) x.dv.pmin x.dv.pmax
    let t := N.add x.rt.mu adv
    interp s.par x win 0 x.rt.mu = .ok mid →
    N.floorI te = some oe → interp s.par x win oe (N.sub te (N.ofInt oe)) = .ok early →
    N.floorI tl = some ol → interp s.par x win ol (N.sub tl (N.ofInt ol)) = .ok late →
    ((N.finite mid = false ∨ N.finite e = false) → invoke s x xs = .raise) ∧
    (N.finite mid = true → N.finite e = true → N.floorI t = some n → invoke s x xs =
      .emit [{ re := mid, im := posZero }]
        { x.rt with
          win := win, skip := BitVec.ofInt 32 n, mu := N.sub t (N.ofInt n), integ := integ, period := period,
          err := e })

/-- The bounds that every symbol keeps, whatever the input, in the rounded arithmetic of the default record:
`0 <= MU < 1`, `-RNG <= INTEG <= RNG`, `PMIN <= PERIOD <= PMAX`, `1 <= SKIP <= floorI(PMAX) + 1` (10_state.md R45;
45_str.md R264 to R266). -/
def Obligations.TimingLoopBounds : Prop :=
  ∀ (s : State) (x : Slot) (xs : List Sample) (out : List Sample) (rt : Runtime) (top : Int),
    let N := s.par.record
    s.par.num = .binary64 → s.par.Ok → x.cfg.kind = .str → StrValid N s.par x → LoopOk N x →
    nonnegative N s.actv.lg = true → N.floorI x.dv.pmax = some top → invoke s x xs = .emit out rt →
    N.le posZero rt.mu = true ∧ N.lt rt.mu N.one = true ∧
    N.le (N.negate x.dv.rng) rt.integ = true ∧ N.le rt.integ x.dv.rng = true ∧
    N.le x.dv.pmin rt.period = true ∧ N.le rt.period x.dv.pmax = true ∧
    1 ≤ rt.skip.toNat ∧ (rt.skip.toNat : Int) ≤ top + 1

/-- The dead point, with the default numeric record: where the on-time sample is a zero, the error is a zero
whatever early and late are, and the integrator keeps its value up to its limits (45_str.md R261, R269). -/
def Obligations.TimingDeadPoint : Prop :=
  ∀ (x : Slot) (lg mid early late : F), NUM.isZero mid = true → NUM.finite (NUM.sub late early) = true →
    NUM.finite lg = true → LoopOk NUM.binary64 x → NUM.finite x.dv.rng = true →
    NUM.le (NUM.negate x.dv.rng) x.rt.integ = true → NUM.le x.rt.integ x.dv.rng = true →
    NUM.isZero (timingError NUM.binary64 mid early late) = true ∧
    NUM.eq (integNext NUM.binary64 x lg (timingError NUM.binary64 mid early late)) x.rt.integ = true

/-! ### The arithmetic -/

/-- Addition, subtraction, multiplication and division of finite values in the default record (00_scope.md R8,
roundTiesToEven): the result is finite exactly where the exact result is nearer to a finite value than the overflow
bound; it is then no further from the exact result than any other finite value, and of two equally near the one with
an even last bit; beyond the bound it is the infinity with the sign of the exact result. `n / d` is the exact result
in units of `2^-1074`. -/
def Obligations.ArithmeticRoundsToNearest : Prop :=
  ∀ a b v : F, NUM.finite a = true → NUM.finite b = true → NUM.finite v = true →
    let rounds := fun (r : F) (n d : Int) =>
      (NUM.finite r = true ↔ |n| < NUM.overflowUnits * |d|) ∧
      (NUM.finite r = false → NUM.isInf r = true ∧ NUM.neg r = decide (n * d < 0)) ∧
      (NUM.finite r = true → |NUM.exact r * d - n| ≤ |NUM.exact v * d - n| ∧
        (NUM.exact v ≠ NUM.exact r → |NUM.exact v * d - n| = |NUM.exact r * d - n| → r.getLsbD 0 = false))
    rounds (NUM.add a b) (NUM.exact a + NUM.exact b) 1 ∧
    rounds (NUM.sub a b) (NUM.exact a - NUM.exact b) 1 ∧
    rounds (NUM.mul a b) (NUM.exact a * NUM.exact b) NUM.oneUnits ∧
    (NUM.isZero b = false → rounds (NUM.div a b) (NUM.exact a * NUM.oneUnits) (NUM.exact b))

/-- The fraction of a finite value of the default record: exact and in `[0, 1)` for a value that is not negative,
and in `[0, 1]` for a negative one (00_scope.md R10). -/
def Obligations.FractionIsExact : Prop :=
  ∀ (v : F) (i : Int), NUM.binary64.floorI v = some i →
    NUM.finite (NUM.sub v (NUM.ofInt i)) = true ∧
    0 ≤ NUM.exact (NUM.sub v (NUM.ofInt i)) ∧ NUM.exact (NUM.sub v (NUM.ofInt i)) ≤ NUM.oneUnits ∧
    (0 ≤ NUM.exact v → NUM.exact (NUM.sub v (NUM.ofInt i)) = NUM.exact v - i * NUM.oneUnits ∧
      NUM.exact (NUM.sub v (NUM.ofInt i)) < NUM.oneUnits)

/-- The two functions the spec leaves open, whatever their free choices are. `exp10`: 1 at 0, monotone, and finite
and not negative below the overflow point (93_implementation_defined.md I4; log 7). `atan2`: finite, at most π
rounded, with the sign of its first argument, and the zero itself for a zero over a positive (I3; log 6). -/
def Obligations.OpenFunctionsKeepTheirProperties : Prop :=
  NUM.exp10 posZero = NUM.one ∧
  (∀ x y : F, NUM.le x y = true → NUM.le (NUM.exp10 x) (NUM.exp10 y) = true) ∧
  (∀ x : F, NUM.finite x = true → NUM.le x NUM.exp10Top = true →
    NUM.finite (NUM.exp10 x) = true ∧ NUM.le posZero (NUM.exp10 x) = true) ∧
  (∀ y x : F, NUM.finite y = true → NUM.finite x = true → ¬(NUM.isZero y = true ∧ NUM.isZero x = true) →
    NUM.finite (NUM.atan2 y x) = true ∧ NUM.le (NUM.atan2 y x) NUM.pi = true ∧
    NUM.le (NUM.negate NUM.pi) (NUM.atan2 y x) = true ∧ NUM.neg (NUM.atan2 y x) = NUM.neg y ∧
    (NUM.isZero y = true → NUM.lt posZero x = true → NUM.atan2 y x = y))

/-! ### Invariants -/

/-- The reset state has every invariant below. -/
def Obligations.ResetHasInvariants : Prop :=
  StateWf State.reset ∧ RingsFinite State.reset ∧ (∀ x ∈ State.reset.slots, RuntimeFinite State.reset.par.record x) ∧
  (State.reset.live = true → LivePipeline State.reset)

/-- Every step keeps the shape of the state: the memories' canonical form, every size, `CNT <= RCAP`, and a fault
latched exactly in `FAULTED` (10_state.md R26, R27, R37 to R39, R45). -/
def Obligations.StepKeepsStateWf : Prop :=
  ∀ s t : State, StateWf s → step s = .next t → StateWf t

/-- With the default numeric record, every step keeps the invariant of the running pipeline, `START` establishing it:
edges typed, the limits of the timing recovery slots, finite the active tunables that a configured stage reads and the
active taps of the filters, stages done in order (10_state.md R45, 41_ring_scheduler.md R171, R184). -/
def Obligations.StepKeepsLivePipeline : Prop :=
  ∀ s t : State, s.par.num = .binary64 → StateWf s → (s.live = true → LivePipeline s) → step s = .next t →
    t.live = true → LivePipeline t

/-- With the default numeric record, non-finite values never enter a ring or a piece of runtime state
(60_exceptions.md R310). -/
def Obligations.NonFiniteNeverEnters : Prop :=
  ∀ s t : State, s.par.num = .binary64 → StateWf s → (s.live = true → LivePipeline s) → RingsFinite s →
    (∀ x ∈ s.slots, RuntimeFinite s.par.record x) →
    step s = .next t → RingsFinite t ∧ ∀ x ∈ t.slots, RuntimeFinite t.par.record x

/-- With the default numeric record the machine never stops: from every state with the invariants, whatever agent
moves, the step is a next state; the three stops of the model are not reached (10_state.md R45, 20_memory.md R67;
log 12). -/
def Obligations.MachineNeverStops : Prop :=
  ∀ s : State, s.par.num = .binary64 → StateWf s → (s.live = true → LivePipeline s) → ∃ t, step s = .next t

/-- The structure of a running pipeline is constant: no step from a running pipeline to a running one changes a
slot's configuration, its table, `NSTG` or a ring's type (20_memory.md R79, 10_state.md R25). -/
def Obligations.StructureIsConstant : Prop :=
  ∀ s t : State, s.live = true → t.live = true → step s = .next t →
    t.nstg = s.nstg ∧ (∀ k, (t.slot k).cfg = (s.slot k).cfg ∧ (t.slot k).itb = (s.slot k).itb) ∧
    (∀ e, (t.ring e).cplx = (s.ring e).cplx)

/-- Active tunables are written by `START`, `COMMIT` and `RESET` alone, pending ones by `SET.*` and `RESET` alone,
and the active tap vector of a slot by adoption, reconfiguration and `RESET` alone (10_state.md R24, R26). -/
def Obligations.WhoWritesTheTunables : Prop :=
  ∀ s t : State, step s = .next t →
    (t.actv ≠ s.actv → Executes s .start ∨ Executes s .commit ∨ Executes s .reset) ∧
    (t.pend ≠ s.pend → Executes s .reset ∨ ∃ v, Executes s (.setFs v) ∨ Executes s (.setRffs v) ∨
      Executes s (.setDev v) ∨ Executes s (.setBaud v) ∨ Executes s (.setThr v) ∨ Executes s (.setLg v) ∨
      Executes s (.setFc v)) ∧
    (∀ k, (t.slot k).taps.vector (t.slot k).taps.act ≠ (s.slot k).taps.vector (s.slot k).taps.act →
      Executes s .start ∨ Executes s .commit ∨ Executes s .reset ∨
      ∃ i j, Executes s i ∧ slotOperand i = some j ∧ j.toNat = k ∧ s.live = false)
end

