-- ==== Sys2Proof/Laws/Num.lean ====
section
/-! SUPPORT. Rounding: what `NUM`'s operations guarantee of their results (00_scope.md R8). Every result is
derived from two facts about `roundMag`: it is monotone, and it gives back what the format can hold. -/

namespace Sys2Proof.Machine.NUM

open Sys2Proof

/-! ### The magnitude as a number of units -/

/-- The units of a magnitude. -/
def unitsMag (m : Nat) : Nat := if m / 2 ^ 52 = 0 then m % 2 ^ 52 else (2 ^ 52 + m % 2 ^ 52) * 2 ^ (m / 2 ^ 52 - 1)

theorem units_eq (v : F) : units v = unitsMag (mag v) := rfl

/-- A rounded magnitude is its significand shifted by its exponent. -/
theorem unitsMag_join (k q : Nat) (hq : q ≤ 2 ^ 53) (hk : k = 0 ∨ 2 ^ 52 ≤ q) :
    unitsMag (k * 2 ^ 52 + q) = q * 2 ^ k := by
  have e52 : (2 : Nat) ^ 52 = 4503599627370496 := by norm_num
  have e53 : (2 : Nat) ^ 53 = 9007199254740992 := by norm_num
  unfold unitsMag
  rw [e52] at *
  rw [e53] at hq
  rcases Nat.lt_or_ge q 4503599627370496 with hlt | hge
  · have hk0 : k = 0 := by omega
    subst hk0
    have h1 : (0 * 4503599627370496 + q) / 4503599627370496 = 0 := by omega
    have h2 : (0 * 4503599627370496 + q) % 4503599627370496 = q := by omega
    rw [h1, h2]; simp
  · rcases Nat.lt_or_ge q 9007199254740992 with hlt | hge2
    · have h1 : (k * 4503599627370496 + q) / 4503599627370496 = k + 1 := by omega
      have h2 : (k * 4503599627370496 + q) % 4503599627370496 = q - 4503599627370496 := by omega
      rw [h1, h2, if_neg (by omega)]
      have : 4503599627370496 + (q - 4503599627370496) = q := by omega
      rw [this]; simp
    · have hq : q = 9007199254740992 := by omega
      subst hq
      have h1 : (k * 4503599627370496 + 9007199254740992) / 4503599627370496 = k + 2 := by omega
      have h2 : (k * 4503599627370496 + 9007199254740992) % 4503599627370496 = 0 := by omega
      rw [h1, h2, if_neg (by omega)]
      have : k + 2 - 1 = k + 1 := by omega
      rw [this, pow_succ]; ring

/-- Every magnitude is of that form. -/
theorem unitsMag_split (m : Nat) :
    ∃ k q, m = k * 2 ^ 52 + q ∧ q < 2 ^ 53 ∧ (k = 0 ∨ 2 ^ 52 ≤ q) ∧ unitsMag m = q * 2 ^ k := by
  have e52 : (2 : Nat) ^ 52 = 4503599627370496 := by norm_num
  have e53 : (2 : Nat) ^ 53 = 9007199254740992 := by norm_num
  by_cases h : m / 2 ^ 52 = 0
  · refine ⟨0, m, by simp, ?_, .inl rfl, ?_⟩
    · rw [e52] at h; rw [e53]; omega
    · have := unitsMag_join 0 m (by rw [e52] at h; rw [e53]; omega) (.inl rfl)
      simpa using this
  · have hm : m = (m / 2 ^ 52 - 1) * 2 ^ 52 + (2 ^ 52 + m % 2 ^ 52) := by rw [e52] at *; omega
    have hlt : 2 ^ 52 + m % 2 ^ 52 < 2 ^ 53 := by rw [e52, e53]; omega
    refine ⟨m / 2 ^ 52 - 1, 2 ^ 52 + m % 2 ^ 52, hm, hlt, .inr (by omega), ?_⟩
    conv_lhs => rw [hm]
    exact unitsMag_join _ _ hlt.le (.inr (by omega))

/-! ### `roundMag` -/

/-- The quotient rounded to the nearest whole number, ties to even. -/
def nearest (a u : Nat) : Nat :=
  if decide (u < 2 * (a % u)) || (decide (2 * (a % u) = u) && decide (a / u % 2 = 1)) then a / u + 1 else a / u

/-- The exponent `roundMag` picks. -/
def pick (p n d : Nat) : Nat := (n / d).log2 + 1 - p

theorem roundMag_eq (p n d : Nat) :
    roundMag p n d = pick p n d * 2 ^ (p - 1) + nearest n (d * 2 ^ pick p n d) := rfl

theorem nearest_bounds (a u : Nat) : a / u ≤ nearest a u ∧ nearest a u ≤ a / u + 1 := by
  unfold nearest; split <;> omega

theorem nearest_exact (a u : Nat) (hu : 0 < u) : nearest (a * u) u = a := by
  unfold nearest
  have h1 : a * u % u = 0 := Nat.mul_mod_left a u
  have h2 : a * u / u = a := Nat.mul_div_cancel a hu
  rw [h1, h2]; simp; omega

theorem nearest_mono (a u b w : Nat) (hu : 0 < u) (hw : 0 < w) (h : a * w ≤ b * u) : nearest a u ≤ nearest b w := by
  have hq : a / u ≤ b / w := by
    rw [Nat.le_div_iff_mul_le hw]
    have h1 : a / u * u ≤ a := Nat.div_mul_le_self a u
    have h2 : a / u * w * u ≤ b * u := by
      calc a / u * w * u = a / u * u * w := by ring
        _ ≤ a * w := Nat.mul_le_mul_right w h1
        _ ≤ b * u := h
    exact Nat.le_of_mul_le_mul_right h2 hu
  rcases Nat.lt_or_ge (a / u) (b / w) with hlt | hge
  · exact le_trans (nearest_bounds a u).2 (le_trans hlt (nearest_bounds b w).1)
  · have heq : a / u = b / w := le_antisymm hq hge
    have ha : a = u * (a / u) + a % u := (Nat.div_add_mod a u).symm
    have hb : b = w * (b / w) + b % w := (Nat.div_add_mod b w).symm
    have hr : a % u * w ≤ b % w * u := by
      have h1 : (u * (a / u) + a % u) * w ≤ (w * (b / w) + b % w) * u := by rw [← ha, ← hb]; exact h
      rw [← heq] at h1
      nlinarith
    unfold nearest
    rw [← heq]
    split
    · rename_i hup
      have hup' : u ≤ 2 * (a % u) ∧ (u < 2 * (a % u) ∨ a / u % 2 = 1) := by
        simp only [Bool.or_eq_true, Bool.and_eq_true, decide_eq_true_eq] at hup
        omega
      have hge : w ≤ 2 * (b % w) := by
        have : w * u ≤ 2 * (b % w) * u := by nlinarith [hup'.1]
        exact Nat.le_of_mul_le_mul_right this hu
      rw [if_pos]
      simp only [Bool.or_eq_true, Bool.and_eq_true, decide_eq_true_eq]
      rcases Nat.lt_or_ge w (2 * (b % w)) with hgt | hle
      · exact .inl hgt
      · refine .inr ⟨by omega, ?_⟩
        rcases hup'.2 with hlt | hodd
        · exfalso
          have : w * u < 2 * (b % w) * u := by nlinarith
          have := Nat.lt_of_mul_lt_mul_right this
          omega
        · exact hodd
    · split <;> omega

theorem pick_mono (p n d n' d' : Nat) (h : n / d ≤ n' / d') : pick p n d ≤ pick p n' d' := by
  have : (n / d).log2 ≤ (n' / d').log2 := by
    rcases Nat.eq_zero_or_pos (n / d) with h0 | hpos
    · simp [h0]
    · exact (Nat.le_log2 (by omega)).mpr (le_trans (Nat.log2_self_le (by omega)) h)
  unfold pick; omega

/-- The significand fits: below `2^p`, and at least `2^(p-1)` unless the exponent is 0. -/
theorem pick_bounds (p n d : Nat) (hp : 1 ≤ p) :
    n / (d * 2 ^ pick p n d) < 2 ^ p ∧ (pick p n d = 0 ∨ 2 ^ (p - 1) ≤ n / (d * 2 ^ pick p n d)) := by
  have hdd : n / (d * 2 ^ pick p n d) = n / d / 2 ^ pick p n d := by rw [Nat.div_div_eq_div_mul]
  rw [hdd]
  have hlt : n / d < 2 ^ ((n / d).log2 + 1) := Nat.lt_log2_self
  constructor
  · rw [Nat.div_lt_iff_lt_mul (by positivity), ← pow_add]
    exact lt_of_lt_of_le hlt (Nat.pow_le_pow_right (by norm_num) (by unfold pick; omega))
  · rcases Nat.eq_zero_or_pos (pick p n d) with h0 | hpos
    · exact .inl h0
    · right
      have hlog : (n / d).log2 = p - 1 + pick p n d := by unfold pick at *; omega
      have hne : n / d ≠ 0 := by
        intro h0; rw [h0] at hlog; simp at hlog; omega
      rw [Nat.le_div_iff_mul_le (by positivity), ← pow_add, ← hlog]
      exact Nat.log2_self_le hne

/-- Rounding is monotone. -/
theorem roundMag_mono (p n d n' d' : Nat) (hp : 1 ≤ p) (hd : 0 < d) (hd' : 0 < d') (h : n * d' ≤ n' * d) :
    roundMag p n d ≤ roundMag p n' d' := by
  have hdiv : n / d ≤ n' / d' := by
    rw [Nat.le_div_iff_mul_le hd']
    have h1 : n / d * d ≤ n := Nat.div_mul_le_self n d
    have : n / d * d' * d ≤ n' * d := by
      calc n / d * d' * d = n / d * d * d' := by ring
        _ ≤ n * d' := Nat.mul_le_mul_right d' h1
        _ ≤ n' * d := h
    exact Nat.le_of_mul_le_mul_right this hd
  have hk := pick_mono p n d n' d' hdiv
  rw [roundMag_eq, roundMag_eq]
  rcases Nat.lt_or_ge (pick p n d) (pick p n' d') with hlt | hge
  · have h1 := (pick_bounds p n d hp).1
    have h2 := (pick_bounds p n' d' hp).2
    have h3 := (nearest_bounds n (d * 2 ^ pick p n d)).2
    have h4 := (nearest_bounds n' (d' * 2 ^ pick p n' d')).1
    have h5 : 2 ^ (p - 1) ≤ n' / (d' * 2 ^ pick p n' d') := by
      rcases h2 with h2 | h2
      · omega
      · exact h2
    have h6 : 2 ^ p = 2 * 2 ^ (p - 1) := by rw [← pow_succ']; congr 1; omega
    have h7 : (pick p n d + 1) * 2 ^ (p - 1) ≤ pick p n' d' * 2 ^ (p - 1) := Nat.mul_le_mul_right _ hlt
    rw [Nat.add_mul, Nat.one_mul] at h7
    omega
  · have heq : pick p n d = pick p n' d' := le_antisymm hk hge
    rw [heq]
    refine Nat.add_le_add_left (nearest_mono _ _ _ _ (by positivity) (by positivity) ?_) _
    calc n * (d' * 2 ^ pick p n' d') = n * d' * 2 ^ pick p n' d' := by ring
      _ ≤ n' * d * 2 ^ pick p n' d' := Nat.mul_le_mul_right _ h
      _ = n' * (d * 2 ^ pick p n' d') := by ring

/-- A magnitude rounds to itself. -/
theorem roundMag_unitsMag (m d : Nat) (hd : 0 < d) : roundMag 53 (unitsMag m * d) d = m := by
  obtain ⟨k, q, hm, hq, hk, hu⟩ := unitsMag_split m
  have hdiv : unitsMag m * d / d = q * 2 ^ k := by rw [Nat.mul_div_cancel _ hd, hu]
  have hpick : pick 53 (unitsMag m * d) d = k := by
    unfold pick
    rw [hdiv]
    rcases hk with rfl | hk
    · have : (q * 2 ^ 0).log2 ≤ 52 := by
        rcases Nat.eq_zero_or_pos q with h0 | hpos
        · simp [h0]
        · have := (Nat.log2_lt (n := q * 2 ^ 0) (k := 53) (by simp; omega)).mpr (by simpa using hq)
          omega
      omega
    · have hlog : (q * 2 ^ k).log2 = 52 + k := by
        rw [Nat.log2_eq_iff (by positivity)]
        refine ⟨?_, ?_⟩
        · rw [pow_add]; exact Nat.mul_le_mul_right _ hk
        · have : (2 : Nat) ^ (52 + k + 1) = 2 ^ 53 * 2 ^ k := by rw [← pow_add]; congr 1; omega
          rw [this]; exact Nat.mul_lt_mul_of_pos_right hq (by positivity)
      rw [hlog]; omega
  rw [roundMag_eq, hpick, hu]
  have : q * 2 ^ k * d = q * (d * 2 ^ k) := by ring
  rw [this, nearest_exact _ _ (by positivity)]
  exact hm.symm

/-- What the format can hold is not changed by rounding: a significand below `2^53` shifted. -/
theorem unitsMag_roundMag (q j : Nat) (hq : q < 2 ^ 53) : unitsMag (roundMag 53 (q * 2 ^ j) 1) = q * 2 ^ j := by
  have hb := pick_bounds 53 (q * 2 ^ j) 1 (by norm_num)
  have hkj : pick 53 (q * 2 ^ j) 1 ≤ j := by
    unfold pick
    rw [Nat.div_one]
    rcases Nat.eq_zero_or_pos q with h0 | hpos
    · subst h0; simp
    · have : q * 2 ^ j < 2 ^ (53 + j) := by
        rw [pow_add]; exact Nat.mul_lt_mul_of_pos_right hq (by positivity)
      have := (Nat.log2_lt (n := q * 2 ^ j) (k := 53 + j) (by positivity)).mpr this
      omega
  rw [roundMag_eq]
  generalize pick 53 (q * 2 ^ j) 1 = k at *
  have hsplit : q * 2 ^ j = q * 2 ^ (j - k) * (1 * 2 ^ k) := by
    rw [one_mul, mul_assoc, ← pow_add]; congr 2; omega
  rw [hsplit] at hb ⊢
  rw [nearest_exact _ _ (by positivity)]
  rw [Nat.mul_div_cancel _ (by positivity)] at hb
  rw [unitsMag_join k _ hb.1.le (by simpa using hb.2)]
  ring

/-- Units order like magnitudes. -/
theorem unitsMag_le_iff (m m' : Nat) : unitsMag m ≤ unitsMag m' ↔ m ≤ m' := by
  constructor
  · intro h
    have := roundMag_mono 53 (unitsMag m * 1) 1 (unitsMag m' * 1) 1 (by norm_num) (by norm_num) (by norm_num) (by omega)
    rwa [roundMag_unitsMag _ _ (by norm_num), roundMag_unitsMag _ _ (by norm_num)] at this
  · intro h
    by_contra hn
    have := roundMag_mono 53 (unitsMag m' * 1) 1 (unitsMag m * 1) 1 (by norm_num) (by norm_num) (by norm_num) (by omega)
    rw [roundMag_unitsMag _ _ (by norm_num), roundMag_unitsMag _ _ (by norm_num)] at this
    have heq : m = m' := by omega
    rw [heq] at hn; exact hn le_rfl

/-! ### Bit patterns -/

theorem pack_toNat (s : Bool) (m : Nat) (h : m < 2 ^ 63) : (pack s m).toNat = m + if s then 2 ^ 63 else 0 := by
  unfold pack
  rw [BitVec.toNat_ofNat]
  apply Nat.mod_eq_of_lt
  have : (2 : Nat) ^ 64 = 2 ^ 63 + 2 ^ 63 := by norm_num
  split <;> omega

@[simp] theorem mag_pack (s : Bool) (m : Nat) (h : m < 2 ^ 63) : mag (pack s m) = m := by
  unfold mag
  rw [pack_toNat s m h]
  split
  · rw [Nat.add_mod_right, Nat.mod_eq_of_lt h]
  · rw [Nat.add_zero, Nat.mod_eq_of_lt h]

@[simp] theorem neg_pack (s : Bool) (m : Nat) (h : m < 2 ^ 63) : neg (pack s m) = s := by
  unfold neg
  rw [BitVec.msb_eq_decide, pack_toNat s m h]
  cases s <;> simp <;> omega

theorem mag_lt (v : F) : mag v < 2 ^ 63 := Nat.mod_lt _ (by norm_num)

theorem infMag_lt : infMag < 2 ^ 63 := by decide

@[simp] theorem finite_pack (s : Bool) (m : Nat) (h : m < infMag) : finite (pack s m) = true := by
  have := infMag_lt
  simp [finite, mag_pack s m (by omega), h]

theorem finite_iff (v : F) : finite v = true ↔ mag v < infMag := by simp [finite]

theorem isNaN_of_finite {v : F} (h : finite v = true) : isNaN v = false := by
  rw [finite_iff] at h; simp only [isNaN, decide_eq_false_iff_not]; omega

theorem isInf_of_finite {v : F} (h : finite v = true) : isInf v = false := by
  rw [finite_iff] at h; simp only [isInf, decide_eq_false_iff_not]; omega

/-- The NaN of an operation is a NaN whatever its free bits (log 8). -/
theorem isNaN_nanOf (a b : F) : isNaN (nanOf a b) = true := by
  have hand : nanOf a b &&& 0x7FF8000000000000#64 = 0x7FF8000000000000#64 := by
    unfold nanOf
    generalize Config.nanBits a b = c
    ext i hi
    simp only [BitVec.getElem_and, BitVec.getElem_or]
    cases (0x7FF8000000000000#64)[i] <;> simp
  have hle : 0x7FF8000000000000 ≤ mag (nanOf a b) := by
    have h63 : nanOf a b &&& 0x7FFFFFFFFFFFFFFF#64 &&& 0x7FF8000000000000#64 = 0x7FF8000000000000#64 := by
      rw [BitVec.and_assoc]; exact hand
    have hm : mag (nanOf a b) = (nanOf a b &&& 0x7FFFFFFFFFFFFFFF#64).toNat := by
      unfold mag
      rw [BitVec.toNat_and]
      exact (Nat.and_two_pow_sub_one_eq_mod _ 63).symm
    rw [hm]
    have h2 := congrArg BitVec.toNat h63
    rw [BitVec.toNat_and] at h2
    have h3 : ((nanOf a b &&& 0x7FFFFFFFFFFFFFFF#64).toNat &&& (0x7FF8000000000000#64).toNat)
        ≤ (nanOf a b &&& 0x7FFFFFFFFFFFFFFF#64).toNat := Nat.and_le_left
    rw [h2] at h3
    simpa using h3
  have hinf : infMag = 0x7FF0000000000000 := rfl
  rw [isNaN, decide_eq_true_eq, hinf]
  omega

theorem not_finite_nanOf (a b : F) : finite (nanOf a b) = false := by
  have h := isNaN_nanOf a b
  simp only [isNaN, decide_eq_true_eq] at h
  simp only [finite, decide_eq_false_iff_not]; omega

/-! ### Order and exact value -/

theorem exact_le_iff (a b : F) : exact a ≤ exact b ↔ key a ≤ key b := by
  have h1 := unitsMag_le_iff (mag a) (mag b)
  have h2 := unitsMag_le_iff (mag b) (mag a)
  have z1 := unitsMag_le_iff (mag a) 0
  have z2 := unitsMag_le_iff (mag b) 0
  have z0 : unitsMag 0 = 0 := by decide
  unfold exact key
  rw [units_eq, units_eq]
  rw [z0] at z1 z2
  cases neg a <;> cases neg b <;> simp only [if_true, if_false, Bool.false_eq_true] <;> constructor <;> intro h <;> omega

theorem le_iff {a b : F} (ha : finite a = true) (hb : finite b = true) : le a b = true ↔ exact a ≤ exact b := by
  rw [exact_le_iff]
  simp [le, isNaN_of_finite ha, isNaN_of_finite hb]

theorem lt_iff {a b : F} (ha : finite a = true) (hb : finite b = true) : lt a b = true ↔ exact a < exact b := by
  have := exact_le_iff b a
  simp only [lt, isNaN_of_finite ha, isNaN_of_finite hb, Bool.not_false, Bool.true_and, decide_eq_true_eq]
  omega

theorem exact_pack (s : Bool) (m : Nat) (h : m < 2 ^ 63) :
    exact (pack s m) = if s then -(unitsMag m : Int) else (unitsMag m : Int) := by
  unfold exact
  rw [neg_pack s m h, units_eq, mag_pack s m h]

theorem exact_mag (v : F) : (exact v).natAbs = unitsMag (mag v) := by
  unfold exact; rw [units_eq]; split <;> simp

theorem exact_natAbs_le (v : F) (n : Nat) (h : exact v ≤ (n : Int)) (h2 : -(n : Int) ≤ exact v) : unitsMag (mag v) ≤ n := by
  rw [← exact_mag]; omega

/-- Rounding does not pass a magnitude that bounds the exact result from above. -/
theorem roundMag_le (n d m : Nat) (hd : 0 < d) (h : n ≤ unitsMag m * d) : roundMag 53 n d ≤ m := by
  have := roundMag_mono 53 n d (unitsMag m * d) d (by norm_num) hd hd (Nat.mul_le_mul_right _ h)
  rwa [roundMag_unitsMag _ _ hd] at this

/-- Rounding does not pass a magnitude that bounds the exact result from below. -/
theorem le_roundMag (n d m : Nat) (hd : 0 < d) (h : unitsMag m * d ≤ n) : m ≤ roundMag 53 n d := by
  have := roundMag_mono 53 (unitsMag m * d) d n d (by norm_num) hd hd (Nat.mul_le_mul_right _ h)
  rwa [roundMag_unitsMag _ _ hd] at this

/-- A rounded result below an infinity, as a value. -/
theorem round64_value (s : Bool) (n d : Nat) (h : roundMag 53 n d < infMag) :
    finite (round64 s n d) = true ∧
      exact (round64 s n d) = if s then -(unitsMag (roundMag 53 n d) : Int) else (unitsMag (roundMag 53 n d) : Int) := by
  have hinf := infMag_lt
  unfold round64
  rw [Nat.min_eq_left h.le]
  exact ⟨finite_pack _ _ h, exact_pack _ _ (lt_trans h hinf)⟩

/-- The two cases of a value's sign. -/
theorem exact_cases (v : F) : exact v = (unitsMag (mag v) : Int) ∨ exact v = -(unitsMag (mag v) : Int) := by
  unfold exact; rw [units_eq]; cases neg v <;> simp

/-- Rounding stays between two finite values that the exact result is between: results `>= 0`. -/
theorem round64_between_nonneg (lo hi : F) (n d : Nat) (hhi : finite hi = true) (hd : 0 < d)
    (h1 : exact lo * d ≤ n) (h2 : (n : Int) ≤ exact hi * d) :
    finite (round64 false n d) = true ∧ exact lo ≤ exact (round64 false n d) ∧ exact (round64 false n d) ≤ exact hi := by
  rw [finite_iff] at hhi
  have hup : n ≤ unitsMag (mag hi) * d := by
    have : (n : Int) ≤ (unitsMag (mag hi) : Int) * d := by
      refine le_trans h2 (mul_le_mul_of_nonneg_right ?_ (by positivity))
      rcases exact_cases hi with e | e <;> rw [e] <;> linarith [Int.natCast_nonneg (unitsMag (mag hi))]
    exact_mod_cast this
  have hR := roundMag_le n d (mag hi) hd hup
  obtain ⟨hf, he⟩ := round64_value false n d (lt_of_le_of_lt hR hhi)
  have hRu := (unitsMag_le_iff _ _).mpr hR
  refine ⟨hf, ?_, ?_⟩
  · rw [he]
    rcases exact_cases lo with e | e
    · rw [e] at h1 ⊢
      have hlo : unitsMag (mag lo) * d ≤ n := by exact_mod_cast h1
      have := (unitsMag_le_iff _ _).mpr (le_roundMag n d (mag lo) hd hlo)
      simpa using this
    · rw [e]
      have h0 := Int.natCast_nonneg (unitsMag (mag lo))
      have h3 := Int.natCast_nonneg (unitsMag (roundMag 53 n d))
      simp only [Bool.false_eq_true, if_false]
      linarith
  · rw [he]
    simp only [Bool.false_eq_true, if_false]
    rcases exact_cases hi with e | e
    · rw [e]; exact_mod_cast hRu
    · rw [e] at h2 ⊢
      have hn : n = 0 := by
        have : (0 : Int) ≤ (unitsMag (mag hi) : Int) * d := by positivity
        have : (n : Int) ≤ 0 := by rw [neg_mul] at h2; linarith
        exact_mod_cast le_antisymm this (Int.natCast_nonneg n)
      have hu : unitsMag (mag hi) = 0 := by
        rw [hn] at h2
        have hdz : (0 : Int) < d := by exact_mod_cast hd
        have : (unitsMag (mag hi) : Int) ≤ 0 := by
          by_contra hc
          rw [not_le] at hc
          have := mul_pos hc hdz
          rw [neg_mul] at h2
          simp only [Nat.cast_zero] at h2
          linarith
        exact_mod_cast le_antisymm this (Int.natCast_nonneg _)
      rw [hu] at hRu ⊢
      have : unitsMag (roundMag 53 n d) = 0 := Nat.le_zero.mp hRu
      rw [this]; simp

/-- Rounding is symmetric. -/
theorem exact_round64_neg (n d : Nat) (h : roundMag 53 n d < infMag) :
    exact (round64 true n d) = -exact (round64 false n d) := by
  rw [(round64_value true n d h).2, (round64_value false n d h).2]; simp

/-- The value with the other sign. -/
theorem mag_negate (v : F) : mag (negate v) = mag v := by
  unfold mag negate
  have h63 : (2 : Nat) ^ 63 = 0x8000000000000000 := by norm_num
  rw [BitVec.toNat_xor]
  have hx : ∀ x : Nat, (x ^^^ 0x8000000000000000) % 2 ^ 63 = x % 2 ^ 63 := by
    intro x
    rw [Nat.xor_mod_two_pow]
    simp
  exact hx _

theorem neg_negate (v : F) : neg (negate v) = !neg v := by
  unfold neg negate
  rw [BitVec.msb_xor]
  have : (0x8000000000000000#64).msb = true := by decide
  rw [this]; simp

@[simp] theorem finite_negate (v : F) : finite (negate v) = finite v := by
  unfold finite; rw [mag_negate]

@[simp] theorem exact_negate (v : F) : exact (negate v) = -exact v := by
  unfold exact
  rw [neg_negate, units_eq, units_eq, mag_negate]
  cases neg v <;> simp

/-- Rounding stays between two finite values that the exact result is between. -/
theorem round64_between (lo hi : F) (z : Int) (d : Nat) (hlo : finite lo = true) (hhi : finite hi = true)
    (hd : 0 < d) (h1 : exact lo * d ≤ z) (h2 : z ≤ exact hi * d) :
    finite (round64 (decide (z < 0)) z.natAbs d) = true ∧
      exact lo ≤ exact (round64 (decide (z < 0)) z.natAbs d) ∧
      exact (round64 (decide (z < 0)) z.natAbs d) ≤ exact hi := by
  rcases lt_or_ge z 0 with hz | hz
  · have hn : (z.natAbs : Int) = -z := by rw [Int.natCast_natAbs, abs_of_neg hz]
    rw [decide_eq_true hz]
    have h3 : exact (negate hi) * d ≤ (z.natAbs : Int) := by rw [hn, exact_negate, neg_mul]; linarith
    have h4 : (z.natAbs : Int) ≤ exact (negate lo) * d := by rw [hn, exact_negate, neg_mul]; linarith
    obtain ⟨hf, ha, hb⟩ := round64_between_nonneg (negate hi) (negate lo) z.natAbs d (by simpa using hlo) hd h3 h4
    have hlt : roundMag 53 z.natAbs d < infMag := by
      rw [finite_iff] at hlo
      refine lt_of_le_of_lt (roundMag_le _ _ (mag lo) hd ?_) hlo
      have : (z.natAbs : Int) ≤ (unitsMag (mag lo) : Int) * d := by
        refine le_trans h4 (mul_le_mul_of_nonneg_right ?_ (by positivity))
        rw [exact_negate]
        rcases exact_cases lo with e | e <;> rw [e] <;> linarith [Int.natCast_nonneg (unitsMag (mag lo))]
      exact_mod_cast this
    rw [exact_negate] at ha hb
    rw [exact_round64_neg _ _ hlt]
    exact ⟨(round64_value true _ _ hlt).1, by linarith, by linarith⟩
  · have hn : (z.natAbs : Int) = z := by rw [Int.natCast_natAbs, abs_of_nonneg hz]
    rw [decide_eq_false (by linarith)]
    exact round64_between_nonneg lo hi z.natAbs d hhi hd (by rw [hn]; exact h1) (by rw [hn]; exact h2)

end Sys2Proof.Machine.NUM
end

