-- ==== Sys2Proof/Laws/Arith.lean ====
section
/-! SUPPORT. What each operation of `NUM` answers on finite operands, in terms of exact values. -/

namespace Sys2Proof.Machine.NUM

open Sys2Proof

/-- A zero is exactly 0. -/
theorem exact_pack_zero (s : Bool) : exact (pack s 0) = 0 := by
  rw [exact_pack s 0 (by norm_num)]
  have : unitsMag 0 = 0 := by decide
  rw [this]; cases s <;> rfl

/-- The exact sum of finite values is rounded between any two finite values around it. -/
theorem add_between (a b lo hi : F) (ha : finite a = true) (hb : finite b = true) (hlo : finite lo = true)
    (hhi : finite hi = true) (h1 : exact lo ≤ exact a + exact b) (h2 : exact a + exact b ≤ exact hi) :
    finite (add a b) = true ∧ exact lo ≤ exact (add a b) ∧ exact (add a b) ≤ exact hi := by
  have hnan : (isNaN a || isNaN b) = false := by rw [isNaN_of_finite ha, isNaN_of_finite hb]; rfl
  unfold add
  rw [hnan, isInf_of_finite ha, isInf_of_finite hb]
  simp only [Bool.false_eq_true, if_false]
  split
  · rename_i hz
    rw [hz] at h1 h2
    refine ⟨finite_pack _ _ (by decide), ?_, ?_⟩ <;> rw [exact_pack_zero] <;> assumption
  · exact round64_between lo hi _ 1 hlo hhi (by norm_num) (by simpa using h1) (by simpa using h2)

/-- The exact difference of finite values is rounded between any two finite values around it. -/
theorem sub_between (a b lo hi : F) (ha : finite a = true) (hb : finite b = true) (hlo : finite lo = true)
    (hhi : finite hi = true) (h1 : exact lo ≤ exact a - exact b) (h2 : exact a - exact b ≤ exact hi) :
    finite (sub a b) = true ∧ exact lo ≤ exact (sub a b) ∧ exact (sub a b) ≤ exact hi := by
  unfold sub
  exact add_between a (negate b) lo hi ha (by simpa using hb) hlo hhi
    (by rw [exact_negate]; linarith) (by rw [exact_negate]; linarith)

/-- The sign bit and the sign of the exact value agree. -/
theorem exact_sign (v : F) : if neg v then exact v ≤ 0 else 0 ≤ exact v := by
  unfold exact; cases neg v <;> simp

theorem oneUnits_eq : oneUnits = 2 ^ 1074 := by unfold oneUnits; rfl

theorem oneUnits_pos : 0 < oneUnits := oneUnits_eq ▸ Nat.two_pow_pos _

theorem oneUnits_pos_int : (0 : Int) < (oneUnits : Int) := by exact_mod_cast oneUnits_pos

/-- The exact product of finite values is rounded between any two finite values around it. -/
theorem mul_between (a b lo hi : F) (ha : finite a = true) (hb : finite b = true) (hlo : finite lo = true)
    (hhi : finite hi = true) (h1 : exact lo * oneUnits ≤ exact a * exact b)
    (h2 : exact a * exact b ≤ exact hi * oneUnits) :
    finite (mul a b) = true ∧ exact lo ≤ exact (mul a b) ∧ exact (mul a b) ≤ exact hi := by
  have hnan : (isNaN a || isNaN b) = false := by rw [isNaN_of_finite ha, isNaN_of_finite hb]; rfl
  have hinf : (isInf a || isInf b) = false := by rw [isInf_of_finite ha, isInf_of_finite hb]; rfl
  have hone : 0 < oneUnits := oneUnits_pos
  have habs : (exact a * exact b).natAbs = units a * units b := by
    rw [Int.natAbs_mul, exact_mag, exact_mag, ← units_eq, ← units_eq]
  have key := round64_between lo hi (exact a * exact b) oneUnits hlo hhi hone h1 h2
  rw [habs] at key
  unfold mul
  rw [hnan, hinf]
  simp only [Bool.false_eq_true, if_false]
  by_cases hz : exact a * exact b = 0
  · have hu : units a * units b = 0 := by rw [← habs, hz]; rfl
    rw [hu] at key ⊢
    have hr : ∀ s, round64 s 0 oneUnits = pack s 0 := by
      intro s
      have : roundMag 53 0 oneUnits = 0 := by
        have := roundMag_unitsMag 0 oneUnits hone
        have h0 : unitsMag 0 = 0 := by decide
        rw [h0, Nat.zero_mul] at this
        exact this
      rw [round64, this]; rfl
    rw [hr] at key ⊢
    rw [exact_pack_zero] at key ⊢
    exact ⟨finite_pack _ _ (by decide), key.2⟩
  · have hs : (neg a != neg b) = decide (exact a * exact b < 0) := by
      have ea : exact a ≠ 0 := fun h => hz (by rw [h, zero_mul])
      have eb : exact b ≠ 0 := fun h => hz (by rw [h, mul_zero])
      have sa := exact_sign a
      have sb := exact_sign b
      cases hna : neg a <;> cases hnb : neg b <;> rw [hna] at sa <;> rw [hnb] at sb <;>
        simp only [Bool.false_eq_true, if_true, if_false] at sa sb
      · have : 0 ≤ exact a * exact b := mul_nonneg sa sb
        simp; omega
      · have : exact a * exact b < 0 := mul_neg_of_pos_of_neg (lt_of_le_of_ne sa (Ne.symm ea)) (lt_of_le_of_ne sb eb)
        simp [this]
      · have : exact a * exact b < 0 := mul_neg_of_neg_of_pos (lt_of_le_of_ne sa ea) (lt_of_le_of_ne sb (Ne.symm eb))
        simp [this]
      · have : 0 ≤ exact a * exact b := mul_nonneg_of_nonpos_of_nonpos sa sb
        simp; omega
    rw [hs]
    exact key

theorem isNaN_pack (s : Bool) (m : Nat) (h : m ≤ infMag) : isNaN (pack s m) = false := by
  have := infMag_lt
  rw [isNaN, mag_pack s m (by omega)]
  exact decide_eq_false (by omega)

theorem isNaN_round64 (s : Bool) (n d : Nat) : isNaN (round64 s n d) = false :=
  isNaN_pack _ _ (Nat.min_le_right _ _)

/-- A product of finite values is no NaN. -/
theorem isNaN_mul (a b : F) (ha : finite a = true) (hb : finite b = true) : isNaN (mul a b) = false := by
  have hnan : (isNaN a || isNaN b) = false := by rw [isNaN_of_finite ha, isNaN_of_finite hb]; rfl
  have hinf : (isInf a || isInf b) = false := by rw [isInf_of_finite ha, isInf_of_finite hb]; rfl
  unfold mul
  rw [hnan, hinf]
  exact isNaN_round64 _ _ _

/-- A sum of a finite value and one that is no NaN is no NaN. -/
theorem isNaN_add (a b : F) (ha : finite a = true) (hb : isNaN b = false) : isNaN (add a b) = false := by
  have hnan : (isNaN a || isNaN b) = false := by rw [isNaN_of_finite ha, hb]; rfl
  unfold add
  rw [hnan, isInf_of_finite ha]
  simp only [Bool.false_eq_true, if_false]
  split
  · exact hb
  · split
    · exact isNaN_pack _ _ (by decide)
    · exact isNaN_round64 _ _ _

/-- `clamp` of a value that is no NaN lies between its finite limits. -/
theorem clamp_between (v lo hi : F) (hv : isNaN v = false) (hlo : finite lo = true) (hhi : finite hi = true)
    (h : exact lo ≤ exact hi) :
    finite (binary64.clamp v lo hi) = true ∧ exact lo ≤ exact (binary64.clamp v lo hi) ∧
      exact (binary64.clamp v lo hi) ≤ exact hi := by
  unfold NumRecord.clamp
  dsimp only
  split
  · exact ⟨hlo, le_rfl, h⟩
  · split
    · exact ⟨hhi, h, le_rfl⟩
    · rename_i h1 h2
      simp only [lt, hv, isNaN_of_finite hlo, isNaN_of_finite hhi, Bool.not_false, Bool.true_and,
        decide_eq_true_eq, not_lt] at h1 h2
      have hk1 := (exact_le_iff lo v).mpr h1
      have hk2 := (exact_le_iff v hi).mpr h2
      refine ⟨?_, hk1, hk2⟩
      rw [finite_iff] at *
      have hm : mag v ≤ max (mag lo) (mag hi) := by
        unfold key at h1 h2
        cases hn : neg v <;> cases hl : neg lo <;> cases hh : neg hi <;>
          simp only [hn, hl, hh, Bool.false_eq_true, if_true, if_false] at h1 h2 <;> omega
      omega

/-! ### The default record -/

/-- The record of an engine whose `NUM` is the default one. -/
theorem record_eq {p : Params} (h : p.num = .binary64) : p.record = binary64 := by rw [Params.record, h]

/-! ### Whole numbers -/

/-- A value below `2^53` units shifted is held exactly. -/
theorem round64_exact (z : Int) (q j : Nat) (hz : z.natAbs = q * 2 ^ j) (hq : q < 2 ^ 53)
    (hfin : q * 2 ^ j < unitsMag infMag) :
    finite (round64 (decide (z < 0)) z.natAbs 1) = true ∧ exact (round64 (decide (z < 0)) z.natAbs 1) = z := by
  have hu := unitsMag_roundMag q j hq
  have hlt : roundMag 53 z.natAbs 1 < infMag := by
    rw [hz]
    by_contra hc
    have := (unitsMag_le_iff infMag _).mpr (not_lt.mp hc)
    omega
  obtain ⟨hf, he⟩ := round64_value (decide (z < 0)) z.natAbs 1 hlt
  refine ⟨hf, ?_⟩
  rw [he, hz, hu, ← hz]
  by_cases h : z < 0
  · rw [decide_eq_true h, if_pos rfl]; omega
  · rw [decide_eq_false h]; simp only [Bool.false_eq_true, if_false]; omega

theorem two_pow_mul (a b : Nat) : 2 ^ a * 2 ^ b = 2 ^ (a + b) := (pow_add 2 a b).symm

theorem two_pow_le {a b : Nat} (h : a ≤ b) : 2 ^ a ≤ 2 ^ b := Nat.pow_le_pow_right (by decide) h

theorem unitsMag_inf : unitsMag infMag = 2 ^ 52 * 2 ^ 2046 := by
  have h : infMag = 2046 * 2 ^ 52 + 2 ^ 52 := by decide
  rw [h, unitsMag_join 2046 (2 ^ 52) (by norm_num) (.inr le_rfl)]

/-- A whole number below `2^53` is held exactly. -/
theorem ofInt_exact (i : Int) (h : i.natAbs < 2 ^ 53) :
    finite (ofInt i) = true ∧ exact (ofInt i) = i * oneUnits := by
  have hz : (i * oneUnits).natAbs = i.natAbs * oneUnits := by rw [Int.natAbs_mul, Int.natAbs_natCast]
  have hdec : decide (i * oneUnits < 0) = decide (i < 0) := by
    have hp : (0 : Int) < oneUnits := oneUnits_pos_int
    by_cases hi : i < 0
    · rw [decide_eq_true hi, decide_eq_true (mul_neg_of_neg_of_pos hi hp)]
    · rw [decide_eq_false hi, decide_eq_false (not_lt.mpr (mul_nonneg (not_lt.mp hi) hp.le))]
  have hfin : i.natAbs * oneUnits < unitsMag infMag := by
    rw [unitsMag_inf]
    refine lt_of_lt_of_le (Nat.mul_lt_mul_of_pos_right h oneUnits_pos) ?_
    rw [oneUnits_eq, two_pow_mul 53 1074, two_pow_mul 52 2046]
    exact two_pow_le (by decide)
  have := round64_exact (i * oneUnits) i.natAbs 1074 hz h hfin
  rw [hdec, hz] at this
  exact this

theorem floorI_eq (v : F) : binary64.floorI v = if finite v then some (exact v / oneUnits) else none := rfl

theorem ceilI_eq (v : F) : binary64.ceilI v = if finite v then some (-((-exact v) / oneUnits)) else none := rfl

/-- `floorI` of a finite value is the greatest whole number not above it. -/
theorem floor_spec (v : F) (i : Int) (h : binary64.floorI v = some i) :
    finite v = true ∧ i * oneUnits ≤ exact v ∧ exact v < (i + 1) * oneUnits := by
  rw [floorI_eq] at h
  split at h
  · rename_i hf
    simp only [Option.some.injEq] at h
    have hp : (0 : Int) < oneUnits := oneUnits_pos_int
    have h1 := Int.ediv_mul_add_emod (exact v) oneUnits
    have h2 := Int.emod_nonneg (exact v) hp.ne'
    have h3 := Int.emod_lt_of_pos (exact v) hp
    subst h
    refine ⟨hf, by linarith, ?_⟩
    rw [add_mul, one_mul]
    linarith
  · cases h

/-- `ceilI` of a finite value is the least whole number not below it. -/
theorem ceil_spec (v : F) (i : Int) (h : binary64.ceilI v = some i) :
    finite v = true ∧ (i - 1) * oneUnits < exact v ∧ exact v ≤ i * oneUnits := by
  rw [ceilI_eq] at h
  split at h
  · rename_i hf
    simp only [Option.some.injEq] at h
    have hp : (0 : Int) < oneUnits := oneUnits_pos_int
    have h1 := Int.ediv_mul_add_emod (-exact v) oneUnits
    have h2 := Int.emod_nonneg (-exact v) hp.ne'
    have h3 := Int.emod_lt_of_pos (-exact v) hp
    subst h
    refine ⟨hf, ?_, ?_⟩
    · rw [sub_mul, one_mul, neg_mul]; linarith
    · rw [neg_mul]; linarith
  · cases h

theorem floor_isSome {v : F} (h : finite v = true) : ∃ i, binary64.floorI v = some i := by
  rw [floorI_eq, h]; exact ⟨_, rfl⟩

theorem ceil_isSome {v : F} (h : finite v = true) : ∃ i, binary64.ceilI v = some i := by
  rw [ceilI_eq, h]; exact ⟨_, rfl⟩

theorem exact_zero : exact posZero = 0 := by decide

theorem exact_one : exact one = oneUnits := by
  have h := (ofInt_exact 1 (by norm_num)).2
  have h2 : ofInt 1 = one := by decide +kernel
  rw [h2, one_mul] at h
  exact h

theorem finite_zero : finite posZero = true := by decide
theorem finite_one : finite one = true := by decide

/-- The fraction of a finite value (00_scope.md R10) lies in `[0, 1]`, and for values that are not negative it
is exact and below 1. -/
theorem fraction_spec (v : F) (i : Int) (h : binary64.floorI v = some i) (hi : i.natAbs < 2 ^ 53) :
    finite (sub v (ofInt i)) = true ∧ 0 ≤ exact (sub v (ofInt i)) ∧ exact (sub v (ofInt i)) ≤ oneUnits := by
  obtain ⟨hf, h1, h2⟩ := floor_spec v i h
  obtain ⟨hif, hie⟩ := ofInt_exact i hi
  have := sub_between v (ofInt i) posZero one hf hif finite_zero finite_one
    (by rw [exact_zero, hie]; linarith) (by rw [exact_one, hie]; linarith)
  rw [exact_zero, exact_one] at this
  exact this

/-- Below `2^53` the fraction of a value that is not negative is exact and below 1. -/
theorem fraction_exact (v : F) (i : Int) (h : binary64.floorI v = some i) (hi : i.natAbs < 2 ^ 53) (hv : 0 ≤ exact v) :
    exact (sub v (ofInt i)) = exact v - i * oneUnits ∧ exact (sub v (ofInt i)) < oneUnits := by
  obtain ⟨hf, h1, h2⟩ := floor_spec v i h
  obtain ⟨hif, hie⟩ := ofInt_exact i hi
  have hlt : exact v - i * oneUnits < oneUnits := by rw [add_mul, one_mul] at h2; linarith
  have hnn : 0 ≤ exact v - i * oneUnits := by linarith
  suffices he : exact (sub v (ofInt i)) = exact v - i * oneUnits by exact ⟨he, by rw [he]; exact hlt⟩
  have hfn : finite (negate (ofInt i)) = true := by simpa using hif
  have hen : exact (negate (ofInt i)) = -(i * oneUnits) := by rw [exact_negate, hie]
  have hnan : (isNaN v || isNaN (negate (ofInt i))) = false := by
    rw [isNaN_of_finite hf, isNaN_of_finite hfn]; rfl
  unfold sub add
  rw [hnan, isInf_of_finite hf, isInf_of_finite hfn]
  simp only [Bool.false_eq_true, if_false, hen, ← sub_eq_add_neg]
  split
  · rename_i hz; rw [exact_pack_zero, hz]
  · generalize hz : exact v - i * oneUnits = z at *
    obtain ⟨k, q, _, hq, _, hu⟩ := unitsMag_split (mag v)
    have hev : exact v = ((q * 2 ^ k : Nat) : Int) := by
      rw [← hu]
      have h3 := exact_mag v
      have h4 : exact v = ((exact v).natAbs : Int) := (Int.natAbs_of_nonneg hv).symm
      rw [h4, h3]
    have hsmall : z.natAbs < oneUnits := by omega
    have hin : i * (oneUnits : Int) = exact v - z := by linarith
    -- the rest is `q' * 2 ^ j` with `q'` below `2 ^ 53`
    have hrep : ∃ q' j, z.natAbs = q' * 2 ^ j ∧ q' < 2 ^ 53 := by
      rcases Nat.le_total k 1074 with hk | hk
      · have hone : oneUnits = 2 ^ (1074 - k) * 2 ^ k := by
          rw [oneUnits_eq, two_pow_mul]; congr 1; omega
        have hd : ((2 ^ k : Nat) : Int) ∣ z := by
          have hz' : z = ((q * 2 ^ k : Nat) : Int) - i * ((2 ^ (1074 - k) * 2 ^ k : Nat) : Int) := by
            rw [← hone, ← hev]; linarith
          rw [hz']
          exact Dvd.dvd.sub (by exact_mod_cast Nat.dvd_mul_left _ _)
            (Dvd.dvd.mul_left (by exact_mod_cast Nat.dvd_mul_left _ _) _)
        have hd' : 2 ^ k ∣ z.natAbs := Int.natCast_dvd.mp hd
        obtain ⟨c, hc⟩ := hd'
        refine ⟨c, k, by rw [hc, Nat.mul_comm], ?_⟩
        have hle : z.natAbs ≤ q * 2 ^ k := by
          rcases lt_or_ge i 0 with hneg | hpos
          · have hp : (0 : Int) < oneUnits := oneUnits_pos_int
            have : i + 1 ≤ 0 := by omega
            have : (i + 1) * (oneUnits : Int) ≤ 0 := mul_nonpos_of_nonpos_of_nonneg this hp.le
            linarith
          · have hp : (0 : Int) ≤ i * oneUnits := mul_nonneg hpos oneUnits_pos_int.le
            omega
        rw [hc, Nat.mul_comm] at hle
        exact lt_of_le_of_lt (Nat.le_of_mul_le_mul_right hle (Nat.two_pow_pos k)) hq
      · have hd : (oneUnits : Int) ∣ z := by
          have hone : ((q * 2 ^ k : Nat) : Int) = ((q * 2 ^ (k - 1074) * oneUnits : Nat) : Int) := by
            rw [oneUnits_eq, Nat.mul_assoc, two_pow_mul]; congr 3; omega
          have hz' : z = ((q * 2 ^ (k - 1074) * oneUnits : Nat) : Int) - i * (oneUnits : Int) := by
            rw [← hone, ← hev]; linarith
          rw [hz']
          exact Dvd.dvd.sub (by exact_mod_cast Nat.dvd_mul_left _ _) (Dvd.intro_left _ rfl)
        have hd' : oneUnits ∣ z.natAbs := Int.natCast_dvd.mp hd
        have h0 : z.natAbs = 0 := Nat.eq_zero_of_dvd_of_lt hd' hsmall
        exact ⟨0, 0, by simp [h0], by decide⟩
    obtain ⟨q', j, hqj, hq'⟩ := hrep
    have := (round64_exact z q' j hqj hq' (by
      rw [← hqj, unitsMag_inf, two_pow_mul]
      refine lt_of_lt_of_le hsmall ?_
      rw [oneUnits_eq]
      exact two_pow_le (by decide))).2
    exact this

/-- Rounding is monotone: a greater exact result is not rounded to a smaller value. -/
theorem round64_mono (z w : Int) (d : Nat) (hd : 0 < d) (h : z ≤ w)
    (hz : finite (round64 (decide (z < 0)) z.natAbs d) = true) (hw : finite (round64 (decide (w < 0)) w.natAbs d) = true) :
    exact (round64 (decide (z < 0)) z.natAbs d) ≤ exact (round64 (decide (w < 0)) w.natAbs d) := by
  have hfin : ∀ y : Int, finite (round64 (decide (y < 0)) y.natAbs d) = true → roundMag 53 y.natAbs d < infMag := by
    intro y hy
    rw [finite_iff, round64, mag_pack _ _ (lt_of_le_of_lt (Nat.min_le_right _ _) infMag_lt)] at hy
    omega
  rw [(round64_value _ _ _ (hfin z hz)).2, (round64_value _ _ _ (hfin w hw)).2]
  rcases lt_or_ge z 0 with h1 | h1 <;> rcases lt_or_ge w 0 with h2 | h2
  · have hm : roundMag 53 w.natAbs d ≤ roundMag 53 z.natAbs d :=
      roundMag_mono 53 _ _ _ _ (by norm_num) hd hd (Nat.mul_le_mul_right _ (by omega))
    have := (unitsMag_le_iff _ _).mpr hm
    simp only [h1, h2, decide_true, if_true]
    omega
  · have h3 : ¬w < 0 := by omega
    simp only [h1, h3, decide_true, decide_false, if_true, Bool.false_eq_true, if_false]
    omega
  · omega
  · have hm : roundMag 53 z.natAbs d ≤ roundMag 53 w.natAbs d :=
      roundMag_mono 53 _ _ _ _ (by norm_num) hd hd (Nat.mul_le_mul_right _ (by omega))
    have := (unitsMag_le_iff _ _).mpr hm
    have h3 : ¬z < 0 := by omega
    have h4 : ¬w < 0 := by omega
    simp only [h3, h4, decide_false, Bool.false_eq_true, if_false]
    omega

/-- A smaller exact result `>= 0` is rounded to a finite value where a greater one is. -/
theorem round64_finite_of_le (z w : Int) (h0 : 0 ≤ z) (h : z ≤ w)
    (hw : finite (round64 (decide (w < 0)) w.natAbs 1) = true) :
    finite (round64 (decide (z < 0)) z.natAbs 1) = true := by
  have hm : roundMag 53 z.natAbs 1 ≤ roundMag 53 w.natAbs 1 :=
    roundMag_mono 53 _ _ _ _ (by norm_num) (by norm_num) (by norm_num) (by omega)
  rw [finite_iff, round64, mag_pack _ _ (lt_of_le_of_lt (Nat.min_le_right _ _) infMag_lt)] at *
  omega

/-- A sum of finite values is its exact sum, rounded; a zero sum is a zero. -/
theorem exact_add (a b : F) (ha : finite a = true) (hb : finite b = true) :
    (finite (add a b) = true ↔ finite (round64 (decide (exact a + exact b < 0)) (exact a + exact b).natAbs 1) = true) ∧
    exact (add a b) = exact (round64 (decide (exact a + exact b < 0)) (exact a + exact b).natAbs 1) := by
  have hnan : (isNaN a || isNaN b) = false := by rw [isNaN_of_finite ha, isNaN_of_finite hb]; rfl
  unfold add
  rw [hnan, isInf_of_finite ha, isInf_of_finite hb]
  simp only [Bool.false_eq_true, if_false]
  split
  · rename_i hz
    rw [hz, exact_pack_zero]
    have h0 := round64_exact 0 0 0 rfl (by decide) (by rw [unitsMag_inf]; positivity)
    rw [h0.2]
    exact ⟨⟨fun _ => h0.1, fun _ => finite_pack _ _ (by decide)⟩, rfl⟩
  · exact ⟨Iff.rfl, rfl⟩

/-- Addition is monotone. -/
theorem add_mono (a b c d : F) (ha : finite a = true) (hb : finite b = true) (hc : finite c = true)
    (hd : finite d = true) (h1 : finite (add a b) = true) (h2 : finite (add c d) = true)
    (h : exact a + exact b ≤ exact c + exact d) : exact (add a b) ≤ exact (add c d) := by
  obtain ⟨f1, e1⟩ := exact_add a b ha hb
  obtain ⟨f2, e2⟩ := exact_add c d hc hd
  rw [e1, e2]
  exact round64_mono _ _ 1 (by norm_num) h (f1.mp h1) (f2.mp h2)

end Sys2Proof.Machine.NUM
end

