-- ==== Sys2Proof/Laws/Decode.lean ====
section
/-! SUPPORT. The fields of a header word and the words of a value of `F`, read back (30_encoding.md R91, R93). -/

namespace Sys2Proof

@[simp] theorem opcOf_header (o : BitVec 8) (k : BitVec 4) (a : BitVec 12) (b : BitVec 8) :
    opcOf (header o k a b) = o := by
  apply BitVec.eq_of_getLsbD_eq
  intro i hi
  simp only [opcOf, header, BitVec.getLsbD_extractLsb', BitVec.getLsbD_append, hi, decide_true, Bool.true_and]
  have h1 : ¬ 24 + i < 8 := by omega
  have h2 : ¬ 24 + i - 8 < 12 := by omega
  have h3 : ¬ 24 + i - 8 - 12 < 4 := by omega
  have h4 : 24 + i - 8 - 12 - 4 = i := by omega
  simp [h1, h2, h3, h4]

@[simp] theorem slotOf_header (o : BitVec 8) (k : BitVec 4) (a : BitVec 12) (b : BitVec 8) :
    slotOf (header o k a b) = k := by
  apply BitVec.eq_of_getLsbD_eq
  intro i hi
  simp only [slotOf, header, BitVec.getLsbD_extractLsb', BitVec.getLsbD_append, hi, decide_true, Bool.true_and]
  have h1 : ¬ 20 + i < 8 := by omega
  have h2 : ¬ 20 + i - 8 < 12 := by omega
  have h3 : 20 + i - 8 - 12 < 4 := by omega
  have h4 : 20 + i - 8 - 12 = i := by omega
  simp [h1, h2, h4, hi]

@[simp] theorem argOf_header (o : BitVec 8) (k : BitVec 4) (a : BitVec 12) (b : BitVec 8) :
    argOf (header o k a b) = a := by
  apply BitVec.eq_of_getLsbD_eq
  intro i hi
  simp only [argOf, header, BitVec.getLsbD_extractLsb', BitVec.getLsbD_append, hi, decide_true, Bool.true_and]
  have h1 : ¬ 8 + i < 8 := by omega
  have h4 : 8 + i - 8 = i := by omega
  simp [h4, hi]

@[simp] theorem arg2Of_header (o : BitVec 8) (k : BitVec 4) (a : BitVec 12) (b : BitVec 8) :
    arg2Of (header o k a b) = b := by
  apply BitVec.eq_of_getLsbD_eq
  intro i hi
  simp only [arg2Of, header, BitVec.getLsbD_extractLsb', BitVec.getLsbD_append, hi, decide_true, Bool.true_and]
  simp [hi]

/-- A header and a must-be-zero mask, field by field. -/
theorem header_and (o o' : BitVec 8) (k k' : BitVec 4) (a a' : BitVec 12) (b b' : BitVec 8) :
    header o k a b &&& header o' k' a' b' = header (o &&& o') (k &&& k') (a &&& a') (b &&& b') := by
  unfold header
  rw [BitVec.and_append, BitVec.and_append, BitVec.and_append]

/-- A word is the header of its fields. -/
theorem header_fields (h : Word) : header (opcOf h) (slotOf h) (argOf h) (arg2Of h) = h := by
  apply BitVec.eq_of_getLsbD_eq
  intro i hi
  simp only [header, opcOf, slotOf, argOf, arg2Of, BitVec.getLsbD_append, BitVec.getLsbD_extractLsb']
  by_cases h1 : i < 8
  · simp [h1]
  · by_cases h2 : i - 8 < 12
    · have : 8 + (i - 8) = i := by omega
      simp [h1, h2, this]
    · by_cases h3 : i - 8 - 12 < 4
      · have : 20 + (i - 8 - 12) = i := by omega
        simp [h1, h2, h3, this]
      · have h4 : i - 8 - 12 - 4 < 8 := by omega
        have : 24 + (i - 8 - 12 - 4) = i := by omega
        simp [h1, h2, h3, h4, this]

/-- A value of `F` from its two words (20_memory.md R62). -/
@[simp] theorem fOf_words (v : F) : fOf (v.extractLsb' 0 32) (v.extractLsb' 32 32) = v := by
  apply BitVec.eq_of_getLsbD_eq
  intro i hi
  simp only [fOf, BitVec.getLsbD_append, BitVec.getLsbD_extractLsb']
  by_cases h : i < 32
  · simp [h]
  · have h2 : i - 32 < 32 := by omega
    have h3 : 32 + (i - 32) = i := by omega
    simp [h, h2, h3]

theorem fOf_getLsbD (w0 w1 : Word) (i : Nat) :
    (fOf w0 w1).getLsbD i = if i < 32 then w0.getLsbD i else w1.getLsbD (i - 32) := BitVec.getLsbD_append

/-- The words of a value of `F` made from two words. -/
@[simp] theorem fWords_fOf (w0 w1 : Word) : fWords (fOf w0 w1) = [w0, w1] := by
  have h0 : (fOf w0 w1).extractLsb' 0 32 = w0 := by
    apply BitVec.eq_of_getLsbD_eq
    intro i hi
    rw [BitVec.getLsbD_extractLsb', fOf_getLsbD]
    simp [hi]
  have h1 : (fOf w0 w1).extractLsb' 32 32 = w1 := by
    apply BitVec.eq_of_getLsbD_eq
    intro i hi
    rw [BitVec.getLsbD_extractLsb', fOf_getLsbD]
    simp [hi]
  rw [fWords, h0, h1]

@[simp] theorem fWords_length (v : F) : (fWords v).length = 2 := rfl

@[simp] theorem flatMap_fWords_length (vs : List F) : (vs.flatMap fWords).length = 2 * vs.length := by
  induction vs with
  | nil => rfl
  | cons v vs ih => simp only [List.flatMap_cons, List.length_append, ih, fWords_length, List.length_cons]; omega

/-- A payload of values reads back as the values written. -/
@[simp] theorem fsOf_flatMap (vs : List F) : fsOf (vs.flatMap fWords) = vs := by
  induction vs with
  | nil => rfl
  | cons v vs ih =>
    have : (v :: vs).flatMap fWords = v.extractLsb' 0 32 :: v.extractLsb' 32 32 :: vs.flatMap fWords := rfl
    rw [this, fsOf, ih, fOf_words]

/-- A payload of an even number of words holds half as many values, and is their words. -/
theorem flatMap_fsOf (n : Nat) (ws : List Word) (h : ws.length = 2 * n) :
    (fsOf ws).length = n ∧ (fsOf ws).flatMap fWords = ws := by
  induction n generalizing ws with
  | zero => cases ws with
    | nil => exact ⟨rfl, rfl⟩
    | cons => simp at h
  | succ n ih =>
    match ws, h with
    | w0 :: w1 :: ws, h =>
      obtain ⟨h1, h2⟩ := ih ws (by simp only [List.length_cons] at h; omega)
      exact ⟨by simp [fsOf, h1], by simp [fsOf, h2]⟩

/-- The one-bit flag field reads back. -/
theorem flagArg_getLsbD (b : Bool) : (flagArg b).getLsbD 0 = b := by cases b <;> rfl

@[simp] theorem flagArg_getElem (b : Bool) : (flagArg b)[0] = b := by cases b <;> rfl

/-- A field whose other bits are clear is its one flag bit. -/
theorem flagArg_of_mbz (a : BitVec 12) (h : a &&& 0xFFE#12 = 0#12) : flagArg (a.getLsbD 0) = a := by
  revert a; decide

/-- The narrower fields of `CFG.STR` read back, and a field whose other bits are clear is the narrower one. -/
@[simp] theorem lognph_field (x : BitVec 4) : (x.setWidth 12).extractLsb' 0 4 = x := by revert x; decide
@[simp] theorem nt_field (x : BitVec 5) : (x.setWidth 8).extractLsb' 0 5 = x := by revert x; decide
theorem lognph_of_mbz (a : BitVec 12) (h : a &&& 0xFF0#12 = 0#12) : (a.extractLsb' 0 4).setWidth 12 = a := by
  revert a; decide
theorem nt_of_mbz (b : BitVec 8) (h : b &&& 0xE0#8 = 0#8) : (b.extractLsb' 0 5).setWidth 8 = b := by
  revert b; decide

theorem rateWord_getLsbD (l m : BitVec 16) (i : Nat) :
    (l ++ m : Word).getLsbD i = if i < 16 then m.getLsbD i else l.getLsbD (i - 16) := BitVec.getLsbD_append

/-- The rate word reads back (R93). -/
@[simp] theorem lOf_append (l m : BitVec 16) : lOf (l ++ m) = l := by
  apply BitVec.eq_of_getLsbD_eq
  intro i hi
  rw [lOf, BitVec.getLsbD_extractLsb', rateWord_getLsbD]
  simp [hi]

@[simp] theorem mOf_append (l m : BitVec 16) : mOf (l ++ m) = m := by
  apply BitVec.eq_of_getLsbD_eq
  intro i hi
  rw [mOf, BitVec.getLsbD_extractLsb', rateWord_getLsbD]
  simp [hi]

/-- A rate word is its two halves. -/
@[simp] theorem lOf_mOf (w : Word) : (lOf w ++ mOf w : Word) = w := by
  apply BitVec.eq_of_getLsbD_eq
  intro i hi
  rw [rateWord_getLsbD, lOf, mOf]
  by_cases h : i < 16
  · simp [h]
  · have h2 : i - 16 < 16 := by omega
    have h3 : 16 + (i - 16) = i := by omega
    simp [h, h2, h3]

/-- What the decoder finds, by cases: the one lemma through which statements about the command port go. -/
theorem decode_instr {ws rest : List Word} {i : Instr} (h : decode ws = .instr i rest) :
    ∃ hd tail mbz, ws = hd :: tail ∧ mbzMask (opcOf hd) = some mbz ∧ plen hd ≤ tail.length ∧ hd &&& mbz = 0#32 ∧
      build hd (tail.take (plen hd)) = some i ∧ rest = tail.drop (plen hd) := by
  unfold decode at h
  cases ws with
  | nil => cases h
  | cons hd tail =>
    simp only at h
    cases hm : mbzMask (opcOf hd) with
    | none => rw [hm] at h; cases h
    | some mbz =>
      rw [hm] at h
      simp only at h
      split at h
      · cases h
      · rename_i hlen
        split at h
        · cases h
        · rename_i hz
          cases hb : build hd (tail.take (plen hd)) with
          | none => rw [hb] at h; cases h
          | some j =>
            rw [hb] at h
            injection h with h1 h2
            exact ⟨hd, tail, mbz, rfl, hm, not_lt.mp hlen, not_not.mp hz, by rw [hb, h1], h2.symm⟩

end Sys2Proof
end

