-- ==== Sys2Proof/Laws/State.lean ====
section
/-! SUPPORT. What each named update of the state leaves and what it writes: one lemma per field, true by `rfl`. -/

namespace Sys2Proof.Machine

variable (s : State)

@[simp] theorem setSlot_par (k : Nat) (x : Slot) : (s.setSlot k x).par = s.par := rfl
@[simp] theorem setSlot_lc (k : Nat) (x : Slot) : (s.setSlot k x).lc = s.lc := rfl
@[simp] theorem setSlot_fcode (k : Nat) (x : Slot) : (s.setSlot k x).fcode = s.fcode := rfl
@[simp] theorem setSlot_fslot (k : Nat) (x : Slot) : (s.setSlot k x).fslot = s.fslot := rfl
@[simp] theorem setSlot_nstg (k : Nat) (x : Slot) : (s.setSlot k x).nstg = s.nstg := rfl
@[simp] theorem setSlot_pend (k : Nat) (x : Slot) : (s.setSlot k x).pend = s.pend := rfl
@[simp] theorem setSlot_actv (k : Nat) (x : Slot) : (s.setSlot k x).actv = s.actv := rfl
@[simp] theorem setSlot_slots (k : Nat) (x : Slot) : (s.setSlot k x).slots = s.slots.set k x := rfl
@[simp] theorem setSlot_rings (k : Nat) (x : Slot) : (s.setSlot k x).rings = s.rings := rfl
@[simp] theorem setSlot_cmdIn (k : Nat) (x : Slot) : (s.setSlot k x).cmdIn = s.cmdIn := rfl
@[simp] theorem setSlot_resp (k : Nat) (x : Slot) : (s.setSlot k x).resp = s.resp := rfl
@[simp] theorem setSlot_srcIn (k : Nat) (x : Slot) : (s.setSlot k x).srcIn = s.srcIn := rfl
@[simp] theorem setSlot_snkOut (k : Nat) (x : Slot) : (s.setSlot k x).snkOut = s.snkOut := rfl
@[simp] theorem setSlot_plan (k : Nat) (x : Slot) : (s.setSlot k x).plan = s.plan := rfl
@[simp] theorem setSlot_turn (k : Nat) (x : Slot) : (s.setSlot k x).turn = s.turn := rfl

@[simp] theorem setRing_par (e : Nat) (r : Ring) : (s.setRing e r).par = s.par := rfl
@[simp] theorem setRing_lc (e : Nat) (r : Ring) : (s.setRing e r).lc = s.lc := rfl
@[simp] theorem setRing_fcode (e : Nat) (r : Ring) : (s.setRing e r).fcode = s.fcode := rfl
@[simp] theorem setRing_fslot (e : Nat) (r : Ring) : (s.setRing e r).fslot = s.fslot := rfl
@[simp] theorem setRing_nstg (e : Nat) (r : Ring) : (s.setRing e r).nstg = s.nstg := rfl
@[simp] theorem setRing_pend (e : Nat) (r : Ring) : (s.setRing e r).pend = s.pend := rfl
@[simp] theorem setRing_actv (e : Nat) (r : Ring) : (s.setRing e r).actv = s.actv := rfl
@[simp] theorem setRing_slots (e : Nat) (r : Ring) : (s.setRing e r).slots = s.slots := rfl
@[simp] theorem setRing_rings (e : Nat) (r : Ring) : (s.setRing e r).rings = s.rings.set e r := rfl
@[simp] theorem setRing_cmdIn (e : Nat) (r : Ring) : (s.setRing e r).cmdIn = s.cmdIn := rfl
@[simp] theorem setRing_resp (e : Nat) (r : Ring) : (s.setRing e r).resp = s.resp := rfl
@[simp] theorem setRing_srcIn (e : Nat) (r : Ring) : (s.setRing e r).srcIn = s.srcIn := rfl
@[simp] theorem setRing_snkOut (e : Nat) (r : Ring) : (s.setRing e r).snkOut = s.snkOut := rfl
@[simp] theorem setRing_plan (e : Nat) (r : Ring) : (s.setRing e r).plan = s.plan := rfl
@[simp] theorem setRing_turn (e : Nat) (r : Ring) : (s.setRing e r).turn = s.turn := rfl

@[simp] theorem deq_par (e n : Nat) : (s.deq e n).par = s.par := rfl
@[simp] theorem deq_lc (e n : Nat) : (s.deq e n).lc = s.lc := rfl
@[simp] theorem deq_fcode (e n : Nat) : (s.deq e n).fcode = s.fcode := rfl
@[simp] theorem deq_fslot (e n : Nat) : (s.deq e n).fslot = s.fslot := rfl
@[simp] theorem deq_nstg (e n : Nat) : (s.deq e n).nstg = s.nstg := rfl
@[simp] theorem deq_pend (e n : Nat) : (s.deq e n).pend = s.pend := rfl
@[simp] theorem deq_actv (e n : Nat) : (s.deq e n).actv = s.actv := rfl
@[simp] theorem deq_slots (e n : Nat) : (s.deq e n).slots = s.slots := rfl
@[simp] theorem deq_rings (e n : Nat) : (s.deq e n).rings = s.rings.set e { s.ring e with queue := (s.ring e).queue.drop n } := rfl
@[simp] theorem deq_cmdIn (e n : Nat) : (s.deq e n).cmdIn = s.cmdIn := rfl
@[simp] theorem deq_resp (e n : Nat) : (s.deq e n).resp = s.resp := rfl
@[simp] theorem deq_srcIn (e n : Nat) : (s.deq e n).srcIn = s.srcIn := rfl
@[simp] theorem deq_snkOut (e n : Nat) : (s.deq e n).snkOut = s.snkOut := rfl
@[simp] theorem deq_plan (e n : Nat) : (s.deq e n).plan = s.plan := rfl
@[simp] theorem deq_turn (e n : Nat) : (s.deq e n).turn = s.turn := rfl

@[simp] theorem enq_par (e : Nat) (xs : List Sample) : (s.enq e xs).par = s.par := rfl
@[simp] theorem enq_lc (e : Nat) (xs : List Sample) : (s.enq e xs).lc = s.lc := rfl
@[simp] theorem enq_fcode (e : Nat) (xs : List Sample) : (s.enq e xs).fcode = s.fcode := rfl
@[simp] theorem enq_fslot (e : Nat) (xs : List Sample) : (s.enq e xs).fslot = s.fslot := rfl
@[simp] theorem enq_nstg (e : Nat) (xs : List Sample) : (s.enq e xs).nstg = s.nstg := rfl
@[simp] theorem enq_pend (e : Nat) (xs : List Sample) : (s.enq e xs).pend = s.pend := rfl
@[simp] theorem enq_actv (e : Nat) (xs : List Sample) : (s.enq e xs).actv = s.actv := rfl
@[simp] theorem enq_slots (e : Nat) (xs : List Sample) : (s.enq e xs).slots = s.slots := rfl
@[simp] theorem enq_rings (e : Nat) (xs : List Sample) : (s.enq e xs).rings = s.rings.set e { s.ring e with queue := (s.ring e).queue ++ xs } := rfl
@[simp] theorem enq_cmdIn (e : Nat) (xs : List Sample) : (s.enq e xs).cmdIn = s.cmdIn := rfl
@[simp] theorem enq_resp (e : Nat) (xs : List Sample) : (s.enq e xs).resp = s.resp := rfl
@[simp] theorem enq_srcIn (e : Nat) (xs : List Sample) : (s.enq e xs).srcIn = s.srcIn := rfl
@[simp] theorem enq_snkOut (e : Nat) (xs : List Sample) : (s.enq e xs).snkOut = s.snkOut := rfl
@[simp] theorem enq_plan (e : Nat) (xs : List Sample) : (s.enq e xs).plan = s.plan := rfl
@[simp] theorem enq_turn (e : Nat) (xs : List Sample) : (s.enq e xs).turn = s.turn := rfl

@[simp] theorem respond_par (c : Status) (info : BitVec 24) : (s.respond c info).par = s.par := rfl
@[simp] theorem respond_lc (c : Status) (info : BitVec 24) : (s.respond c info).lc = s.lc := rfl
@[simp] theorem respond_fcode (c : Status) (info : BitVec 24) : (s.respond c info).fcode = s.fcode := rfl
@[simp] theorem respond_fslot (c : Status) (info : BitVec 24) : (s.respond c info).fslot = s.fslot := rfl
@[simp] theorem respond_nstg (c : Status) (info : BitVec 24) : (s.respond c info).nstg = s.nstg := rfl
@[simp] theorem respond_pend (c : Status) (info : BitVec 24) : (s.respond c info).pend = s.pend := rfl
@[simp] theorem respond_actv (c : Status) (info : BitVec 24) : (s.respond c info).actv = s.actv := rfl
@[simp] theorem respond_slots (c : Status) (info : BitVec 24) : (s.respond c info).slots = s.slots := rfl
@[simp] theorem respond_rings (c : Status) (info : BitVec 24) : (s.respond c info).rings = s.rings := rfl
@[simp] theorem respond_cmdIn (c : Status) (info : BitVec 24) : (s.respond c info).cmdIn = s.cmdIn := rfl
@[simp] theorem respond_resp (c : Status) (info : BitVec 24) : (s.respond c info).resp = s.resp ++ [statusWord c info] := rfl
@[simp] theorem respond_srcIn (c : Status) (info : BitVec 24) : (s.respond c info).srcIn = s.srcIn := rfl
@[simp] theorem respond_snkOut (c : Status) (info : BitVec 24) : (s.respond c info).snkOut = s.snkOut := rfl
@[simp] theorem respond_plan (c : Status) (info : BitVec 24) : (s.respond c info).plan = s.plan := rfl
@[simp] theorem respond_turn (c : Status) (info : BitVec 24) : (s.respond c info).turn = s.turn := rfl

@[simp] theorem respondData_par (c : Status) (info : BitVec 24) (v : BitVec 64) : (s.respondData c info v).par = s.par := rfl
@[simp] theorem respondData_lc (c : Status) (info : BitVec 24) (v : BitVec 64) : (s.respondData c info v).lc = s.lc := rfl
@[simp] theorem respondData_fcode (c : Status) (info : BitVec 24) (v : BitVec 64) : (s.respondData c info v).fcode = s.fcode := rfl
@[simp] theorem respondData_fslot (c : Status) (info : BitVec 24) (v : BitVec 64) : (s.respondData c info v).fslot = s.fslot := rfl
@[simp] theorem respondData_nstg (c : Status) (info : BitVec 24) (v : BitVec 64) : (s.respondData c info v).nstg = s.nstg := rfl
@[simp] theorem respondData_pend (c : Status) (info : BitVec 24) (v : BitVec 64) : (s.respondData c info v).pend = s.pend := rfl
@[simp] theorem respondData_actv (c : Status) (info : BitVec 24) (v : BitVec 64) : (s.respondData c info v).actv = s.actv := rfl
@[simp] theorem respondData_slots (c : Status) (info : BitVec 24) (v : BitVec 64) : (s.respondData c info v).slots = s.slots := rfl
@[simp] theorem respondData_rings (c : Status) (info : BitVec 24) (v : BitVec 64) : (s.respondData c info v).rings = s.rings := rfl
@[simp] theorem respondData_cmdIn (c : Status) (info : BitVec 24) (v : BitVec 64) : (s.respondData c info v).cmdIn = s.cmdIn := rfl
@[simp] theorem respondData_resp (c : Status) (info : BitVec 24) (v : BitVec 64) : (s.respondData c info v).resp = s.resp ++ [statusWord c info, v.extractLsb' 0 32, v.extractLsb' 32 32] := rfl
@[simp] theorem respondData_srcIn (c : Status) (info : BitVec 24) (v : BitVec 64) : (s.respondData c info v).srcIn = s.srcIn := rfl
@[simp] theorem respondData_snkOut (c : Status) (info : BitVec 24) (v : BitVec 64) : (s.respondData c info v).snkOut = s.snkOut := rfl
@[simp] theorem respondData_plan (c : Status) (info : BitVec 24) (v : BitVec 64) : (s.respondData c info v).plan = s.plan := rfl
@[simp] theorem respondData_turn (c : Status) (info : BitVec 24) (v : BitVec 64) : (s.respondData c info v).turn = s.turn := rfl

@[simp] theorem adopt_par : (s.adopt).par = s.par := rfl
@[simp] theorem adopt_lc : (s.adopt).lc = s.lc := rfl
@[simp] theorem adopt_fcode : (s.adopt).fcode = s.fcode := rfl
@[simp] theorem adopt_fslot : (s.adopt).fslot = s.fslot := rfl
@[simp] theorem adopt_nstg : (s.adopt).nstg = s.nstg := rfl
@[simp] theorem adopt_pend : (s.adopt).pend = s.pend := rfl
@[simp] theorem adopt_actv : (s.adopt).actv = s.pend := rfl
@[simp] theorem adopt_slots : (s.adopt).slots = s.slots.map fun x => { x with taps := x.taps.adopt } := rfl
@[simp] theorem adopt_rings : (s.adopt).rings = s.rings := rfl
@[simp] theorem adopt_cmdIn : (s.adopt).cmdIn = s.cmdIn := rfl
@[simp] theorem adopt_resp : (s.adopt).resp = s.resp := rfl
@[simp] theorem adopt_srcIn : (s.adopt).srcIn = s.srcIn := rfl
@[simp] theorem adopt_snkOut : (s.adopt).snkOut = s.snkOut := rfl
@[simp] theorem adopt_plan : (s.adopt).plan = s.plan := rfl
@[simp] theorem adopt_turn : (s.adopt).turn = s.turn := rfl

@[simp] theorem derive_par : (s.derive).par = s.par := rfl
@[simp] theorem derive_lc : (s.derive).lc = s.lc := rfl
@[simp] theorem derive_fcode : (s.derive).fcode = s.fcode := rfl
@[simp] theorem derive_fslot : (s.derive).fslot = s.fslot := rfl
@[simp] theorem derive_nstg : (s.derive).nstg = s.nstg := rfl
@[simp] theorem derive_pend : (s.derive).pend = s.pend := rfl
@[simp] theorem derive_actv : (s.derive).actv = s.actv := rfl
@[simp] theorem derive_slots : (s.derive).slots = mapFirst s.nstg (deriveSlot s.par.record s.actv) s.slots := rfl
@[simp] theorem derive_rings : (s.derive).rings = s.rings := rfl
@[simp] theorem derive_cmdIn : (s.derive).cmdIn = s.cmdIn := rfl
@[simp] theorem derive_resp : (s.derive).resp = s.resp := rfl
@[simp] theorem derive_srcIn : (s.derive).srcIn = s.srcIn := rfl
@[simp] theorem derive_snkOut : (s.derive).snkOut = s.snkOut := rfl
@[simp] theorem derive_plan : (s.derive).plan = s.plan := rfl
@[simp] theorem derive_turn : (s.derive).turn = s.turn := rfl

@[simp] theorem resetEngine_par : (s.resetEngine).par = s.par := rfl
@[simp] theorem resetEngine_lc : (s.resetEngine).lc = .idle := rfl
@[simp] theorem resetEngine_fcode : (s.resetEngine).fcode = .noFault := rfl
@[simp] theorem resetEngine_fslot : (s.resetEngine).fslot = 0#4 := rfl
@[simp] theorem resetEngine_nstg : (s.resetEngine).nstg = 0 := rfl
@[simp] theorem resetEngine_pend : (s.resetEngine).pend = Tunables.zero := rfl
@[simp] theorem resetEngine_actv : (s.resetEngine).actv = Tunables.zero := rfl
@[simp] theorem resetEngine_slots : (s.resetEngine).slots = List.replicate s.par.nslot (Slot.reset s.par) := rfl
@[simp] theorem resetEngine_rings : (s.resetEngine).rings = List.replicate (s.par.nslot + 1) Ring.reset := rfl
@[simp] theorem resetEngine_cmdIn : (s.resetEngine).cmdIn = s.cmdIn := rfl
@[simp] theorem resetEngine_resp : (s.resetEngine).resp = s.resp := rfl
@[simp] theorem resetEngine_srcIn : (s.resetEngine).srcIn = s.srcIn := rfl
@[simp] theorem resetEngine_snkOut : (s.resetEngine).snkOut = s.snkOut := rfl
@[simp] theorem resetEngine_plan : (s.resetEngine).plan = s.plan := rfl
@[simp] theorem resetEngine_turn : (s.resetEngine).turn = s.turn := rfl

/-! ### Reading a slot or a ring after a write -/

@[simp] theorem respond_slot (c : Status) (info : BitVec 24) (k : Nat) : (s.respond c info).slot k = s.slot k := rfl
@[simp] theorem respond_ring (c : Status) (info : BitVec 24) (e : Nat) : (s.respond c info).ring e = s.ring e := rfl
@[simp] theorem setRing_slot (e : Nat) (r : Ring) (k : Nat) : (s.setRing e r).slot k = s.slot k := rfl
@[simp] theorem setSlot_ring (k : Nat) (x : Slot) (e : Nat) : (s.setSlot k x).ring e = s.ring e := rfl
@[simp] theorem deq_slot (e n k : Nat) : (s.deq e n).slot k = s.slot k := rfl
@[simp] theorem enq_slot (e : Nat) (xs : List Sample) (k : Nat) : (s.enq e xs).slot k = s.slot k := rfl

/-- A slot reads as it was written. -/
theorem setSlot_slot_same (k : Nat) (x : Slot) (h : k < s.slots.length) : (s.setSlot k x).slot k = x := by
  simp [State.slot, h]

/-- A write of one slot leaves the others. -/
theorem setSlot_slot_other (k j : Nat) (x : Slot) (h : j ≠ k) : (s.setSlot k x).slot j = s.slot j := by
  simp [State.slot, List.getElem?_set_ne (Ne.symm h)]

/-- A ring reads as it was written. -/
theorem setRing_ring_same (e : Nat) (r : Ring) (h : e < s.rings.length) : (s.setRing e r).ring e = r := by
  simp [State.ring, h]

/-- A write of one ring leaves the others. -/
theorem setRing_ring_other (e j : Nat) (r : Ring) (h : j ≠ e) : (s.setRing e r).ring j = s.ring j := by
  simp [State.ring, List.getElem?_set_ne (Ne.symm h)]

/-- Fault entry (60_exceptions.md R320) changes the lifecycle and the latch, and those only outside `FAULTED`. -/
theorem raiseFault_cases (c : FaultCode) (k : BitVec 4) :
    (s.lc = .faulted ∧ s.raiseFault c k = s) ∨
      (s.lc ≠ .faulted ∧ s.raiseFault c k = { s with lc := .faulted, fcode := c, fslot := k }) := by
  by_cases h : s.lc = .faulted <;> simp [State.raiseFault, h]

/-- After fault entry the engine is `FAULTED`. -/
@[simp] theorem raiseFault_lc (c : FaultCode) (k : BitVec 4) : (s.raiseFault c k).lc = .faulted := by
  rcases raiseFault_cases s c k with ⟨h, e⟩ | ⟨_, e⟩ <;> simp [*]

@[simp] theorem raiseFault_par (c : FaultCode) (k : BitVec 4) : (s.raiseFault c k).par = s.par := by
  rcases raiseFault_cases s c k with ⟨_, e⟩ | ⟨_, e⟩ <;> rw [e]
@[simp] theorem raiseFault_nstg (c : FaultCode) (k : BitVec 4) : (s.raiseFault c k).nstg = s.nstg := by
  rcases raiseFault_cases s c k with ⟨_, e⟩ | ⟨_, e⟩ <;> rw [e]
@[simp] theorem raiseFault_pend (c : FaultCode) (k : BitVec 4) : (s.raiseFault c k).pend = s.pend := by
  rcases raiseFault_cases s c k with ⟨_, e⟩ | ⟨_, e⟩ <;> rw [e]
@[simp] theorem raiseFault_actv (c : FaultCode) (k : BitVec 4) : (s.raiseFault c k).actv = s.actv := by
  rcases raiseFault_cases s c k with ⟨_, e⟩ | ⟨_, e⟩ <;> rw [e]
@[simp] theorem raiseFault_slots (c : FaultCode) (k : BitVec 4) : (s.raiseFault c k).slots = s.slots := by
  rcases raiseFault_cases s c k with ⟨_, e⟩ | ⟨_, e⟩ <;> rw [e]
@[simp] theorem raiseFault_rings (c : FaultCode) (k : BitVec 4) : (s.raiseFault c k).rings = s.rings := by
  rcases raiseFault_cases s c k with ⟨_, e⟩ | ⟨_, e⟩ <;> rw [e]
@[simp] theorem raiseFault_cmdIn (c : FaultCode) (k : BitVec 4) : (s.raiseFault c k).cmdIn = s.cmdIn := by
  rcases raiseFault_cases s c k with ⟨_, e⟩ | ⟨_, e⟩ <;> rw [e]
@[simp] theorem raiseFault_resp (c : FaultCode) (k : BitVec 4) : (s.raiseFault c k).resp = s.resp := by
  rcases raiseFault_cases s c k with ⟨_, e⟩ | ⟨_, e⟩ <;> rw [e]
@[simp] theorem raiseFault_srcIn (c : FaultCode) (k : BitVec 4) : (s.raiseFault c k).srcIn = s.srcIn := by
  rcases raiseFault_cases s c k with ⟨_, e⟩ | ⟨_, e⟩ <;> rw [e]
@[simp] theorem raiseFault_snkOut (c : FaultCode) (k : BitVec 4) : (s.raiseFault c k).snkOut = s.snkOut := by
  rcases raiseFault_cases s c k with ⟨_, e⟩ | ⟨_, e⟩ <;> rw [e]
@[simp] theorem raiseFault_plan (c : FaultCode) (k : BitVec 4) : (s.raiseFault c k).plan = s.plan := by
  rcases raiseFault_cases s c k with ⟨_, e⟩ | ⟨_, e⟩ <;> rw [e]
@[simp] theorem raiseFault_turn (c : FaultCode) (k : BitVec 4) : (s.raiseFault c k).turn = s.turn := by
  rcases raiseFault_cases s c k with ⟨_, e⟩ | ⟨_, e⟩ <;> rw [e]

@[simp] theorem advancePlan_par : s.advancePlan.par = s.par := by unfold State.advancePlan; split <;> rfl
@[simp] theorem advancePlan_lc : s.advancePlan.lc = s.lc := by unfold State.advancePlan; split <;> rfl
@[simp] theorem advancePlan_fcode : s.advancePlan.fcode = s.fcode := by unfold State.advancePlan; split <;> rfl
@[simp] theorem advancePlan_fslot : s.advancePlan.fslot = s.fslot := by unfold State.advancePlan; split <;> rfl
@[simp] theorem advancePlan_nstg : s.advancePlan.nstg = s.nstg := by unfold State.advancePlan; split <;> rfl
@[simp] theorem advancePlan_pend : s.advancePlan.pend = s.pend := by unfold State.advancePlan; split <;> rfl
@[simp] theorem advancePlan_actv : s.advancePlan.actv = s.actv := by unfold State.advancePlan; split <;> rfl
@[simp] theorem advancePlan_slots : s.advancePlan.slots = s.slots := by unfold State.advancePlan; split <;> rfl
@[simp] theorem advancePlan_rings : s.advancePlan.rings = s.rings := by unfold State.advancePlan; split <;> rfl
@[simp] theorem advancePlan_cmdIn : s.advancePlan.cmdIn = s.cmdIn := by unfold State.advancePlan; split <;> rfl
@[simp] theorem advancePlan_resp : s.advancePlan.resp = s.resp := by unfold State.advancePlan; split <;> rfl
@[simp] theorem advancePlan_srcIn : s.advancePlan.srcIn = s.srcIn := by unfold State.advancePlan; split <;> rfl
@[simp] theorem advancePlan_snkOut : s.advancePlan.snkOut = s.snkOut := by unfold State.advancePlan; split <;> rfl

end Sys2Proof.Machine
end

