-- ==== Sys2Proof/Laws/Ops.lean ====
section
/-! SUPPORT. What each shared operation and each agent's step can do, said once. -/

namespace Sys2Proof.Machine

/-! ### Commands -/

/-- A command answers a refusal and changes nothing else, or has its effect. -/
theorem command_cases {i : Instr} {s t : State} {f : State → State} (h : command i s f = .next t) :
    (∃ c info, refusal s i = some (c, info) ∧ t = s.respond c info) ∨ (refusal s i = none ∧ t = f s) := by
  unfold command at h
  cases hr : refusal s i with
  | none => rw [hr] at h; exact .inr ⟨rfl, (Host.Outcome.next.inj h).symm⟩
  | some x => rw [hr] at h; exact .inl ⟨x.1, x.2, rfl, (Host.Outcome.next.inj h).symm⟩

/-- The effect of a command that passes every check. -/
def effect : Instr → State → State
  | .nop => fun s => s.respond .ok 0#24
  | .reset => fun s => s.resetEngine.respond .ok 0#24
  | .start => startEffect
  | .stop => stopEffect
  | .wait => waitEffect
  | .commit => commitEffect
  | .cfgNone slot => configure slot SlotCfg.reset
  | .cfgSql slot alpha hyst => configure slot { SlotCfg.reset with kind := .sql, par1 := alpha, par2 := hyst }
  | .cfgFmd slot rsel => configure slot { SlotCfg.reset with kind := .fmd, flag := rsel }
  | .cfgFir slot cplx l m => configure slot { SlotCfg.reset with kind := .fir, flag := cplx, l := l, m := m }
  | .cfgRsp slot cplx l m fbw =>
    configure slot { SlotCfg.reset with kind := .rsp, flag := cplx, l := l, m := m, par1 := fbw }
  | .cfgStr slot lognph nt delta kp plim =>
    configure slot
      { SlotCfg.reset with kind := .str, lognph := lognph, nt := nt, par1 := delta, par2 := kp, par3 := plim }
  | .ldtap slot taps => loadTapsEffect slot taps
  | .lditb slot row coeffs => loadRowEffect slot row coeffs
  | .setFs v => fun s => setPending { s.pend with fs := v } s
  | .setRffs v => fun s => setPending { s.pend with rffs := v } s
  | .setDev v => fun s => setPending { s.pend with dev := v } s
  | .setBaud v => fun s => setPending { s.pend with baud := v } s
  | .setThr v => fun s => setPending { s.pend with thr := v } s
  | .setLg v => fun s => setPending { s.pend with lg := v } s
  | .setFc v => fun s => setPending { s.pend with fc := v } s
  | .rdcsr n => readCsrEffect n

/-- `exec` is the checks of 30_encoding.md R94 and then the command's effect. -/
theorem exec_eq (i : Instr) (s : State) : exec i s = command i s (effect i) := by cases i <;> rfl

/-- No command stops the machine. -/
theorem exec_next (i : Instr) (s : State) : ∃ t, exec i s = .next t := by
  rw [exec_eq]; unfold command; split <;> exact ⟨_, rfl⟩

/-- A command that passes every check has its effect. -/
theorem exec_of_accepted {i : Instr} {s : State} (h : refusal s i = none) : exec i s = .next (effect i s) := by
  rw [exec_eq, command, h]

/-- A refused command is answered, and nothing else changes. -/
theorem exec_of_refused {i : Instr} {s : State} {c : Status} {info : BitVec 24} (h : refusal s i = some (c, info)) :
    exec i s = .next (s.respond c info) := by
  rw [exec_eq, command, h]

/-- What it takes to pass every check. -/
theorem accepted_iff (s : State) (i : Instr) :
    refusal s i = none ↔
      slotExists s i = true ∧ legalIn i s.lc = true ∧ kindTakes s i = true ∧ rangeError s i = none := by
  unfold refusal
  cases slotExists s i <;> cases legalIn i s.lc <;> cases kindTakes s i <;> simp

/-- The step of the command agent. -/
theorem hostCmd_cases {s t : State} (h : hostCmd s = .next t) :
    (∃ i rest, decode s.cmdIn = .instr i rest ∧ exec i { s with cmdIn := rest } = .next t) ∨
    (∃ opc rest, decode s.cmdIn = .reserved opc rest ∧
      t = State.respond { s with cmdIn := rest } .errOpcode (opc.setWidth 24)) ∨
    (∃ rest, decode s.cmdIn = .badField rest ∧ t = State.respond { s with cmdIn := rest } .errField 0#24) ∨
    (decode s.cmdIn = .incomplete ∧ t = s) := by
  unfold hostCmd at h
  cases hd : decode s.cmdIn with
  | instr i rest => rw [hd] at h; exact .inl ⟨i, rest, rfl, h⟩
  | reserved opc rest => rw [hd] at h; exact .inr (.inl ⟨opc, rest, rfl, (Host.Outcome.next.inj h).symm⟩)
  | badField rest => rw [hd] at h; exact .inr (.inr (.inl ⟨rest, rfl, (Host.Outcome.next.inj h).symm⟩))
  | incomplete => rw [hd] at h; exact .inr (.inr (.inr ⟨rfl, (Host.Outcome.next.inj h).symm⟩))

/-! ### The source, the sink, the event and the scheduler -/

/-- A real sample carries `+0.0` as its second component. -/
theorem offered_im {ws rest : List F} {x : Sample} (h : offered false ws = some (x, rest)) : x.im = posZero := by
  cases ws with
  | nil => cases h
  | cons w ws => cases h; rfl

theorem hostSrc_cases (s : State) :
    hostSrc s = s ∨
    (∃ x rest, s.lc = .running ∧ s.cnt 0 < s.par.rcap ∧ offered (s.ring 0).cplx s.srcIn = some (x, rest) ∧
      ((x.finiteOn s.par.record (s.ring 0).cplx = true ∧ hostSrc s = State.enq { s with srcIn := rest } 0 [x]) ∨
        (x.finiteOn s.par.record (s.ring 0).cplx = false ∧ hostSrc s = s.raiseFault .ioNonfinite 0xF#4))) := by
  unfold hostSrc
  cases hp : pushReady s with
  | false => exact .inl (by split <;> simp_all)
  | true =>
    cases ho : offered (s.ring 0).cplx s.srcIn with
    | none => exact .inl rfl
    | some y =>
      obtain ⟨x, rest⟩ := y
      simp only [pushReady, Bool.and_eq_true, decide_eq_true_eq] at hp
      refine .inr ⟨x, rest, hp.1, hp.2, rfl, ?_⟩
      cases hx : x.finiteOn s.par.record (s.ring 0).cplx with
      | true => exact .inl ⟨rfl, by simp [hx]⟩
      | false => exact .inr ⟨rfl, by simp [hx]⟩

theorem hostSnk_cases (s : State) :
    hostSnk s = s ∨
    (∃ v q, (s.ring s.nstg).queue = v :: q ∧ 1 ≤ s.nstg ∧ s.lc ≠ .idle ∧
      (((sinkWords s.par.record (s.ring s.nstg).cplx v).all NUM.finite32 = true ∧
          hostSnk s = State.deq { s with snkOut := s.snkOut ++ (sinkWords s.par.record (s.ring s.nstg).cplx v).flatMap bytesOf }
            s.nstg 1) ∨
        ((sinkWords s.par.record (s.ring s.nstg).cplx v).all NUM.finite32 = false ∧ hostSnk s = s.raiseFault .numSink 0xF#4))) := by
  unfold hostSnk
  cases hq : (s.ring s.nstg).queue with
  | nil => exact .inl rfl
  | cons v q =>
    by_cases hc : 1 ≤ s.nstg ∧ s.lc ≠ .idle
    · refine .inr ⟨v, q, rfl, hc.1, hc.2, ?_⟩
      simp only [hc, and_self, not_false_eq_true, ne_eq, if_true]
      cases hw : (sinkWords s.par.record (s.ring s.nstg).cplx v).all NUM.finite32 with
      | true => exact .inl ⟨rfl, by simp⟩
      | false => exact .inr ⟨rfl, by simp⟩
    · exact .inl (by simp only [hc, if_false])

theorem live_iff (s : State) : s.live = true ↔ s.lc = .running ∨ s.lc = .stopping := by
  simp [State.live]

theorem hostIo_cases (s : State) :
    (s.live = true ∧ hostIo s = s.raiseFault .ioExternal 0xF#4) ∨ (s.live = false ∧ hostIo s = s) := by
  unfold hostIo; cases s.live <;> simp

theorem schedHalt_cases (s : State) :
    (s.lc = .stopping ∧ 1 ≤ s.nstg ∧ (s.slot (s.nstg - 1)).rt.done = true ∧ schedHalt s = { s with lc := .halted }) ∨
    schedHalt s = s := by
  unfold schedHalt
  split
  · rename_i h; exact .inl ⟨h.1, h.2.1, h.2.2, rfl⟩
  · exact .inr rfl

/-! ### The stages -/

theorem stageLive_iff (s : State) (k : Nat) :
    stageLive s k = true ↔
      k < s.nstg ∧ (s.slot k).cfg.kind ≠ .none ∧ (s.lc = .running ∨ s.lc = .stopping) ∧ (s.slot k).rt.done = false := by
  simp [stageLive, State.live, and_assoc]

theorem invokeReady_iff (s : State) (k : Nat) :
    invokeReady s k = true ↔
      stageLive s k = true ∧ (s.slot k).need ≤ s.cnt k ∧ (s.slot k).prod ≤ s.par.rcap - s.cnt (k + 1) := by
  simp [invokeReady, and_assoc]

theorem doneReady_iff (s : State) (k : Nat) :
    doneReady s k = true ↔
      stageLive s k = true ∧ s.lc = .stopping ∧ (k = 0 ∨ (s.slot (k - 1)).rt.done = true) ∧
        s.cnt k < (s.slot k).need := by
  simp [doneReady, and_assoc]

/-- The two steps of a stage, and the case in which neither is enabled. -/
theorem stageStep_cases {s t : State} {k : Nat} (h : stageStep s k = .next t) :
    t = s ∨
    (invokeReady s k = true ∧ ∃ out rt, invoke s (s.slot k) (s.front k (s.slot k).need) = .emit out rt ∧
      t = ((s.deq k (s.slot k).need).setSlot k { s.slot k with rt := rt }).enq (k + 1) out) ∨
    (invokeReady s k = true ∧ invoke s (s.slot k) (s.front k (s.slot k).need) = .raise ∧
      t = s.raiseFault .numStage (BitVec.ofNat 4 k)) ∨
    (doneReady s k = true ∧ t = doneStep s k) := by
  unfold stageStep at h
  split at h
  · rename_i hr
    unfold invokeStep at h
    cases hi : invoke s (s.slot k) (s.front k (s.slot k).need) with
    | emit out rt =>
      simp only [hi] at h
      exact .inr (.inl ⟨hr, out, rt, rfl, (Host.Outcome.next.inj h).symm⟩)
    | raise =>
      simp only [hi] at h
      exact .inr (.inr (.inl ⟨hr, rfl, (Host.Outcome.next.inj h).symm⟩))
    | stuck f => simp only [hi] at h; cases h
  · split at h
    · rename_i hd; exact .inr (.inr (.inr ⟨hd, (Host.Outcome.next.inj h).symm⟩))
    · exact .inl (Host.Outcome.next.inj h).symm

/-- A squelch invocation that emits. -/
theorem invokeSql_emit {N : NumRecord} {x : Slot} {v : Sample} {out : List Sample} {rt : Runtime} (h : invokeSql N x v = .emit out rt) :
    ∃ pwr gate, pwr = smoothed N x.cfg.par1 x.rt.pwr v ∧ gate = gateNext N x.dv pwr x.rt.gate ∧ N.finite pwr = true ∧
      out = [if gate then v else Sample.zero] ∧ rt = { x.rt with pwr := pwr, gate := gate } := by
  unfold invokeSql at h
  simp only at h
  split at h
  · rename_i hf
    injection h with h1 h2
    exact ⟨_, _, rfl, rfl, hf, h1.symm, h2.symm⟩
  · cases h

/-- A demodulator invocation that emits. -/
theorem invokeFmd_emit {N : NumRecord} {x : Slot} {v : Sample} {out : List Sample} {rt : Runtime} (h : invokeFmd N x v = .emit out rt) :
    ∃ y, y = N.mul x.dv.gain (phaseStep N x.rt.prev v) ∧ N.finite y = true ∧
      out = [{ re := y, im := posZero }] ∧ rt = { x.rt with prev := v } := by
  unfold invokeFmd at h
  simp only at h
  split at h
  · rename_i hf
    injection h with h1 h2
    exact ⟨_, rfl, hf, h1.symm, h2.symm⟩
  · cases h

/-- A filter invocation that emits. -/
theorem pfir_emit {p : Params} {x : Slot} {xs out : List Sample} {rt : Runtime} (h : pfir p x xs = .emit out rt) :
    ∃ hist, polyphase p x.cfg.flag (x.taps.vector x.taps.act) x.cfg.l.toNat x.cfg.m.toNat xs 0 x.rt.hist =
        some (out, hist) ∧ rt = { x.rt with hist := hist } := by
  unfold pfir at h
  split at h
  · cases h
  · split at h
    · rename_i o hi he
      injection h with h1 h2
      subst h1
      exact ⟨hi, he, h2.symm⟩
    · cases h

/-- A timing recovery invocation that emits. -/
theorem invokeStr_emit {p : Params} {lg : F} {x : Slot} {xs out : List Sample} {rt : Runtime}
    (h : invokeStr p lg x xs = .emit out rt) :
    ∃ win mid early late e n mu,
      x.dv.w.toNat ≠ 0 ∧ x.dv.w.toNat ≤ p.hlen ∧
      win = (xs.map Sample.re).foldl (shiftWin x.dv.w.toNat) x.rt.win ∧
      instants p x win = .ok (mid, early, late) ∧ e = timingError p.record mid early late ∧
      p.record.finite mid = true ∧ p.record.finite e = true ∧
      splitInstant p.record (p.record.add x.rt.mu (advance p.record x (p.record.add x.dv.p0 (integNext p.record x lg e)) e)) = .ok (n, mu) ∧
      out = [{ re := mid, im := posZero }] ∧
      rt = { x.rt with
        win := win, skip := BitVec.ofInt 32 n, mu := mu, integ := integNext p.record x lg e,
        period := p.record.add x.dv.p0 (integNext p.record x lg e), err := e } := by
  unfold invokeStr at h
  split at h
  · cases h
  · rename_i hw
    simp only [not_or, not_lt] at hw
    simp only at h
    cases hi : instants p x ((xs.map Sample.re).foldl (shiftWin x.dv.w.toNat) x.rt.win) with
    | error y => rw [hi] at h; cases h
    | ok v =>
      obtain ⟨mid, early, late⟩ := v
      rw [hi] at h
      simp only at h
      split at h
      · rename_i hf
        simp only [Bool.and_eq_true] at hf
        unfold closeLoop at h
        simp only at h
        cases hs : splitInstant p.record (p.record.add x.rt.mu (advance p.record x (p.record.add x.dv.p0
            (integNext p.record x lg (timingError p.record mid early late))) (timingError p.record mid early late))) with
        | error y => rw [hs] at h; cases h
        | ok v =>
          obtain ⟨n, mu⟩ := v
          rw [hs] at h
          injection h with h1 h2
          exact ⟨_, mid, early, late, _, n, mu, hw.1, hw.2, rfl, hi, rfl, hf.1, hf.2, hs, h1.symm, h2.symm⟩
      · cases h

end Sys2Proof.Machine
end

