-- ==== Sys2Proof/Laws/Timing.lean ====
section
/-! SUPPORT. The timing recovery invocation on a valid slot: every row is found, every window place exists, every
integer part is defined (45_str.md R258, R259), and the advance lies between its limits (R264). All of it with the
default numeric record. -/

namespace Sys2Proof.Machine

open NUM

/-- A fraction in `[0, 1]` has a row (45_str.md R258). -/
theorem rowOf_isSome (nph : Nat) (f : F) (hp : 1 ≤ nph) (hf : finite f = true) (h0 : 0 ≤ exact f)
    (h1 : exact f ≤ oneUnits) : ∃ r, rowOf binary64 nph f = some r := by
  have hone := oneUnits_pos_int
  have hz : le posZero f = true := (le_iff finite_zero hf).mpr (by rw [exact_zero]; exact h0)
  have ho : le f one = true := (le_iff hf finite_one).mpr (by rw [exact_one]; exact h1)
  have hc : (binary64.le posZero f && binary64.le f binary64.one) = true := by
    simp only [hz, ho, Bool.and_self]
  rw [rowOf, if_pos hc]
  rw [← Option.isSome_iff_exists, List.find?_isSome]
  -- the row is the nearest whole number to `f * nph`, ties upward
  let n : Int := exact f * (2 * nph)
  have hn0 : 0 ≤ n := by positivity
  let r : Int := (n + oneUnits) / (2 * oneUnits)
  have h2 : (0 : Int) < 2 * oneUnits := by omega
  have e1 := Int.ediv_mul_add_emod (n + oneUnits) (2 * oneUnits)
  have e2 := Int.emod_nonneg (n + oneUnits) h2.ne'
  have e3 := Int.emod_lt_of_pos (n + oneUnits) h2
  have hr0 : 0 ≤ r := Int.ediv_nonneg (by omega) h2.le
  have hle : r ≤ nph := by
    have : r < nph + 1 := by
      apply Int.ediv_lt_of_lt_mul h2
      have hm : n ≤ oneUnits * (2 * nph) := mul_le_mul_of_nonneg_right h1 (by positivity)
      have : ((nph : Int) + 1) * (2 * oneUnits) = oneUnits * (2 * nph) + 2 * oneUnits := by ring
      omega
    omega
  refine ⟨r.toNat, by simp only [List.mem_range]; omega, ?_⟩
  have hcast : ((r.toNat : Nat) : Int) = r := Int.toNat_of_nonneg hr0
  have l1 : (2 * r - 1) * (oneUnits : Int) = r * (2 * oneUnits) - oneUnits := by ring
  have l2 : (2 * r + 1) * (oneUnits : Int) = r * (2 * oneUnits) + oneUnits := by ring
  unfold rowCovers
  simp only [atLeast, hcast, Bool.and_eq_true, Bool.not_eq_true', decide_eq_true_eq, decide_eq_false_iff_not, not_le,
    l1, l2, Nat.cast_mul, Nat.cast_ofNat]
  show r * (2 * oneUnits) - oneUnits ≤ n ∧ n < r * (2 * oneUnits) + oneUnits
  have e1' : r * (2 * oneUnits) + (n + oneUnits) % (2 * oneUnits) = n + oneUnits := e1
  constructor <;> omega

/-- An interpolation at an offset between `-DC` and `DC + 1` and a fraction in `[0, 1]` reads inside the window
(45_str.md R259). -/
theorem interp_isOk (p : Params) (hN : p.record = binary64) (x : Slot) (win : List F) (o : Int) (f : F) (hv : StrValid binary64 p x)
    (h1 : -(x.dv.dc.toNat : Int) ≤ o) (h2 : o ≤ x.dv.dc.toNat + 1) (hf : finite f = true) (h3 : 0 ≤ exact f)
    (h4 : exact f ≤ oneUnits) : ∃ v, interp p x win o f = .ok v := by
  obtain ⟨r, hr⟩ := rowOf_isSome (2 ^ x.cfg.lognph.toNat) f (Nat.two_pow_pos _) hf h3 h4
  unfold interp
  rw [hN, hr]
  have hw : x.dv.w.toNat = x.cfg.nt.toNat + 2 * x.dv.dc.toNat + 1 := by rw [hv.w, hv.dc]; rfl
  have hcb : x.dv.cb.toNat = x.dv.dc.toNat + x.cfg.nt.toNat / 2 - 1 := by rw [hv.cb, hv.dc]; rfl
  have hnt := hv.ntRange
  have heven := hv.ntEven
  have ha : firstPlace x o = x.dv.dc.toNat + o := by
    unfold firstPlace; rw [hcb]; omega
  simp only
  rw [if_pos ⟨hv.lognph, hnt.2, by rw [ha]; omega, by rw [ha, hw]; omega⟩]
  exact ⟨_, rfl⟩

/-- A finite instant of moderate size splits, and its fraction lies in `[0, 1]`. -/
theorem splitInstant_isOk (v : F) (lo hi : Int) (hf : finite v = true) (h1 : lo * oneUnits ≤ exact v)
    (h2 : exact v ≤ hi * oneUnits) (hlo : lo.natAbs < 2 ^ 52) (hhi : hi.natAbs < 2 ^ 52) :
    ∃ n f, splitInstant binary64 v = .ok (n, f) ∧ binary64.floorI v = some n ∧ f = sub v (ofInt n) ∧ lo ≤ n ∧ n ≤ hi ∧
      finite f = true ∧ 0 ≤ exact f ∧ exact f ≤ oneUnits := by
  obtain ⟨n, hn⟩ := floor_isSome hf
  obtain ⟨_, h3, h4⟩ := floor_spec v n hn
  have hone := oneUnits_pos_int
  have hln : lo ≤ n := by
    have : lo * (oneUnits : Int) < (n + 1) * oneUnits := by linarith
    have := lt_of_mul_lt_mul_right this hone.le
    omega
  have hnh : n ≤ hi := by
    have : n * (oneUnits : Int) ≤ hi * oneUnits := by linarith
    exact le_of_mul_le_mul_right this hone
  obtain ⟨f1, f2, f3⟩ := fraction_spec v n hn (by omega)
  refine ⟨n, _, ?_, hn, rfl, hln, hnh, f1, f2, f3⟩
  unfold splitInstant; rw [hn]

/-- `DC` and the range of `DELTA` (45_str.md R251, R253). -/
theorem StrValid.delta_bounds {p : Params} {x : Slot} (h : StrValid binary64 p x) :
    finite x.cfg.par1 = true ∧ 0 < exact x.cfg.par1 ∧ exact x.cfg.par1 ≤ x.dv.dc.toNat * oneUnits ∧
      x.dv.dc.toNat ≤ 100 := by
  have hd := h.delta
  simp only [positive, Bool.and_eq_true] at hd
  have hpos : 0 < exact x.cfg.par1 := by
    have := (lt_iff finite_zero hd.1).mp hd.2
    rwa [exact_zero] at this
  obtain ⟨i, hi⟩ := ceil_isSome hd.1
  obtain ⟨_, h1, h2⟩ := ceil_spec _ _ hi
  have htop := h.deltaTop
  rw [hi] at htop
  have hone := oneUnits_pos_int
  have hipos : 0 < i := by
    by_contra hc
    have : i * (oneUnits : Int) ≤ 0 := mul_nonpos_of_nonpos_of_nonneg (by omega) hone.le
    linarith
  have hdc : x.dv.dc.toNat = i.toNat := by rw [h.dc, dcOf, hi]; rfl
  have hcast : ((x.dv.dc.toNat : Nat) : Int) = i := by rw [hdc]; exact Int.toNat_of_nonneg hipos.le
  refine ⟨hd.1, hpos, by rw [hcast]; exact h2, ?_⟩
  have : i ≤ 100 := by simpa using htop
  omega

/-- `MU` in exact units (10_state.md R38). -/
theorem LoopOk.mu_bounds {x : Slot} (h : LoopOk binary64 x) : 0 ≤ exact x.rt.mu ∧ exact x.rt.mu < oneUnits := by
  have h1 := (le_iff finite_zero h.muFinite).mp h.muLow
  have h2 := (lt_iff h.muFinite finite_one).mp h.muHigh
  rw [exact_zero] at h1
  rw [exact_one] at h2
  exact ⟨h1, h2⟩

/-- The three instants of a valid slot all have a value (45_str.md R259). -/
theorem instants_isOk (p : Params) (hN : p.record = binary64) (x : Slot) (win : List F) (hv : StrValid binary64 p x)
    (hl : LoopOk binary64 x) :
    ∃ mid early late, instants p x win = .ok (mid, early, late) := by
  obtain ⟨m0, m1⟩ := hl.mu_bounds
  obtain ⟨d0, d1, d2, d3⟩ := hv.delta_bounds
  have hone := oneUnits_pos_int
  obtain ⟨mid, hmid⟩ := interp_isOk p hN x win 0 x.rt.mu hv (by omega) (by omega) hl.muFinite m0 m1.le
  obtain ⟨l1, l2⟩ := ofInt_exact (-(x.dv.dc.toNat : Int)) (by omega)
  obtain ⟨u1, u2⟩ := ofInt_exact ((x.dv.dc.toNat : Int) + 1) (by omega)
  -- early
  have te := sub_between x.rt.mu x.cfg.par1 (ofInt (-(x.dv.dc.toNat : Int))) one hl.muFinite d0 l1 finite_one
    (by rw [l2, neg_mul]; linarith) (by rw [exact_one]; linarith)
  rw [l2, exact_one] at te
  obtain ⟨oe, fe, he1, _, _, he2, he3, he4, he5, he6⟩ :=
    splitInstant_isOk _ (-(x.dv.dc.toNat : Int)) 1 te.1 te.2.1 (by linarith [te.2.2]) (by omega) (by decide)
  obtain ⟨early, hearly⟩ := interp_isOk p hN x win oe fe hv he2 (by omega) he4 he5 he6
  -- late
  have tl := add_between x.rt.mu x.cfg.par1 posZero (ofInt ((x.dv.dc.toNat : Int) + 1)) hl.muFinite d0 finite_zero u1
    (by rw [exact_zero]; linarith) (by rw [u2, add_mul, one_mul]; linarith)
  rw [u2, exact_zero] at tl
  obtain ⟨ol, fl, hl1, _, _, hl2, hl3, hl4, hl5, hl6⟩ :=
    splitInstant_isOk _ 0 ((x.dv.dc.toNat : Int) + 1) tl.1 (by linarith [tl.2.1]) tl.2.2 (by decide) (by omega)
  obtain ⟨late, hlate⟩ := interp_isOk p hN x win ol fl hv (by omega) hl3 hl4 hl5 hl6
  refine ⟨mid, early, late, ?_⟩
  unfold instants sampleAt
  rw [hN, hmid, he1, hl1]
  simp only [hearly, hlate]

/-- A value of at least 2 is not negative. -/
theorem exact_nonneg_of_two_le {v : F} (hf : finite v = true) (h : binary64.le (binary64.ofInt 2) v = true) :
    0 ≤ exact v := by
  obtain ⟨f2, e2⟩ := ofInt_exact 2 (by norm_num)
  have hone := oneUnits_pos_int
  dsimp only at h
  rw [le_iff f2 hf, e2] at h
  linarith

/-- The limits of the loop as sums with the ends of the integrator's range. -/
theorem StrValid.ends {p : Params} {x : Slot} (h : StrValid binary64 p x) :
    x.dv.pmin = add x.dv.p0 (negate x.dv.rng) ∧ x.dv.pmax = add x.dv.p0 x.dv.rng := ⟨h.pmin, h.pmax⟩

/-- The limits of the loop in exact units. -/
theorem StrValid.limits {p : Params} {x : Slot} (h : StrValid binary64 p x) :
    finite x.dv.rng = true ∧ 0 ≤ exact x.dv.rng ∧ finite x.dv.pmin = true ∧ (oneUnits : Int) ≤ exact x.dv.pmin ∧
      exact x.dv.pmin ≤ exact x.dv.pmax := by
  have hr := h.rng
  simp only [nonnegative, Bool.and_eq_true] at hr
  have hr0 : 0 ≤ exact x.dv.rng := by
    have := (le_iff finite_zero hr.1).mp hr.2
    rwa [exact_zero] at this
  have hp2 := exact_nonneg_of_two_le h.p0.1 h.p0.2
  have hpf : finite x.dv.pmin = true := by
    rw [h.pmin]
    exact (sub_between x.dv.p0 x.dv.rng (negate x.dv.rng) x.dv.p0 h.p0.1 hr.1 (by simpa using hr.1) h.p0.1
      (by rw [exact_negate]; linarith) (by linarith)).1
  have h1 := (le_iff finite_one hpf).mp h.pminLow
  rw [exact_one] at h1
  refine ⟨hr.1, hr0, hpf, h1, ?_⟩
  rw [h.ends.1, h.ends.2]
  exact add_mono _ _ _ _ h.p0.1 (by simpa using hr.1) h.p0.1 hr.1 (by rw [← h.ends.1]; exact hpf)
    (by rw [← h.ends.2]; exact h.pmaxFinite) (by rw [exact_negate]; linarith)

/-- The integral path stays between its limits (45_str.md R262, R264). -/
theorem integNext_between {p : Params} {x : Slot} (lg e : F) (h : StrValid binary64 p x) (hl : LoopOk binary64 x)
    (hg : finite lg = true) (he : finite e = true) :
    finite (integNext binary64 x lg e) = true ∧ exact (negate x.dv.rng) ≤ exact (integNext binary64 x lg e) ∧
      exact (integNext binary64 x lg e) ≤ exact x.dv.rng := by
  obtain ⟨r1, r2, _, _, _⟩ := h.limits
  exact clamp_between _ _ _ (isNaN_add _ _ hl.integ (isNaN_mul _ _ hg he)) (by simpa using r1) r1
    (by rw [exact_negate]; linarith)

/-- The period estimate stays between its limits (10_state.md R45). -/
theorem period_between {p : Params} {x : Slot} (i : F) (h : StrValid binary64 p x) (hi : finite i = true)
    (h1 : exact (negate x.dv.rng) ≤ exact i) (h2 : exact i ≤ exact x.dv.rng) :
    finite (add x.dv.p0 i) = true ∧ exact x.dv.pmin ≤ exact (add x.dv.p0 i) ∧
      exact (add x.dv.p0 i) ≤ exact x.dv.pmax := by
  obtain ⟨r1, r2, r3, r4, r5⟩ := h.limits
  have hp2 := exact_nonneg_of_two_le h.p0.1 h.p0.2
  -- the limits are the rounded sums with the ends of the integrator's range
  have hn : finite (negate x.dv.rng) = true := by simpa using r1
  have hf : finite (add x.dv.p0 i) = true := by
    obtain ⟨f1, e1⟩ := exact_add x.dv.p0 i h.p0.1 hi
    obtain ⟨f2, e2⟩ := exact_add x.dv.p0 x.dv.rng h.p0.1 r1
    have hb := h.pmaxFinite
    rw [h.ends.2] at hb
    rw [exact_negate] at h1
    rcases le_or_gt 0 (exact x.dv.p0 + exact i) with hs | hs
    · refine f1.mpr (round64_finite_of_le _ _ hs (by linarith) (f2.mp hb))
    · exact (add_between x.dv.p0 i (negate x.dv.rng) x.dv.p0 h.p0.1 hi hn h.p0.1 (by rw [exact_negate]; linarith)
        (by linarith)).1
  refine ⟨hf, ?_, ?_⟩
  · rw [h.ends.1]
    refine add_mono _ _ _ _ h.p0.1 hn h.p0.1 hi ?_ hf (by linarith)
    rw [← h.ends.1]; exact r3
  · rw [h.ends.2]
    exact add_mono _ _ _ _ h.p0.1 hi h.p0.1 r1 hf (by rw [← h.ends.2]; exact h.pmaxFinite) (by linarith)

/-- The advance stays between its limits (45_str.md R263, R264). -/
theorem advance_between {p : Params} {x : Slot} (per e : F) (h : StrValid binary64 p x) (hper : finite per = true)
    (he : finite e = true) :
    finite (advance binary64 x per e) = true ∧ exact x.dv.pmin ≤ exact (advance binary64 x per e) ∧
      exact (advance binary64 x per e) ≤ exact x.dv.pmax := by
  obtain ⟨_, _, r3, _, r5⟩ := h.limits
  have hk := h.kp
  simp only [nonnegative, Bool.and_eq_true] at hk
  exact clamp_between _ _ _ (isNaN_add _ _ hper (isNaN_mul _ _ hk.1 he)) r3 h.pmaxFinite r5

/-- The sum of the phase and the advance splits, at least one whole sample ahead (45_str.md R265). -/
theorem nextInstant_isOk {p : Params} {x : Slot} (a : F) (hp : p.Ok) (h : StrValid binary64 p x) (hl : LoopOk binary64 x)
    (ha : finite a = true) (h1 : exact x.dv.pmin ≤ exact a) (h2 : exact a ≤ exact x.dv.pmax) :
    ∃ n f, splitInstant binary64 (add x.rt.mu a) = .ok (n, f) ∧ 1 ≤ n ∧ n ≤ p.rcap + 1 ∧ finite f = true ∧ 0 ≤ exact f ∧
      exact f < oneUnits := by
  obtain ⟨_, _, _, r4, _⟩ := h.limits
  obtain ⟨m0, m1⟩ := hl.mu_bounds
  have hone := oneUnits_pos_int
  obtain ⟨top, htop⟩ := floor_isSome h.pmaxFinite
  obtain ⟨_, _, t2⟩ := floor_spec _ _ htop
  have ht := h.pmaxTop
  rw [htop] at ht
  have ht : top < p.rcap := ht
  have hr := hp.2.1.2
  obtain ⟨u1, u2⟩ := ofInt_exact ((p.rcap : Int) + 1) (by omega)
  have hle : exact x.dv.pmax ≤ p.rcap * oneUnits := by
    have : (top + 1) * (oneUnits : Int) ≤ p.rcap * oneUnits := mul_le_mul_of_nonneg_right (by omega) hone.le
    linarith
  have t := add_between x.rt.mu a one (ofInt ((p.rcap : Int) + 1)) hl.muFinite ha finite_one u1
    (by rw [exact_one]; linarith) (by rw [u2, add_mul, one_mul]; linarith)
  rw [exact_one, u2] at t
  obtain ⟨n, f, s1, s2, s3, s4, s5, s6, s7, s8⟩ :=
    splitInstant_isOk _ 1 ((p.rcap : Int) + 1) t.1 (by rw [one_mul]; exact t.2.1) t.2.2 (by decide) (by omega)
  have := fraction_exact (add x.rt.mu a) n s2 (by omega) (by linarith [t.2.1])
  rw [← s3] at this
  exact ⟨n, f, s1, s4, s5, s6, s7, this.2⟩

/-- An invocation of a valid slot is never stuck. -/
theorem invokeStr_not_stuck (p : Params) (hN : p.record = binary64) (lg : F) (x : Slot) (xs : List Sample) (hp : p.Ok) (h : StrValid binary64 p x)
    (hl : LoopOk binary64 x) (hg : finite lg = true) (r : Fault) : invokeStr p lg x xs ≠ .stuck r := by
  have hw : ¬(x.dv.w.toNat = 0 ∨ p.hlen < x.dv.w.toNat) := by
    have h1 := h.w
    have h2 := h.wTop
    unfold wOf at h1 h2
    omega
  unfold invokeStr
  rw [if_neg hw]
  simp only
  obtain ⟨mid, early, late, hi⟩ := instants_isOk p hN x ((xs.map Sample.re).foldl (shiftWin x.dv.w.toNat) x.rt.win) h hl
  rw [hi, hN]
  simp only
  split
  · rename_i hf
    rw [Bool.and_eq_true] at hf
    obtain ⟨i1, i2, i3⟩ := integNext_between lg (timingError binary64 mid early late) h hl hg hf.2
    obtain ⟨q1, _, _⟩ := period_between _ h i1 i2 i3
    obtain ⟨a1, a2, a3⟩ := advance_between (add x.dv.p0 (integNext binary64 x lg (timingError binary64 mid early late)))
      (timingError binary64 mid early late) h q1 hf.2
    obtain ⟨n, f, hs, _⟩ := nextInstant_isOk _ hp h hl a1 a2 a3
    unfold closeLoop
    simp only [hs]
    simp
  · simp

end Sys2Proof.Machine
end

