-- ==== Sys2Proof/Laws/Validate.lean ====
section
/-! SUPPORT. What a candidate that passes validation is like (60_exceptions.md R305), and what `adopt`, `derive` and
the start values do to one slot. -/

namespace Sys2Proof.Machine

open NUM

/-- With no fault code among them, the checks have no failing one exactly when all hold. -/
theorem firstBad_noFault {cs : List (Bool × FaultCode)} (hc : ∀ x ∈ cs, x.2 ≠ .noFault)
    (h : firstBad cs = .noFault) : ∀ x ∈ cs, x.1 = true := by
  induction cs with
  | nil => simp
  | cons c cs ih =>
    obtain ⟨good, code⟩ := c
    cases good with
    | false => exact absurd h (hc (false, code) (by simp))
    | true =>
      intro x hx
      rcases List.mem_cons.mp hx with rfl | hx
      · rfl
      · exact ih (fun y hy => hc y (by simp [hy])) h x hx

theorem slotChecks_codes (p : Params) (t : Tunables) (x : Slot) : ∀ c ∈ slotChecks p t x, c.2 ≠ .noFault := by
  intro c hc
  unfold slotChecks at hc
  cases hk : x.cfg.kind <;> rw [hk] at hc <;>
    simp only [checkSql, checkFmd, checkFir, checkRsp, checkTaps, checkStr, List.mem_cons, List.not_mem_nil, or_false] at hc
  all_goals (rcases hc with rfl | rfl | rfl | rfl | rfl | rfl | rfl | rfl <;> simp)

theorem gapAt_none {k : Nat} {xs : List Slot} (h : gapAt k xs = none) : ∀ x ∈ xs, x.cfg.kind = .none := by
  induction xs generalizing k with
  | nil => simp
  | cons x xs ih =>
    unfold gapAt at h
    split at h
    · rename_i hx
      intro y hy
      rcases List.mem_cons.mp hy with rfl | hy
      · exact hx
      · exact ih h y hy
    · cases h

theorem typeClashAt_none {k : Nat} {xs : List Slot} (h : typeClashAt k xs = none) :
    ∀ (j : Nat) (h1 : j + 1 < xs.length), (xs[j]'(by omega)).outCplx = (xs[j + 1]).inCplx := by
  induction xs generalizing k with
  | nil => intro j h1; simp at h1
  | cons x xs ih =>
    cases xs with
    | nil => intro j h1; simp at h1
    | cons y ys =>
      unfold typeClashAt at h
      split at h
      · rename_i hx
        intro j h1
        cases j with
        | zero => exact hx
        | succ j => exact ih h j (by simpa using h1)
      · cases h

theorem defectAt_noFault {p : Params} {t : Tunables} {k : Nat} {xs : List Slot} {z : BitVec 4}
    (h : defectAt p t k xs = (.noFault, z)) : ∀ x ∈ xs, firstBad (slotChecks p t x) = .noFault := by
  induction xs generalizing k with
  | nil => simp
  | cons x xs ih =>
    unfold defectAt at h
    intro y hy
    cases hb : firstBad (slotChecks p t x) with
    | noFault =>
      rw [hb] at h
      rcases List.mem_cons.mp hy with rfl | hy
      · exact hb
      · exact ih h y hy
    | _ => rw [hb] at h; simp at h

/-- A candidate that passes: there is a stage, nothing configured lies behind the pipeline, neighbours agree on
their edge, and every stage's checks hold. -/
theorem validate_noFault {p : Params} {t : Tunables} {slots : List Slot} {n : Nat} {z : BitVec 4}
    (h : validate p t slots n = (.noFault, z)) :
    n ≠ 0 ∧ (∀ x ∈ slots.drop n, x.cfg.kind = .none) ∧
      (∀ (j : Nat) (h1 : j + 1 < (slots.take n).length),
        ((slots.take n)[j]'(by omega)).outCplx = ((slots.take n)[j + 1]).inCplx) ∧
      ∀ x ∈ slots.take n, ∀ c ∈ slotChecks p t x, c.1 = true := by
  unfold validate at h
  split at h
  · cases h
  · rename_i hn
    cases hg : gapAt n (slots.drop n) with
    | some k => rw [hg] at h; cases h
    | none =>
      rw [hg] at h
      simp only at h
      cases ht : typeClashAt 0 (slots.take n) with
      | some k => rw [ht] at h; cases h
      | none =>
        rw [ht] at h
        exact ⟨hn, gapAt_none hg, typeClashAt_none ht, fun x hx =>
          firstBad_noFault (slotChecks_codes p t x) (defectAt_noFault h x hx)⟩

/-- `RNG` is finite and not negative: it is the nominal period times a factor in `[0, 1)`. -/
theorem rngOf_nonneg {t : Tunables} {c : SlotCfg} (h1 : finite c.par3 = true) (h2 : le posZero c.par3 = true)
    (h3 : lt c.par3 one = true) (h4 : finite (p0Of binary64 t) = true) (h5 : 0 ≤ exact (p0Of binary64 t)) :
    nonnegative binary64 (rngOf binary64 t c) = true := by
  have l0 : 0 ≤ exact c.par3 := by rw [← exact_zero]; exact (le_iff finite_zero h1).mp h2
  have l1 : exact c.par3 < oneUnits := by rw [← exact_one]; exact (lt_iff h1 finite_one).mp h3
  have := mul_between c.par3 (p0Of binary64 t) posZero (p0Of binary64 t) h1 h4 finite_zero h4
    (by rw [exact_zero, zero_mul]; exact mul_nonneg l0 h5)
    (by rw [mul_comm (exact (p0Of binary64 t))]; exact mul_le_mul_of_nonneg_right l1.le h5)
  unfold nonnegative rngOf
  dsimp only
  rw [this.1, (le_iff finite_zero this.1).mpr (by rw [exact_zero]; rw [exact_zero] at this; exact this.2.1)]
  rfl

/-- A timing recovery slot whose checks hold is valid once its derived registers are computed. -/
theorem strValid_derived {p : Params} {t : Tunables} {x : Slot} (hN : p.record = binary64) (hp : p.Ok)
    (hk : x.cfg.kind = .str) (h : ∀ c ∈ slotChecks p t x, c.1 = true) :
    StrValid binary64 p (deriveSlot binary64 t x) ∧ nonnegative binary64 t.lg = true ∧
      finite (p0Of binary64 t) = true ∧
      (deriveSlot binary64 t x).dv.cb.toNat < (deriveSlot binary64 t x).dv.w.toNat := by
  unfold slotChecks at h
  rw [hk] at h
  simp only [checkStr, strParamsGood, hN, List.mem_cons, List.not_mem_nil, or_false, forall_eq_or_imp, forall_eq,
    Bool.and_eq_true, decide_eq_true_eq] at h
  obtain ⟨⟨⟨⟨⟨⟨⟨⟨a1, a2⟩, a3⟩, a4⟩, a5⟩, a6⟩, a7⟩, a8⟩, hb, hc, hd, he, hf, ⟨⟨⟨g1, g2⟩, g3⟩, g4⟩, hh⟩ := h
  have g2' : binary64.le (binary64.ofInt 2) (p0Of binary64 t) = true := by dsimp only; exact g2
  have hhl := hp.2.2.2.1.2
  have hdc : dcOf binary64 x.cfg ≤ 100 := by unfold dcOf; omega
  have hw : wOf binary64 x.cfg < 256 := by omega
  have hcb : cbOf binary64 x.cfg < wOf binary64 x.cfg := by unfold cbOf wOf; omega
  have ed : deriveSlot binary64 t x = { x with dv := { x.dv with
      p0 := p0Of binary64 t, rng := rngOf binary64 t x.cfg, pmin := pminOf binary64 t x.cfg
      pmax := pmaxOf binary64 t x.cfg, dc := BitVec.ofNat 8 (dcOf binary64 x.cfg)
      w := BitVec.ofNat 8 (wOf binary64 x.cfg), cb := BitVec.ofNat 8 (cbOf binary64 x.cfg) } } := by
    unfold deriveSlot; rw [hk]
  have tdc : (BitVec.ofNat 8 (dcOf binary64 x.cfg)).toNat = dcOf binary64 x.cfg := by rw [BitVec.toNat_ofNat]; omega
  have tw : (BitVec.ofNat 8 (wOf binary64 x.cfg)).toNat = wOf binary64 x.cfg := by rw [BitVec.toNat_ofNat]; omega
  have tcb : (BitVec.ofNat 8 (cbOf binary64 x.cfg)).toNat = cbOf binary64 x.cfg := by rw [BitVec.toNat_ofNat]; omega
  rw [ed]
  -- the range of the integrator: a product of values between 0 and 1 and of the nominal period
  have hpl := a7
  simp only [nonnegative, Bool.and_eq_true] at hpl
  have hrng := rngOf_nonneg (t := t) hpl.1 hpl.2 a8 g1 (exact_nonneg_of_two_le g1 g2')
  refine ⟨⟨a1, ⟨a2, a3⟩, a4, a5, a6, hb, tdc, tw, tcb, hc, ⟨g1, g2'⟩, hrng, rfl, rfl, g4, g3, ?_⟩, hf, g1, ?_⟩
  · have h1 : (binary64.floorI (pmaxOf binary64 t x.cfg)).getD 0 + 1 ≤ p.rcap := le_trans (le_max_right _ _) hh
    show (binary64.floorI (pmaxOf binary64 t x.cfg)).getD 0 < p.rcap
    omega
  · show (BitVec.ofNat 8 (cbOf binary64 x.cfg)).toNat < (BitVec.ofNat 8 (wOf binary64 x.cfg)).toNat
    rw [tw, tcb]; exact hcb

/-- A slot whose checks hold reads finite tunables only (10_state.md R45). -/
theorem tunablesRead_finite {p : Params} {t : Tunables} {x : Slot} (h : ∀ c ∈ slotChecks p t x, c.1 = true) :
    ∀ v ∈ tunablesRead t x.cfg, p.record.finite v = true := by
  unfold slotChecks at h
  unfold tunablesRead
  cases hk : x.cfg.kind <;> rw [hk] at h <;>
    simp only [checkSql, checkFmd, checkStr, fmdRate, positive, nonnegative, List.mem_cons, List.not_mem_nil, or_false,
      forall_eq_or_imp, forall_eq, Bool.and_eq_true] at h ⊢
  · simp
  · exact h.2.1
  · exact ⟨h.1.1, h.2.1.1⟩
  · simp
  · simp
  · exact ⟨h.2.2.2.2.1.1.1, h.2.2.2.2.1.2.1, h.2.2.2.2.2.1.1⟩

/-- A filter slot whose checks hold has a finite active tap vector once the dirty bank is adopted (44_fir.md R232). -/
theorem adopted_taps_finite {p : Params} {t : Tunables} {x : Slot} (h : ∀ c ∈ slotChecks p t x, c.1 = true)
    (hk : x.cfg.kind = .fir ∨ x.cfg.kind = .rsp) :
    ∀ v ∈ x.taps.adopt.vector x.taps.adopt.act, p.record.finite v = true := by
  have hc : ∀ v ∈ candidateTaps x, p.record.finite v = true := by
    have hb := h ((decide (1 ≤ (candidateTaps x).length) && (candidateTaps x).all p.record.finite), .cfgTaps)
      (by rcases hk with hk | hk <;> simp [slotChecks, hk, checkFir, checkRsp, checkTaps])
    rw [Bool.and_eq_true, List.all_eq_true] at hb
    exact hb.2
  have he : x.taps.adopt.vector x.taps.adopt.act = candidateTaps x := by
    unfold candidateTaps TapMem.adopt
    cases x.taps.dirty <;> rfl
  rwa [he]

end Sys2Proof.Machine
end

