-- ==== Sys2Proof/Laws/Lifecycle.lean ====
section
/-! SUPPORT. What `START` and `COMMIT` leave in each slot and each ring (40_commands.md R122, R125, R127, R128). -/

namespace Sys2Proof.Machine

theorem leading_le (xs : List Slot) : leading xs ≤ xs.length := by
  induction xs with
  | nil => simp [leading]
  | cons x xs ih => unfold leading; split <;> simp; omega

/-- Every one of the leading slots is configured. -/
theorem leading_kind (xs : List Slot) : ∀ (k : Nat) (h : k < leading xs),
    (xs[k]'(lt_of_lt_of_le h (leading_le xs))).cfg.kind ≠ .none := by
  induction xs with
  | nil => intro k h; simp [leading] at h
  | cons x xs ih =>
    intro k h
    unfold leading at h
    split at h
    · omega
    · rename_i hx
      cases k with
      | zero => exact hx
      | succ k => exact ih k (by omega)

theorem mapFirst_length (n : Nat) (f : Slot → Slot) (xs : List Slot) : (mapFirst n f xs).length = xs.length := by
  simp [mapFirst]; omega

theorem mapFirst_getD (n : Nat) (f : Slot → Slot) (xs : List Slot) (k : Nat) (d : Slot) :
    (mapFirst n f xs).getD k d = if k < n ∧ k < xs.length then f (xs.getD k d) else xs.getD k d := by
  induction xs generalizing n k with
  | nil => simp [mapFirst]
  | cons x xs ih =>
    cases n with
    | zero => simp [mapFirst]
    | succ n =>
      have e : mapFirst (n + 1) f (x :: xs) = f x :: mapFirst n f xs := rfl
      rw [e]
      cases k with
      | zero => simp
      | succ k =>
        rw [List.getD_cons_succ, List.getD_cons_succ, ih]
        simp only [List.length_cons, Nat.add_lt_add_iff_right]

variable (s : State)

/-- A slot that does not exist reads as its reset values. -/
theorem slot_of_ge {k : Nat} (h : s.slots.length ≤ k) : s.slot k = Slot.reset s.par := by
  simp [State.slot, List.getElem?_eq_none h]

theorem slot_getElem {k : Nat} (h : k < s.slots.length) : s.slot k = s.slots[k] := by
  simp [State.slot, h]

theorem ring_getElem {e : Nat} (h : e < s.rings.length) : s.ring e = s.rings[e] := by
  simp [State.ring, h]

theorem adopt_slot (k : Nat) : s.adopt.slot k = { s.slot k with taps := (s.slot k).taps.adopt } := by
  by_cases h : k < s.slots.length
  · simp [State.slot, h]
  · have h' := not_lt.mp h
    rw [slot_of_ge _ h', slot_of_ge _ (by simpa using h')]
    rfl

theorem derive_slot (k : Nat) :
    s.derive.slot k = if k < s.nstg ∧ k < s.slots.length then deriveSlot s.par.record s.actv (s.slot k) else s.slot k :=
  mapFirst_getD _ _ _ _ _

/-- The slots after a successful `COMMIT`. -/
theorem committed_slot (k : Nat) :
    s.adopt.derive.slot k =
      if k < s.nstg ∧ k < s.slots.length then deriveSlot s.par.record s.pend { s.slot k with taps := (s.slot k).taps.adopt }
      else { s.slot k with taps := (s.slot k).taps.adopt } := by
  rw [derive_slot, adopt_slot]
  simp

/-- The slots after a successful `START`. -/
theorem started_slot (n k : Nat) :
    (s.started n).slot k =
      if k < n ∧ k < s.slots.length then
        startSlot s.par (deriveSlot s.par.record s.pend { s.slot k with taps := (s.slot k).taps.adopt })
      else { s.slot k with taps := (s.slot k).taps.adopt } := by
  have h1 : (s.started n).slot k =
      (mapFirst n (startSlot s.par) (State.derive { s.adopt with nstg := n }).slots).getD k (Slot.reset s.par) := rfl
  rw [h1, mapFirst_getD]
  have h2 : (State.derive { s.adopt with nstg := n }).slots.getD k (Slot.reset s.par) =
      (State.derive { s.adopt with nstg := n }).slot k := rfl
  have h3 : (State.derive { s.adopt with nstg := n }).slot k =
      if k < n ∧ k < s.adopt.slots.length then deriveSlot s.par.record s.pend (s.adopt.slot k) else s.adopt.slot k :=
    derive_slot { s.adopt with nstg := n } k
  have h4 : (State.derive { s.adopt with nstg := n }).slots.length = s.slots.length := by
    rw [derive_slots, mapFirst_length]; simp
  have h5 : s.adopt.slots.length = s.slots.length := by simp
  rw [h2, h3, h4, h5, adopt_slot]
  split
  · rfl
  · rfl

@[simp] theorem deriveSlot_cfg (N : NumRecord) (t : Tunables) (x : Slot) : (deriveSlot N t x).cfg = x.cfg := by
  unfold deriveSlot; split <;> rfl
@[simp] theorem deriveSlot_taps (N : NumRecord) (t : Tunables) (x : Slot) : (deriveSlot N t x).taps = x.taps := by
  unfold deriveSlot; split <;> rfl
@[simp] theorem deriveSlot_itb (N : NumRecord) (t : Tunables) (x : Slot) : (deriveSlot N t x).itb = x.itb := by
  unfold deriveSlot; split <;> rfl
@[simp] theorem deriveSlot_rt (N : NumRecord) (t : Tunables) (x : Slot) : (deriveSlot N t x).rt = x.rt := by
  unfold deriveSlot; split <;> rfl
@[simp] theorem startSlot_cfg (p : Params) (x : Slot) : (startSlot p x).cfg = x.cfg := by
  unfold startSlot; dsimp only; split <;> rfl
@[simp] theorem startSlot_taps (p : Params) (x : Slot) : (startSlot p x).taps = x.taps := by
  unfold startSlot; dsimp only; split <;> rfl
@[simp] theorem startSlot_itb (p : Params) (x : Slot) : (startSlot p x).itb = x.itb := by
  unfold startSlot; dsimp only; split <;> rfl
@[simp] theorem startSlot_dv (p : Params) (x : Slot) : (startSlot p x).dv = x.dv := by
  unfold startSlot; dsimp only; split <;> rfl

/-- No command of the two changes a slot's configuration. -/
theorem started_cfg (n k : Nat) : ((s.started n).slot k).cfg = (s.slot k).cfg := by
  rw [started_slot]; split <;> simp

theorem committed_cfg (k : Nat) : (s.adopt.derive.slot k).cfg = (s.slot k).cfg := by
  rw [committed_slot]; split <;> simp

/-- The block sizes and types of a slot are read off its configuration, but for the variable block of `STR`. -/
theorem inCplx_of_cfg {x y : Slot} (h : x.cfg = y.cfg) : x.inCplx = y.inCplx := by simp [Slot.inCplx, h]
theorem outCplx_of_cfg {x y : Slot} (h : x.cfg = y.cfg) : x.outCplx = y.outCplx := by simp [Slot.outCplx, h]

/-- The rings after a successful `START`: empty, and typed along the pipeline. -/
theorem started_ring (n e : Nat) (he : e < s.rings.length) (hn : n ≤ s.slots.length) (h1 : 1 ≤ n) :
    ((s.started n).ring e).queue = [] ∧
      (e = 0 → ((s.started n).ring e).cplx = (s.slot 0).inCplx) ∧
      (∀ k, e = k + 1 → k < n → ((s.started n).ring e).cplx = (s.slot k).outCplx) := by
  have hr : (s.started n).ring e = (startRings (State.derive { s.adopt with nstg := n }).slots n s.rings).getD e Ring.reset :=
    rfl
  have hslot : ∀ k, (h : k < s.slots.length) →
      ∃ y, (State.derive { s.adopt with nstg := n }).slots[k]? = some y ∧ y.cfg = (s.slot k).cfg := by
    intro k h
    have hl : k < (State.derive { s.adopt with nstg := n }).slots.length := by
      rw [derive_slots, mapFirst_length]; simpa using h
    refine ⟨_, List.getElem?_eq_getElem hl, ?_⟩
    have : (State.derive { s.adopt with nstg := n }).slots[k] = (State.derive { s.adopt with nstg := n }).slot k :=
      (slot_getElem _ hl).symm
    rw [this]
    have h3 : (State.derive { s.adopt with nstg := n }).slot k =
        if k < n ∧ k < s.adopt.slots.length then deriveSlot s.par.record s.pend (s.adopt.slot k) else s.adopt.slot k :=
      derive_slot { s.adopt with nstg := n } k
    rw [h3, adopt_slot]; split <;> simp
  rw [hr]
  unfold startRings
  rw [List.getD_eq_getElem?_getD, List.getElem?_mapIdx, List.getElem?_eq_getElem he]
  simp only [Option.map_some, Option.getD_some]
  refine ⟨trivial, ?_, ?_⟩
  · rintro rfl
    rw [if_pos rfl]
    obtain ⟨y, h1, h2⟩ := hslot 0 (by omega)
    cases hs : (State.derive { s.adopt with nstg := n }).slots with
    | nil => rw [hs] at h1; cases h1
    | cons z zs =>
      rw [hs] at h1
      simp only [List.getElem?_cons_zero, Option.some.injEq] at h1
      subst h1
      exact inCplx_of_cfg h2
  · rintro k rfl hk
    obtain ⟨y, h1, h2⟩ := hslot k (by omega)
    rw [if_neg (by omega), if_pos (by omega), Nat.add_sub_cancel, h1]
    exact outCplx_of_cfg h2

end Sys2Proof.Machine
end

