-- ==== Sys2Proof/Laws/Mem.lean ====
section
/-! SUPPORT. The entry-indexed memories: read after write, and every write keeps the canonical form. -/

namespace Sys2Proof.Machine

/-- An entry at an index below every listed one is not listed, so it reads `+0.0`. -/
theorem Mem.read_below (m : Mem) (a : Nat) (h : ∀ x ∈ m, a < x.1) : Mem.read m a = posZero := by
  induction m with
  | nil => rfl
  | cons c m ih =>
    obtain ⟨b, v⟩ := c
    have hb : a < b := h (b, v) (by simp)
    have : b ≠ a := by omega
    simp only [Mem.read, this, if_false]
    exact ih fun x hx => h x (by simp [hx])

theorem Mem.wf_tail {c : Nat × F} {m : Mem} (h : Mem.Wf (c :: m)) : Mem.Wf m :=
  ⟨(List.pairwise_cons.mp h.1).2, fun x hx => h.2 x (by simp [hx])⟩

theorem Mem.wf_above {c : Nat × F} {m : Mem} (h : Mem.Wf (c :: m)) : ∀ x ∈ m, c.1 < x.1 :=
  fun x hx => (List.pairwise_cons.mp h.1).1 x hx

/-- The indices a write lists are the old ones and the one written. -/
theorem Mem.write_index (m : Mem) (a : Nat) (v : F) (x : Nat × F) (h : x ∈ Mem.write m a v) :
    x ∈ m ∨ (x = (a, v) ∧ v ≠ posZero) := by
  induction m with
  | nil =>
    by_cases hv : v = posZero
    · simp [Mem.write, hv] at h
    · simp only [Mem.write, hv, if_false, List.mem_singleton] at h
      exact .inr ⟨h, hv⟩
  | cons c m ih =>
    obtain ⟨b, w⟩ := c
    unfold Mem.write at h
    split at h
    · split at h
      · exact .inl h
      · rename_i hv
        rcases List.mem_cons.mp h with h | h
        · exact .inr ⟨h, hv⟩
        · exact .inl h
    · split at h
      · split at h
        · exact .inl (by simp [h])
        · rename_i hv
          rcases List.mem_cons.mp h with h | h
          · exact .inr ⟨h, hv⟩
          · exact .inl (by simp [h])
      · rcases List.mem_cons.mp h with h | h
        · exact .inl (by simp [h])
        · rcases ih h with h | h
          · exact .inl (by simp [h])
          · exact .inr h

/-- A write keeps the canonical form. -/
theorem Mem.write_wf (m : Mem) (a : Nat) (v : F) (h : Mem.Wf m) : Mem.Wf (Mem.write m a v) := by
  induction m with
  | nil => by_cases hv : v = posZero <;> simp [Mem.write, Mem.Wf, hv]
  | cons c m ih =>
    have hm := Mem.wf_tail h
    have habove := Mem.wf_above h
    have hc : c.2 ≠ posZero := h.2 c (by simp)
    obtain ⟨b, w⟩ := c
    unfold Mem.write
    split
    · rename_i hlt
      split
      · exact h
      · rename_i hv
        refine ⟨List.pairwise_cons.mpr ⟨fun x hx => ?_, h.1⟩, fun x hx => ?_⟩
        · rcases List.mem_cons.mp hx with rfl | hx
          · exact hlt
          · exact lt_trans hlt (habove x hx)
        · rcases List.mem_cons.mp hx with rfl | hx
          · exact hv
          · exact h.2 x hx
    · split
      · rename_i heq
        subst heq
        split
        · exact hm
        · rename_i hv
          refine ⟨List.pairwise_cons.mpr ⟨habove, hm.1⟩, fun x hx => ?_⟩
          rcases List.mem_cons.mp hx with rfl | hx
          · exact hv
          · exact hm.2 x hx
      · rename_i hlt hne
        have hi := ih hm
        refine ⟨List.pairwise_cons.mpr ⟨fun x hx => ?_, hi.1⟩, fun x hx => ?_⟩
        · rcases Mem.write_index m a v x hx with hx | ⟨rfl, _⟩
          · exact habove x hx
          · show b < a
            omega
        · rcases List.mem_cons.mp hx with rfl | hx
          · exact hc
          · exact hi.2 x hx

/-- Read after write, at the index written and at every other. -/
theorem Mem.read_write (m : Mem) (a b : Nat) (v : F) (h : Mem.Wf m) :
    Mem.read (Mem.write m a v) b = if a = b then v else Mem.read m b := by
  induction m with
  | nil =>
    by_cases hv : v = posZero <;> by_cases hab : a = b <;> simp [Mem.write, Mem.read, hv, hab]
  | cons c m ih =>
    have hm := Mem.wf_tail h
    have habove := Mem.wf_above h
    obtain ⟨k, w⟩ := c
    unfold Mem.write
    split
    · rename_i hlt
      have hbelow : Mem.read ((k, w) :: m) a = posZero := by
        refine Mem.read_below _ _ fun x hx => ?_
        rcases List.mem_cons.mp hx with rfl | hx
        · exact hlt
        · exact lt_trans hlt (habove x hx)
      by_cases hv : v = posZero <;> by_cases hab : a = b
      · subst hab; simp [hv, hbelow]
      · simp [hv, hab]
      · subst hab; simp [hv, Mem.read]
      · simp [hv, hab, Mem.read]
    · split
      · rename_i heq
        subst heq
        by_cases hv : v = posZero <;> by_cases hab : a = b
        · subst hab
          simp [hv, Mem.read_below m a fun x hx => habove x hx]
        · simp [hv, hab, Mem.read]
        · subst hab; simp [hv, Mem.read]
        · simp [hv, hab, Mem.read]
      · rename_i hlt hne
        have hka : k ≠ a := by omega
        by_cases hkb : k = b
        · subst hkb; simp [Mem.read, hne]
        · simp only [Mem.read, hkb, if_false]
          exact ih hm

/-- Consecutive writes keep the canonical form. -/
theorem Mem.writeAll_wf (vs : List F) (m : Mem) (a : Nat) (h : Mem.Wf m) : Mem.Wf (Mem.writeAll m a vs) := by
  induction vs generalizing m a with
  | nil => exact h
  | cons v vs ih => exact ih _ _ (Mem.write_wf m a v h)

/-- Consecutive writes are read back, and every other entry is as before. -/
theorem Mem.read_writeAll (vs : List F) (m : Mem) (a b : Nat) (h : Mem.Wf m) :
    Mem.read (Mem.writeAll m a vs) b =
      if a ≤ b ∧ b < a + vs.length then vs.getD (b - a) posZero else Mem.read m b := by
  induction vs generalizing m a with
  | nil =>
    have : ¬(a ≤ b ∧ b < a + ([] : List F).length) := by simp only [List.length_nil]; omega
    rw [if_neg this]; rfl
  | cons v vs ih =>
    unfold Mem.writeAll
    rw [ih _ _ (Mem.write_wf m a v h), Mem.read_write m a b v h]
    by_cases hab : a = b
    · subst hab; simp
    · by_cases hin : a + 1 ≤ b ∧ b < a + 1 + vs.length
      · have hsub : b - a = (b - (a + 1)) + 1 := by omega
        have hin2 : a ≤ b ∧ b < a + (v :: vs).length := by simp only [List.length_cons]; omega
        rw [if_pos hin, if_pos hin2, hsub]; simp
      · have hin2 : ¬(a ≤ b ∧ b < a + (v :: vs).length) := by simp only [List.length_cons]; omega
        rw [if_neg hin, if_neg hab, if_neg hin2]

/-- A row just written reads back whole. -/
theorem Mem.readAll_writeAll (vs : List F) (m : Mem) (a : Nat) (h : Mem.Wf m) :
    Mem.readAll (Mem.writeAll m a vs) a vs.length = vs := by
  apply List.ext_getElem
  · simp [Mem.readAll]
  · intro i h1 h2
    simp [Mem.readAll, Mem.read_writeAll _ _ _ _ h, h2]

@[simp] theorem Mem.readAll_length (m : Mem) (a n : Nat) : (Mem.readAll m a n).length = n := by
  simp [Mem.readAll]

/-- Loading a tap bank keeps the canonical form of both banks. -/
theorem TapMem.load_wf (t : TapMem) (b : Bool) (vs : List F) (h0 : Mem.Wf t.bank0) (h1 : Mem.Wf t.bank1) :
    Mem.Wf (t.load b vs).bank0 ∧ Mem.Wf (t.load b vs).bank1 := by
  cases b
  · exact ⟨Mem.writeAll_wf _ _ _ h0, h1⟩
  · exact ⟨h0, Mem.writeAll_wf _ _ _ h1⟩

/-- The pending vector just loaded reads back (40_commands.md R141). -/
theorem TapMem.load_vector (t : TapMem) (b : Bool) (vs : List F) (h0 : Mem.Wf t.bank0) (h1 : Mem.Wf t.bank1) :
    (t.load b vs).vector b = vs := by
  cases b
  · exact Mem.readAll_writeAll vs t.bank0 0 h0
  · exact Mem.readAll_writeAll vs t.bank1 0 h1

/-- Loading one bank leaves the other bank's vector (40_commands.md R141). -/
theorem TapMem.load_vector_other (t : TapMem) (b : Bool) (vs : List F) : (t.load b vs).vector (!b) = t.vector (!b) := by
  cases b <;> rfl

end Sys2Proof.Machine
end

