-- ==== Sys2Proof/Laws/PerInstr.lean ====
section
/-! SUPPORT. The form of every command's packet: a header with a defined opcode and every must-be-zero bit clear,
then exactly the payload words its header announces (30_encoding.md R91, R92, R97). -/

namespace Sys2Proof.Laws

/-- The words are one packet: the header alone says how many payload words follow, and its must-be-zero bits are
clear. -/
def IsPacket (ws : List Word) : Prop :=
  ∃ hd pay mbz, ws = hd :: pay ∧ plen hd = pay.length ∧ mbzMask (opcOf hd) = some mbz ∧ hd &&& mbz = 0#32

/-- A command that fits its encoding is written as one packet. -/
def PacketForm.Statement (i : Instr) : Prop := i.wellFormed = true → IsPacket (encode i)

/-- A packet from its header's fields and the fields of the must-be-zero mask (R97). -/
theorem isPacket {o : BitVec 8} {k : BitVec 4} {a : BitVec 12} {b : BitVec 8} {pay : List Word} (mk : BitVec 4)
    (ma : BitVec 12) (mb : BitVec 8) (hm : mbzMask o = some (header 0#8 mk ma mb))
    (hl : plen (header o k a b) = pay.length) (hk : k &&& mk = 0#4) (ha : a &&& ma = 0#12) (hb : b &&& mb = 0#8) :
    IsPacket (header o k a b :: pay) :=
  ⟨_, pay, _, rfl, hl, by rw [opcOf_header, hm], by rw [header_and, BitVec.and_zero, hk, ha, hb]; rfl⟩

theorem flagArg_mbz (f : Bool) : flagArg f &&& 0xFFE#12 = 0#12 := by cases f <;> decide
theorem lognph_mbz (x : BitVec 4) : x.setWidth 12 &&& 0xFF0#12 = 0#12 := by revert x; decide
theorem nt_mbz (x : BitVec 5) : x.setWidth 8 &&& 0xE0#8 = 0#8 := by revert x; decide

theorem plen_ldtap (slot : BitVec 4) (taps : List F) (h : (Instr.ldtap slot taps).wellFormed = true) :
    plen (header 0x20#8 slot (BitVec.ofNat 12 taps.length) 0#8) = (taps.flatMap fWords).length := by
  have hl : taps.length ≤ 4095 := of_decide_eq_true h
  simp only [plen, opcOf_header, argOf_header, flatMap_fWords_length, BitVec.toNat_ofNat]
  rw [Nat.mod_eq_of_lt (by omega)]

theorem plen_lditb (slot : BitVec 4) (row : BitVec 12) (coeffs : List F)
    (h : (Instr.lditb slot row coeffs).wellFormed = true) :
    plen (header 0x21#8 slot row (BitVec.ofNat 8 coeffs.length)) = (coeffs.flatMap fWords).length := by
  have hl : coeffs.length ≤ 255 := of_decide_eq_true h
  simp only [plen, opcOf_header, arg2Of_header, flatMap_fWords_length, BitVec.toNat_ofNat]
  rw [Nat.mod_eq_of_lt (by omega)]

theorem PacketForm.nop : PacketForm.Statement .nop :=
  fun _ => isPacket 0xF#4 0xFFF#12 0xFF#8 rfl rfl rfl rfl rfl

theorem PacketForm.reset : PacketForm.Statement .reset :=
  fun _ => isPacket 0xF#4 0xFFF#12 0xFF#8 rfl rfl rfl rfl rfl

theorem PacketForm.start : PacketForm.Statement .start :=
  fun _ => isPacket 0xF#4 0xFFF#12 0xFF#8 rfl rfl rfl rfl rfl

theorem PacketForm.stop : PacketForm.Statement .stop :=
  fun _ => isPacket 0xF#4 0xFFF#12 0xFF#8 rfl rfl rfl rfl rfl

theorem PacketForm.wait : PacketForm.Statement .wait :=
  fun _ => isPacket 0xF#4 0xFFF#12 0xFF#8 rfl rfl rfl rfl rfl

theorem PacketForm.commit : PacketForm.Statement .commit :=
  fun _ => isPacket 0xF#4 0xFFF#12 0xFF#8 rfl rfl rfl rfl rfl

theorem PacketForm.cfgNone (slot : BitVec 4) : PacketForm.Statement (.cfgNone slot) :=
  fun _ => isPacket 0#4 0xFFF#12 0xFF#8 rfl (by rw [plen, opcOf_header]; rfl) BitVec.and_zero rfl rfl

theorem PacketForm.cfgSql (slot : BitVec 4) (alpha hyst : F) : PacketForm.Statement (.cfgSql slot alpha hyst) :=
  fun _ => isPacket 0#4 0xFFF#12 0xFF#8 rfl (by rw [plen, opcOf_header]; rfl) BitVec.and_zero rfl rfl

theorem PacketForm.cfgFmd (slot : BitVec 4) (rsel : Bool) : PacketForm.Statement (.cfgFmd slot rsel) :=
  fun _ => isPacket 0#4 0xFFE#12 0xFF#8 rfl (by rw [plen, opcOf_header]; rfl) BitVec.and_zero (flagArg_mbz rsel) rfl

theorem PacketForm.cfgFir (slot : BitVec 4) (cplx : Bool) (l m : BitVec 16) : PacketForm.Statement (.cfgFir slot cplx l m) :=
  fun _ => isPacket 0#4 0xFFE#12 0xFF#8 rfl (by rw [plen, opcOf_header]; rfl) BitVec.and_zero (flagArg_mbz cplx) rfl

theorem PacketForm.cfgRsp (slot : BitVec 4) (cplx : Bool) (l m : BitVec 16) (fbw : F) : PacketForm.Statement (.cfgRsp slot cplx l m fbw) :=
  fun _ => isPacket 0#4 0xFFE#12 0xFF#8 rfl (by rw [plen, opcOf_header]; rfl) BitVec.and_zero (flagArg_mbz cplx) rfl

theorem PacketForm.cfgStr (slot : BitVec 4) (lognph : BitVec 4) (nt : BitVec 5) (delta kp plim : F) : PacketForm.Statement (.cfgStr slot lognph nt delta kp plim) :=
  fun _ => isPacket 0#4 0xFF0#12 0xE0#8 rfl (by rw [plen, opcOf_header]; rfl) BitVec.and_zero (lognph_mbz lognph) (nt_mbz nt)

theorem PacketForm.ldtap (slot : BitVec 4) (taps : List F) : PacketForm.Statement (.ldtap slot taps) :=
  fun h => isPacket 0#4 0#12 0xFF#8 rfl (plen_ldtap slot taps h) BitVec.and_zero BitVec.and_zero rfl

theorem PacketForm.lditb (slot : BitVec 4) (row : BitVec 12) (coeffs : List F) : PacketForm.Statement (.lditb slot row coeffs) :=
  fun h => isPacket 0#4 0#12 0#8 rfl (plen_lditb slot row coeffs h) BitVec.and_zero BitVec.and_zero BitVec.and_zero

theorem PacketForm.setFs (v : F) : PacketForm.Statement (.setFs v) :=
  fun _ => isPacket 0xF#4 0xFFF#12 0xFF#8 rfl rfl rfl rfl rfl

theorem PacketForm.setRffs (v : F) : PacketForm.Statement (.setRffs v) :=
  fun _ => isPacket 0xF#4 0xFFF#12 0xFF#8 rfl rfl rfl rfl rfl

theorem PacketForm.setDev (v : F) : PacketForm.Statement (.setDev v) :=
  fun _ => isPacket 0xF#4 0xFFF#12 0xFF#8 rfl rfl rfl rfl rfl

theorem PacketForm.setBaud (v : F) : PacketForm.Statement (.setBaud v) :=
  fun _ => isPacket 0xF#4 0xFFF#12 0xFF#8 rfl rfl rfl rfl rfl

theorem PacketForm.setThr (v : F) : PacketForm.Statement (.setThr v) :=
  fun _ => isPacket 0xF#4 0xFFF#12 0xFF#8 rfl rfl rfl rfl rfl

theorem PacketForm.setLg (v : F) : PacketForm.Statement (.setLg v) :=
  fun _ => isPacket 0xF#4 0xFFF#12 0xFF#8 rfl rfl rfl rfl rfl

theorem PacketForm.setFc (v : F) : PacketForm.Statement (.setFc v) :=
  fun _ => isPacket 0xF#4 0xFFF#12 0xFF#8 rfl rfl rfl rfl rfl

theorem PacketForm.rdcsr (n : BitVec 12) : PacketForm.Statement (.rdcsr n) :=
  fun _ => isPacket 0xF#4 0#12 0xFF#8 rfl (by rw [plen, opcOf_header]; rfl) rfl BitVec.and_zero rfl

end Sys2Proof.Laws
end

