-- ==== Sys2Proof/Laws/Stages.lean ====
section
/-! SUPPORT. The inner loops of the filter stages and the two shifts: what they answer and how long it is. -/

namespace Sys2Proof.Machine

/-! ### Finite samples -/

/-- What `finite` of a sample of an edge asks of its components (00_scope.md R10). -/
theorem finiteOn_iff (N : NumRecord) (cplx : Bool) (x : Sample) :
    x.finiteOn N cplx = true ↔ N.finite x.re = true ∧ (cplx = true → N.finite x.im = true) := by
  cases cplx <;> simp [Sample.finiteOn, Sample.finite]

/-- In the default record a sample of an edge is finite in both components, a real one because its second is `+0.0`. -/
theorem finite_of_finiteOn {cplx : Bool} {x : Sample} (h : x.finiteOn NUM.binary64 cplx = true)
    (hz : cplx = false → x.im = posZero) : x.finite NUM.binary64 = true := by
  cases cplx with
  | true => exact h
  | false =>
    have hr : NUM.finite x.re = true := h
    simp only [Sample.finite, hz rfl, hr, NUM.finite_zero, Bool.and_self]

/-! ### The emitting loop (44_fir.md R236) -/

/-- Enough fuel: the loop either emits the outputs at the positions `t0, t0 + m, …` below `l` and stops at the first
position that is not below, or one of those outputs is not finite. -/
theorem emitWhile_some (N : NumRecord) (cplx : Bool) (taps : List F) (hist : List Sample) (l m : Nat) (hm : 1 ≤ m) :
    ∀ (fuel t0 : Nat) (ys : List Sample) (t : Nat), l - t0 ≤ fuel →
      emitWhile N cplx taps hist l m fuel t0 = some (ys, t) →
      t = t0 + ys.length * m ∧ l ≤ t ∧ (∀ j < ys.length, t0 + j * m < l) ∧
        ys = (List.range ys.length).map (fun j => pout N cplx taps hist l (t0 + j * m)) ∧
        ∀ y ∈ ys, y.finiteOn N cplx = true := by
  intro fuel
  induction fuel with
  | zero =>
    intro t0 ys t hf h
    simp only [emitWhile, Option.some.injEq, Prod.mk.injEq] at h
    obtain ⟨rfl, rfl⟩ := h
    simp; omega
  | succ fuel ih =>
    intro t0 ys t hf h
    unfold emitWhile at h
    split at h
    · rename_i hlt
      simp only at h
      split at h
      · rename_i hy
        cases he : emitWhile N cplx taps hist l m fuel (t0 + m) with
        | none => rw [he] at h; cases h
        | some v =>
          obtain ⟨zs, u⟩ := v
          rw [he] at h
          simp only [Option.some.injEq, Prod.mk.injEq] at h
          obtain ⟨rfl, rfl⟩ := h
          obtain ⟨h1, h2, h3, h4, h5⟩ := ih (t0 + m) zs u (by omega) he
          refine ⟨?_, h2, ?_, ?_, ?_⟩
          · rw [h1, List.length_cons]; ring
          · intro j hj
            cases j with
            | zero => simpa using hlt
            | succ j =>
              have := h3 j (by simpa using hj)
              have e : (j + 1) * m = j * m + m := by ring
              omega
          · rw [List.length_cons, List.range_succ_eq_map, List.map_cons, List.map_map]
            simp only [Nat.zero_mul, Nat.add_zero]
            congr 1
            conv_lhs => rw [h4]
            apply List.map_congr_left
            intro j _
            have e : t0 + m + j * m = t0 + (j + 1) * m := by ring
            simp only [Function.comp_apply, e, Nat.succ_eq_add_one]
          · intro y hy'
            rcases List.mem_cons.mp hy' with rfl | hy'
            · exact hy
            · exact h5 y hy'
      · cases h
    · rename_i hge
      simp only [Option.some.injEq, Prod.mk.injEq] at h
      obtain ⟨rfl, rfl⟩ := h
      simp; omega

/-- The loop fails only at an output that is not finite. -/
theorem emitWhile_none (N : NumRecord) (cplx : Bool) (taps : List F) (hist : List Sample) (l m : Nat) :
    ∀ (fuel t0 : Nat), emitWhile N cplx taps hist l m fuel t0 = none →
      ∃ j, t0 + j * m < l ∧ (pout N cplx taps hist l (t0 + j * m)).finiteOn N cplx = false := by
  intro fuel
  induction fuel with
  | zero => intro t0 h; cases h
  | succ fuel ih =>
    intro t0 h
    unfold emitWhile at h
    split at h
    · rename_i hlt
      simp only at h
      split at h
      · cases he : emitWhile N cplx taps hist l m fuel (t0 + m) with
        | none =>
          obtain ⟨j, h1, h2⟩ := ih _ he
          refine ⟨j + 1, ?_, ?_⟩
          · have e : (j + 1) * m = j * m + m := by ring
            omega
          · have e : t0 + (j + 1) * m = t0 + m + j * m := by ring
            rw [e]; exact h2
        | some v => rw [he] at h; cases h
      · rename_i hy
        exact ⟨0, by simpa using hlt, by simpa using hy⟩
    · cases h

/-! ### Lengths and finiteness -/

theorem shiftHist_length (p : Params) (cplx : Bool) (hist : List Sample) (v : Sample) (h : hist.length = p.tapmax) :
    (shiftHist p cplx hist v).length = p.tapmax := by
  simp [shiftHist, h]

theorem shiftHist_mem (p : Params) (cplx : Bool) (hist : List Sample) (v y : Sample)
    (h : y ∈ shiftHist p cplx hist v) : y ∈ hist ∨ y = if cplx then v else { v with im := posZero } := by
  rcases List.mem_cons.mp (List.mem_of_mem_take h) with h | h
  · exact .inr h
  · exact .inl h

theorem shiftWin_length (w : Nat) (win : List F) (v : F) (hw : 1 ≤ w) (h : w ≤ win.length) :
    (shiftWin w win v).length = win.length := by
  simp [shiftWin, h]; omega

theorem shiftWin_mem (w : Nat) (win : List F) (v y : F) (h : y ∈ shiftWin w win v) : y ∈ win ∨ y = v := by
  rcases List.mem_append.mp h with h | h
  · exact .inl (List.mem_of_mem_take (List.mem_of_mem_drop h))
  · rcases List.mem_cons.mp h with h | h
    · exact .inr h
    · exact .inl (List.mem_of_mem_drop h)

/-- The window keeps its depth over any number of samples. -/
theorem foldl_shiftWin_length (w : Nat) (vs : List F) (win : List F) (hw : 1 ≤ w) (h : w ≤ win.length) :
    (vs.foldl (shiftWin w) win).length = win.length := by
  induction vs generalizing win with
  | nil => rfl
  | cons v vs ih =>
    have hl := shiftWin_length w win v hw h
    rw [List.foldl_cons, ih _ (by omega), hl]

/-- Every window entry was there before or is one of the samples. -/
theorem foldl_shiftWin_mem (w : Nat) (vs : List F) (win : List F) (y : F) (h : y ∈ vs.foldl (shiftWin w) win) :
    y ∈ win ∨ y ∈ vs := by
  induction vs generalizing win with
  | nil => exact .inl h
  | cons v vs ih =>
    rcases ih _ h with h | h
    · rcases shiftWin_mem w win v y h with h | h
      · exact .inl h
      · exact .inr (by simp [h])
    · exact .inr (by simp [h])

/-- The outer loop of the filters: the history keeps its depth, every output is finite, the history holds old
entries and inputs. -/
theorem polyphase_facts (p : Params) (cplx : Bool) (taps : List F) (l m : Nat) (hm : 1 ≤ m) :
    ∀ (xs : List Sample) (t0 : Nat) (hist out hist' : List Sample),
      polyphase p cplx taps l m xs t0 hist = some (out, hist') →
      hist' = xs.foldl (shiftHist p cplx) hist ∧
        (∀ y ∈ out, y.finiteOn p.record cplx = true ∧ (cplx = false → y.im = posZero)) ∧
        ((xs = [] ∧ out = []) ∨ (xs.length * l ≤ t0 + out.length * m ∧
          ∀ j < out.length, t0 + j * m < xs.length * l)) := by
  intro xs
  induction xs with
  | nil =>
    intro t0 hist out hist' h
    simp only [polyphase, Option.some.injEq, Prod.mk.injEq] at h
    obtain ⟨rfl, rfl⟩ := h
    exact ⟨rfl, by simp, .inl ⟨rfl, rfl⟩⟩
  | cons x xs ih =>
    intro t0 hist out hist' h
    unfold polyphase at h
    simp only at h
    cases he : emitWhile p.record cplx taps (shiftHist p cplx hist x) l m l t0 with
    | none => rw [he] at h; cases h
    | some v =>
      obtain ⟨ys, t⟩ := v
      rw [he] at h
      simp only at h
      cases hp : polyphase p cplx taps l m xs (t - l) (shiftHist p cplx hist x) with
      | none => rw [hp] at h; cases h
      | some w =>
        obtain ⟨zs, h'⟩ := w
        rw [hp] at h
        simp only [Option.some.injEq, Prod.mk.injEq] at h
        obtain ⟨rfl, rfl⟩ := h
        obtain ⟨e1, e2, e3, e4, e5⟩ := emitWhile_some p.record cplx taps _ l m hm l t0 ys t (by omega) he
        obtain ⟨i1, i2, i3⟩ := ih _ _ _ _ hp
        refine ⟨by rw [i1]; rfl, ?_, .inr ?_⟩
        · intro y hy
          rcases List.mem_append.mp hy with hy | hy
          · refine ⟨e5 y hy, ?_⟩
            rintro rfl
            rw [e4] at hy
            obtain ⟨j, _, rfl⟩ := List.mem_map.mp hy
            rfl
          · exact i2 y hy
        · rw [List.length_append, List.length_cons]
          have ea : (xs.length + 1) * l = xs.length * l + l := by ring
          have eb : (ys.length + zs.length) * m = ys.length * m + zs.length * m := by ring
          rcases i3 with ⟨rfl, rfl⟩ | ⟨i3, i4⟩
          · simp only [List.length_nil, Nat.zero_mul, Nat.zero_add, Nat.add_zero] at *
            refine ⟨by omega, fun j hj => ?_⟩
            have := e3 j hj
            omega
          · refine ⟨by omega, fun j hj => ?_⟩
            by_cases hjy : j < ys.length
            · have := e3 j hjy; omega
            · have h1 := i4 (j - ys.length) (by omega)
              have ec : j * m = ys.length * m + (j - ys.length) * m := by
                rw [← Nat.add_mul]; congr 1; omega
              omega

/-- From position 0, `M` inputs give exactly `L` outputs (44_fir.md R236). -/
theorem polyphase_length (p : Params) (cplx : Bool) (taps : List F) (l m : Nat) (hm : 1 ≤ m) (xs hist out hist' : List Sample)
    (hx : xs.length = m) (h : polyphase p cplx taps l m xs 0 hist = some (out, hist')) : out.length = l := by
  obtain ⟨_, _, h3⟩ := polyphase_facts p cplx taps l m hm xs 0 hist out hist' h
  rcases h3 with ⟨rfl, rfl⟩ | ⟨h3, h4⟩
  · simp at hx; omega
  · rw [hx] at h3 h4
    have h5 : l ≤ out.length := by
      have : m * l ≤ m * out.length := by rw [Nat.mul_comm m out.length]; omega
      exact Nat.le_of_mul_le_mul_left this (by omega)
    rcases Nat.lt_or_ge l out.length with hlt | hge
    · have := h4 l hlt
      rw [Nat.zero_add, Nat.mul_comm] at this
      omega
    · omega

end Sys2Proof.Machine
end

