-- ==== Sys2Proof/Tests/Slice0.lean ====
section
/-! SUPPORT. The author's own tests: encodings written out from the spec, one-step tests on small states with
results from the spec's examples, and for every statement a witness of its hypotheses. -/

namespace Sys2Proof.Tests

set_option Elab.async false

open Sys2Proof Sys2Proof.Machine

/-! ### Well-formedness -/

theorem test_too_many_taps_refused : (Instr.ldtap 0#4 (List.replicate 4096 0#64)).wellFormed = false := by
  decide +kernel

theorem test_too_many_coeffs_refused : (Instr.lditb 0#4 0#12 (List.replicate 256 0#64)).wellFormed = false := by
  decide +kernel

/-! ### Encodings: the words are the examples of 40_commands.md R121 to R160 and 95_test_vectors.md -/

/-- The words are exactly one packet of the command `i`, and the encoder writes them. -/
abbrev Encodes (ws : List Word) (i : Instr) : Prop := decode ws = .instr i [] ∧ encode i = ws

theorem test_decode_nop : Encodes [0x00000000#32] .nop := by decide +kernel
theorem test_decode_reset : Encodes [0x01000000#32] .reset := by decide +kernel
theorem test_decode_start : Encodes [0x02000000#32] .start := by decide +kernel
theorem test_decode_stop : Encodes [0x03000000#32] .stop := by decide +kernel
theorem test_decode_wait : Encodes [0x04000000#32] .wait := by decide +kernel
theorem test_decode_commit : Encodes [0x05000000#32] .commit := by decide +kernel
theorem test_decode_cfg_none : Encodes [0x10300000#32] (.cfgNone 3#4) := by decide +kernel
theorem test_decode_cfg_sql :
    Encodes [0x11000000#32, 0x00000000#32, 0x3FE00000#32, 0x00000000#32, 0x40080000#32]
      (.cfgSql 0#4 0x3FE0000000000000#64 0x4008000000000000#64) := by decide +kernel
theorem test_decode_cfg_fmd : Encodes [0x12100000#32] (.cfgFmd 1#4 false) := by decide +kernel
theorem test_decode_cfg_fmd_rsel : Encodes [0x12100100#32] (.cfgFmd 1#4 true) := by decide +kernel
theorem test_decode_cfg_fir : Encodes [0x13200000#32, 0x00010002#32] (.cfgFir 2#4 false 1#16 2#16) := by decide +kernel
theorem test_decode_cfg_rsp :
    Encodes [0x14000100#32, 0x00030002#32, 0x9999999A#32, 0x3FD99999#32]
      (.cfgRsp 0#4 true 3#16 2#16 0x3FD999999999999A#64) := by decide +kernel
theorem test_decode_cfg_str :
    Encodes [0x15400708#32, 0x00000000#32, 0x3FE00000#32, 0x00000000#32, 0x3FC00000#32, 0x00000000#32, 0x3FD00000#32]
      (.cfgStr 4#4 7#4 8#5 0x3FE0000000000000#64 0x3FC0000000000000#64 0x3FD0000000000000#64) := by decide +kernel
theorem test_decode_ldtap :
    Encodes [0x20000300#32, 0x00000000#32, 0x3FF00000#32, 0x00000000#32, 0x40000000#32, 0x00000000#32, 0x40080000#32]
      (.ldtap 0#4 [0x3FF0000000000000#64, 0x4000000000000000#64, 0x4008000000000000#64]) := by decide +kernel
theorem test_decode_lditb :
    Encodes [0x21000204#32, 0x00000000#32, 0xBFB00000#32, 0x00000000#32, 0x3FE20000#32, 0x00000000#32, 0x3FE20000#32,
        0x00000000#32, 0xBFB00000#32]
      (.lditb 0#4 2#12
        [0xBFB0000000000000#64, 0x3FE2000000000000#64, 0x3FE2000000000000#64, 0xBFB0000000000000#64]) := by
  decide +kernel
theorem test_decode_set_fs : Encodes [0x30000000#32, 0x00000000#32, 0x40D77000#32] (.setFs 0x40D7700000000000#64) := by
  decide +kernel
theorem test_decode_set_rffs :
    Encodes [0x31000000#32, 0x00000000#32, 0x40E77000#32] (.setRffs 0x40E7700000000000#64) := by decide +kernel
theorem test_decode_set_dev :
    Encodes [0x32000000#32, 0x00000000#32, 0x40A38800#32] (.setDev 0x40A3880000000000#64) := by decide +kernel
theorem test_decode_set_baud :
    Encodes [0x33000000#32, 0x00000000#32, 0x40B2C000#32] (.setBaud 0x40B2C00000000000#64) := by decide +kernel
theorem test_decode_set_thr :
    Encodes [0x34000000#32, 0x00000000#32, 0xC03E0000#32] (.setThr 0xC03E000000000000#64) := by decide +kernel
theorem test_decode_set_lg : Encodes [0x35000000#32, 0x00000000#32, 0x3FB00000#32] (.setLg 0x3FB0000000000000#64) := by
  decide +kernel
theorem test_decode_set_fc :
    Encodes [0x36000000#32, 0x80000000#32, 0x41BA956B#32] (.setFc 0x41BA956B80000000#64) := by decide +kernel
theorem test_decode_rdcsr : Encodes [0x40000100#32] (.rdcsr 1#12) := by decide +kernel

/-- V-ENC-3, V-ENC-5 and V-ENC-6: a reserved opcode, and must-be-zero bits with the payload consumed. -/
theorem test_decode_refusals :
    decode [0xFF123456#32, 0#32] = .reserved 0xFF#8 [0#32] ∧ decode [0x12000200#32] = .badField [] ∧
    decode [0x15000024#32, 1#32, 2#32, 3#32, 4#32, 5#32, 6#32, 7#32] = .badField [7#32] ∧
    decode [0x30000000#32, 0#32] = .incomplete := by decide +kernel

theorem test_asm_cfg_fir : asm (.cfgFir 2#4 false 1#16 2#16) = "cfg.fir s=2, cplx=0, l=1, m=2" := by decide +kernel

/-! ### Small states -/

def one : F := 0x3FF0000000000000#64
def half : F := 0x3FE0000000000000#64
def two : F := 0x4000000000000000#64
def three : F := 0x4008000000000000#64
def four : F := 0x4010000000000000#64
def five : F := 0x4014000000000000#64
def inf : F := 0x7FF0000000000000#64
def real (v : F) : Sample := { re := v, im := posZero }

/-- Two slots, rings of six samples, three taps, a window of seven, tables of five rows of four. -/
def par : Params :=
  { nslot := 2, rcap := 6, tapmax := 3, hlen := 7, ntmax := 4, lognphmax := 2, num := .binary64,
    idValue := 0x5253545200000001#64 }

def blank : Slot := Slot.reset par

/-- The reset state with the lifecycle state `lc`. -/
def at_ (lc : Lifecycle) : State :=
  { State.init par with lc := lc, fcode := if lc = .faulted then .numStage else .noFault }

/-- A slot configured as `c`. -/
def withCfg (c : SlotCfg) : Slot := { blank with cfg := c }

/-- A real filter slot with rate factors `l` and `m` whose active bank holds the taps 1, 2, 3. -/
def firSlot (l m : BitVec 16) : Slot :=
  { blank with
    cfg := { SlotCfg.reset with kind := .fir, l := l, m := m }
    taps := { TapMem.reset with bank0 := [(0, one), (1, two), (2, three)], count0 := 3 } }

/-- A squelch slot with `ALPHA = 0.5`, `HYST = 0` and both thresholds 1 (V-SQL-1). -/
def sqlSlot : Slot :=
  { blank with
    cfg := { SlotCfg.reset with kind := .sql, par1 := half }
    dv := { Derived.reset with tho := one, thc := one } }

/-- A demodulator slot with `GAIN = 1`. -/
def fmdSlot : Slot :=
  { blank with cfg := { SlotCfg.reset with kind := .fmd }, dv := { Derived.reset with gain := one } }

/-- The table of 45_str.md R272, its five rows one after the other. -/
def table : Mem :=
  [(1, one),
   (4, 0xBFAC000000000000#64), (5, 0x3FEA400000000000#64), (6, 0x3FD1800000000000#64), (7, 0xBFA4000000000000#64),
   (8, 0xBFB0000000000000#64), (9, 0x3FE2000000000000#64), (10, 0x3FE2000000000000#64), (11, 0xBFB0000000000000#64),
   (12, 0xBFA4000000000000#64), (13, 0x3FD1800000000000#64), (14, 0x3FEA400000000000#64), (15, 0xBFAC000000000000#64),
   (18, one)]

/-- The timing recovery slot of 45_str.md R272 after `START`, with `MU = mu` and `SKIP = skip`. -/
def strSlot (mu : F) (skip : BitVec 32) : Slot :=
  { blank with
    cfg := { SlotCfg.reset with
      kind := .str, nt := 4#5, lognph := 2#4, par1 := half, par2 := 0x3FC0000000000000#64,
      par3 := 0x3FD0000000000000#64 }
    itb := { coeffs := table, valid := 0x1F#1025 }
    dv := { Derived.reset with p0 := four, rng := one, pmin := three, pmax := five, dc := 1#8, w := 7#8, cb := 2#8 }
    rt := { Runtime.reset par with mu := mu, period := four, skip := skip } }

/-- `FS = 4`, `BAUD = 1`, `LG = 0.0625` (45_str.md R272). -/
def rates : Tunables := { Tunables.zero with fs := four, baud := one, lg := 0x3FB0000000000000#64 }

/-- A pipeline of one stage `x` in lifecycle state `lc`, its rings holding `ins` and `outs`. -/
def pipe (lc : Lifecycle) (x : Slot) (ins outs : List Sample) : State :=
  { at_ lc with
    nstg := 1
    pend := rates
    actv := rates
    slots := [x, blank]
    rings := [{ queue := ins, cplx := x.inCplx }, { queue := outs, cplx := x.outCplx }, Ring.reset] }

/-- The state with the agent `a` to move next and the words `ws` at the command port. -/
def moves (a : Agent) (ws : List Word) (s : State) : State := { s with plan := [a], cmdIn := ws }

/-- The next state of an outcome that has one. -/
def after (o : Out) : State :=
  match o with
  | .next t => t
  | .fault _ => State.init par
  | .refused _ => State.init par

/-! ### One step of every command -/

theorem test_nop_answers_ok : (after (exec .nop (at_ .faulted))).resp = [0x00000000#32] := by decide +kernel
theorem test_reset_from_faulted : after (exec .reset (at_ .faulted)) = { at_ .idle with resp := [0x00000000#32] } := by
  decide +kernel

/-- P1: one filter stage starts; the response carries the number of stages. -/
theorem test_start_fir :
    let t := after (exec .start { at_ .idle with slots := [firSlot 1#16 1#16, blank] })
    t.lc = .running ∧ t.nstg = 1 ∧ t.resp = [0x00000001#32] := by decide +kernel
/-- P5: `START` with no configured slot answers `ERR_FAULT`, `CFG_EMPTY`, slot `0xF`. -/
theorem test_start_empty :
    let t := after (exec .start (at_ .idle))
    t.lc = .faulted ∧ t.resp = [0x10000F01#32] := by decide +kernel
theorem test_stop_running : (after (exec .stop (at_ .running))).lc = .stopping := by decide +kernel
theorem test_stop_idle : (after (exec .stop (at_ .idle))).lc = .idle := by decide +kernel
/-- V-FLT-5: the latch as `WAIT` shows it. -/
theorem test_wait_shows_latch :
    (after (exec .wait { at_ .faulted with fcode := .ioExternal, fslot := 0xF#4 })).resp = [0x000F1304#32] := by
  decide +kernel
theorem test_wait_held : (after (exec .wait (at_ .running))).cmdIn = [0x04000000#32] := by decide +kernel
/-- V-FLT-4: `COMMIT` with the deviation 0 is refused with `CFG_DEV` of slot 0. -/
theorem test_commit_zero_deviation :
    (after (exec .commit (pipe .running fmdSlot [] []))).resp = [0x10000006#32] := by decide +kernel
/-- P6: the retuned gain, bit for bit. -/
theorem test_commit_gain :
    let s := { pipe .running fmdSlot [] [] with
      pend := { Tunables.zero with fs := 0x40D7700000000000#64, dev := 0x40B3880000000000#64 } }
    (after (exec .commit s)).csr 0x10A#12 = some 0x3FE8723A1D588A36#64 := by decide +kernel
theorem test_cfg_none_clears : ((after (exec (.cfgNone 0#4) (pipe .halted (firSlot 1#16 1#16) [] []))).slot 0) = blank := by
  decide +kernel
theorem test_cfg_sql_registers :
    let t := after (exec (.cfgSql 1#4 half three) (at_ .idle))
    t.csr 0x110#12 = some 0x0000000100010001#64 ∧ t.csr 0x111#12 = some half ∧ t.csr 0x112#12 = some three := by
  decide +kernel
theorem test_cfg_fmd_register :
    (after (exec (.cfgFmd 0#4 true) (at_ .idle))).csr 0x100#12 = some 0x000000010001000A#64 := by decide +kernel
/-- P1: `CFGW[0]` of a plain filter. -/
theorem test_cfg_fir_register :
    (after (exec (.cfgFir 0#4 false 1#16 1#16) (at_ .idle))).csr 0x100#12 = some 0x0000000100010003#64 := by decide +kernel
theorem test_cfg_rsp_register :
    (after (exec (.cfgRsp 0#4 true 3#16 2#16 half) (at_ .idle))).csr 0x100#12 = some 0x000000030002000C#64 := by
  decide +kernel
theorem test_cfg_str_register :
    (after (exec (.cfgStr 0#4 7#4 8#5 half one two) (at_ .halted))).csr 0x100#12 = some 0x0000000100010E85#64 := by
  decide +kernel
/-- P5: `TAPINFO` with one tap in the pending bank. -/
theorem test_ldtap_info :
    let s := { at_ .running with slots := [{ firSlot 1#16 1#16 with taps := TapMem.reset }, blank] }
    (after (exec (.ldtap 0#4 [one]) s)).csr 0x104#12 = some 0x0000000200010000#64 := by decide +kernel
/-- V-ENC-9: the kind is checked before the count. -/
theorem test_ldtap_kind :
    (after (exec (.ldtap 0#4 [one, one, one, one]) (at_ .idle))).resp = [0x06000000#32] := by decide +kernel
theorem test_lditb_last_row :
    let t := after (exec (.lditb 0#4 4#12 [posZero, posZero, two, posZero]) (pipe .halted (strSlot 0#64 5#32) [] []))
    Mem.read (t.slot 0).itb.coeffs 18 = two ∧ Mem.read (t.slot 0).itb.coeffs 15 = 0xBFAC000000000000#64 := by
  decide +kernel
theorem test_set_fs : (after (exec (.setFs five) (at_ .idle))).csr 0x010#12 = some five := by decide +kernel
theorem test_set_rffs : (after (exec (.setRffs five) (at_ .idle))).csr 0x012#12 = some five := by decide +kernel
theorem test_set_dev : (after (exec (.setDev five) (at_ .running))).csr 0x014#12 = some five := by decide +kernel
theorem test_set_baud : (after (exec (.setBaud five) (at_ .stopping))).csr 0x016#12 = some five := by decide +kernel
theorem test_set_thr : (after (exec (.setThr five) (at_ .halted))).csr 0x018#12 = some five := by decide +kernel
theorem test_set_lg : (after (exec (.setLg five) (at_ .idle))).csr 0x01A#12 = some five := by decide +kernel
theorem test_set_fc : (after (exec (.setFc inf) (at_ .idle))).csr 0x01C#12 = some inf := by decide +kernel
/-- R160: in `RUNNING` with nothing else set. -/
theorem test_rdcsr_status :
    (after (exec (.rdcsr 0x001#12) (at_ .running))).resp = [0x00000000#32, 0x00000001#32, 0x00000000#32] := by
  decide +kernel
/-- V-ENC-11: a number that is no register. -/
theorem test_rdcsr_unknown : (after (exec (.rdcsr 0x003#12) (at_ .idle))).resp = [0x05000003#32] := by decide +kernel

/-- The command placed with `withFetchWord` is the one that runs first after reset. -/
theorem test_fetch_word :
    (State.reset.withFetchWord 32 0x03000000).nextAgent = .hostCmd ∧
    decode (State.reset.withFetchWord 32 0x03000000).cmdIn = .instr .stop [] ∧
    decodeTableWord 32 0x03000000 = some .stop := by decide +kernel

/-- `NUM` is a parameter: an engine with another record computes with that record. -/
theorem test_other_record (n : Nat) (x : Slot) (v : Sample) (h : x.cfg.kind = .sql) :
    invoke (State.init { par with num := .other n }) x [v] = invokeSql (Config.numRecord n) x v := by
  unfold invoke
  rw [h]
  rfl

/-- On a real edge the value alone decides, whatever the record says of `+0.0` (41_ring_scheduler.md R176). -/
theorem test_real_sample_finite (N : NumRecord) (v : F) : (real v).finiteOn N false = N.finite v := rfl

theorem test_two : NUM.ofInt 2 = two := by decide +kernel

/-! ### The stages -/

/-- V-FIR-1, output 1: the second tap on the input one sample back. -/
theorem test_fir_three_taps :
    let x := firSlot 1#16 1#16
    let k := { x with rt := { x.rt with hist := [real one, real posZero, real posZero] } }
    pfir par k [real posZero] = .emit [real two] { k.rt with hist := [real posZero, real one, real posZero] } := by
  decide +kernel

/-- 44_fir.md R241: interpolation by 2 with the taps 1, 2, 3 gives, for the first input 1, the outputs 1 and 2. -/
theorem test_fir_interpolates :
    (match pfir par (firSlot 2#16 1#16) [real one] with
      | .emit out _ => out | .raise => [] | .stuck _ => []) = [real one, real two] := by decide +kernel

/-- V-SQL-1, sample 1: the power 0.5 and the sample (1, 1) open the gate at 1.25. -/
theorem test_squelch_opens :
    let k := { sqlSlot with rt := { sqlSlot.rt with pwr := half } }
    invokeSql par.record k { re := one, im := one } =
      .emit [{ re := one, im := one }] { k.rt with pwr := 0x3FF4000000000000#64, gate := true } := by decide +kernel

/-- V-FMD-1, sample 3: no phase step gives `+0.0`. -/
theorem test_demodulator_no_step :
    let v : Sample := { re := 0xBFF0000000000000#64, im := posZero }
    let k := { fmdSlot with rt := { fmdSlot.rt with prev := v } }
    invokeFmd par.record k v = .emit [real posZero] k.rt := by decide +kernel

/-- 45_str.md R272 (V-STR-1, symbol 0): `ERR`, `INTEG`, `PERIOD`, `MU`, `SKIP` and the emitted sample. -/
theorem test_timing_first_symbol :
    (match invokeStr par rates.lg (strSlot 0#64 5#32)
        [real two, real four, real two, real posZero, real 0xC000000000000000#64] with
      | .emit out rt => some (out, rt.err, rt.integ, rt.period, rt.mu, rt.skip)
      | .raise => none
      | .stuck _ => none) =
    some ([real two], 0x4003000000000000#64, 0x3FC3000000000000#64, 0x4010980000000000#64, 0x3FDC800000000000#64, 4#32) := by
  decide +kernel

/-- V-SNK-1: 1.0 at the sink is the bytes 00 00 80 3F. -/
theorem test_sink_bytes :
    (hostSnk (pipe .running (firSlot 1#16 1#16) [] [real one])).snkOut = [0x00#8, 0x00#8, 0x80#8, 0x3F#8] := by
  decide +kernel

/-- V-FLT-3: an infinity from the source is a fault and does not enter. -/
theorem test_source_infinity :
    let t := hostSrc { pipe .running (firSlot 1#16 1#16) [real one] [] with srcIn := [inf] }
    t.status = 0x0000000F11000004#64 ∧ (t.ring 0).queue = [real one] := by decide +kernel

/-! ### Witnesses: for every statement with hypotheses, states and operands that meet all of them -/

/-- The outcome is a next state with the property. -/
def goes (o : Out) (p : State → Bool) : Bool :=
  match o with
  | .next t => p t
  | .fault _ => false
  | .refused _ => false

/-- A decidable property of every entry of a list, through `List.all`. -/
theorem forall_of_all {α : Type} {p : α → Prop} [DecidablePred p] {l : List α}
    (h : l.all (fun a => decide (p a)) = true) : ∀ a ∈ l, p a :=
  fun a ha => of_decide_eq_true (List.all_eq_true.mp h a ha)

/-- The invocation emits samples. -/
def emits (o : Invoked) : Bool :=
  match o with
  | .emit _ _ => true
  | .raise => false
  | .stuck _ => false

theorem emit_of_emits {o : Invoked} (h : emits o = true) : ∃ out rt, o = .emit out rt := by
  cases o with
  | emit out rt => exact ⟨out, rt, rfl⟩
  | raise => cases h
  | stuck f => cases h

theorem next_of_goes {o : Out} {p : State → Bool} (h : goes o p = true) : ∃ t, o = .next t ∧ p t = true := by
  cases o with
  | next t => exact ⟨t, rfl, h⟩
  | fault r => cases h
  | refused r => cases h

/-- `StateWf` as one decidable proposition. -/
abbrev Shape (s : State) : Prop :=
  s.par.Ok ∧ s.slots.length = s.par.nslot ∧ s.rings.length = s.par.nslot + 1 ∧ s.nstg ≤ s.par.nslot ∧
  (∀ x ∈ s.slots, Mem.Wf x.taps.bank0 ∧ Mem.Wf x.taps.bank1 ∧ x.taps.count0 ≤ s.par.tapmax ∧
    x.taps.count1 ≤ s.par.tapmax ∧ Mem.Wf x.itb.coeffs ∧ x.rt.hist.length = s.par.tapmax ∧
    x.rt.win.length = s.par.hlen) ∧
  (∀ r ∈ s.rings, r.queue.length ≤ s.par.rcap) ∧ (s.lc = .faulted ↔ s.fcode ≠ .noFault)

theorem wf_of_shape {s : State} (h : Shape s) : StateWf s := by
  obtain ⟨h1, h2, h3, h4, h5, h6, h7⟩ := h
  exact ⟨h1, h2, h3, h4, fun x hx => by
    obtain ⟨a, b, c, d, e, f, g⟩ := h5 x hx
    exact ⟨a, b, c, d, e, f, g⟩, h6, h7⟩

/-- A filter in slot 0 and timing recovery in slot 1. -/
def chain (lc : Lifecycle) (ins mids outs : List Sample) : State :=
  { at_ lc with
    nstg := 2
    pend := rates
    actv := rates
    slots := [firSlot 1#16 1#16, strSlot 0#64 5#32]
    rings := [{ queue := ins, cplx := false }, { queue := mids, cplx := false }, { queue := outs, cplx := false }] }

def ones (n : Nat) : List Sample := List.replicate n (real one)

theorem chain_wf : StateWf (chain .running (ones 6) (ones 5) (ones 5)) := wf_of_shape (by decide +kernel)

theorem str_valid : StrValid par.record par (strSlot 0#64 5#32) := by constructor <;> decide +kernel

theorem loop_ok : LoopOk par.record (strSlot 0#64 5#32) := by constructor <;> decide +kernel

theorem chain_live : LivePipeline (chain .running (ones 6) (ones 5) (ones 5)) where
  edges := by
    refine ⟨by decide, by decide +kernel, by decide +kernel, by decide +kernel, fun k hk => ?_⟩
    have h0 : k = 0 := by
      have : k + 1 < 2 := hk
      omega
    subst h0
    decide +kernel
  str k hk hs := by
    have h2 : k < 2 := hk
    have h1 : k = 1 := by
      rcases Nat.eq_zero_or_pos k with h0 | h0
      · subst h0
        exact absurd hs (by decide +kernel)
      · omega
    subst h1
    exact ⟨str_valid, loop_ok⟩
  gain k hk _ := by decide +kernel
  rates := by decide +kernel
  tunables k hk := by
    have h2 : k < 2 := hk
    have h1 : k = 0 ∨ k = 1 := by omega
    rcases h1 with rfl | rfl <;> exact forall_of_all (by decide +kernel)
  taps k hk _ := by
    have h2 : k < 2 := hk
    have h1 : k = 0 ∨ k = 1 := by omega
    rcases h1 with rfl | rfl <;> exact forall_of_all (by decide +kernel)
  doneInOrder k hk hd := by
    have h0 : k = 0 := by
      have : k + 1 < 2 := hk
      omega
    subst h0
    exact absurd hd (by decide +kernel)

/-! #### The command stream -/

theorem witness_DecodeOfEncode :
    (Instr.ldtap 15#4 (List.replicate 4095 inf)).wellFormed = true ∧
    (Instr.lditb 15#4 4095#12 (List.replicate 255 inf)).wellFormed = true ∧
    (Instr.cfgStr 15#4 15#4 31#5 inf inf inf).wellFormed = true := by decide +kernel

theorem witness_EncodeOfDecode :
    decode [0x20F00100#32, 0xFFFFFFFF#32, 0x7FF00000#32, 7#32] =
      .instr (.ldtap 15#4 [0x7FF00000FFFFFFFF#64]) [7#32] := by decide +kernel

theorem witness_ReservedOpcodeAnswered :
    ∀ o ∈ [0x06, 0x0F, 0x16, 0x1F, 0x22, 0x2F, 0x37, 0x3F, 0x41, 0xFF],
      let h : Word := BitVec.ofNat 32 (o * 0x1000000 + 0x123456)
      let s := moves .hostCmd [h, 7#32] (at_ .running)
      s.nextAgent = .hostCmd ∧ s.cmdIn = [h, 7#32] ∧ (h.extractLsb' 24 8).toNat = o ∧
      ((0x06 ≤ o ∧ o ≤ 0x0F) ∨ (0x16 ≤ o ∧ o ≤ 0x1F) ∨ (0x22 ≤ o ∧ o ≤ 0x2F) ∨ (0x37 ≤ o ∧ o ≤ 0x3F) ∨ 0x41 ≤ o) := by
  decide +kernel

theorem witness_MustBeZeroRefused :
    ∀ x ∈ ([(0x00000001#32, 0x00FFFFFF#32), (0x05800000#32, 0x00FFFFFF#32), (0x30000001#32, 0x00FFFFFF#32),
        (0x36800000#32, 0x00FFFFFF#32), (0x10000001#32, 0x000FFFFF#32), (0x11080000#32, 0x000FFFFF#32),
        (0x12000200#32, 0x000FFEFF#32), (0x13000001#32, 0x000FFEFF#32), (0x14080000#32, 0x000FFEFF#32),
        (0x15000024#32, 0x000FF0E0#32), (0x20000001#32, 0x000000FF#32), (0x4010FF00#32, 0x00F000FF#32)] : List (Word × Word)),
      let h : Word := x.1
      let mask : Word := x.2
      let o := (h.extractLsb' 24 8).toNat
      let s := moves .hostCmd (h :: List.replicate 6 0#32) (at_ .idle)
      s.nextAgent = .hostCmd ∧ s.cmdIn = h :: List.replicate 6 0#32 ∧ plen h ≤ (List.replicate 6 0#32).length ∧
      (((o ≤ 0x05 ∨ (0x30 ≤ o ∧ o ≤ 0x36)) ∧ mask = 0x00FFFFFF#32) ∨ ((o = 0x10 ∨ o = 0x11) ∧ mask = 0x000FFFFF#32) ∨
        ((o = 0x12 ∨ o = 0x13 ∨ o = 0x14) ∧ mask = 0x000FFEFF#32) ∨ (o = 0x15 ∧ mask = 0x000FF0E0#32) ∨
        (o = 0x20 ∧ mask = 0x000000FF#32) ∨ (o = 0x40 ∧ mask = 0x00F000FF#32)) ∧
      h &&& mask ≠ 0#32 :=
  forall_of_all (by decide +kernel)

theorem witness_StepRunsDecodedCommand :
    let s := moves .hostCmd [0x12100000#32, 7#32] (at_ .idle)
    s.nextAgent = .hostCmd ∧ decode s.cmdIn = .instr (.cfgFmd 1#4 false) [7#32] := by decide +kernel

/-! #### Refused commands -/

theorem witness_SlotAndKindRefused :
    par.nslot ≤ (2#4).toNat ∧ slotOperand (.cfgNone 2#4) = some 2#4 ∧ slotOperand (.ldtap 15#4 []) = some 15#4 ∧
    ((1#4).toNat < (at_ .running).par.nslot ∧ (at_ .running).lc ≠ .faulted ∧
      ((at_ .running).slot 1).cfg.kind ≠ .fir ∧ ((at_ .running).slot 1).cfg.kind ≠ .rsp) ∧
    ((at_ .halted).lc = .halted ∧ ((at_ .halted).slot 1).cfg.kind ≠ .str) := by decide +kernel

theorem witness_IllegalStateRefused :
    ∀ i ∈ [Instr.cfgNone 0#4, .cfgSql 1#4 half half, .cfgFmd 0#4 true, .cfgFir 1#4 true 1#16 1#16,
        .cfgRsp 0#4 true 1#16 1#16 half, .cfgStr 1#4 2#4 4#5 half half half, .lditb 0#4 0#12 []],
      ∃ k : BitVec 4, slotOperand i = some k ∧ k.toNat < par.nslot ∧ (at_ .faulted).lc = .faulted ∧
        (at_ .running).lc = .running ∧ (at_ .idle).lc = .idle := by decide +kernel

theorem witness_OutOfRangeRefused :
    let s := pipe .halted (firSlot 1#16 1#16) [] []
    let t := pipe .halted (strSlot 0#64 5#32) [] []
    let wide := { strSlot 0#64 5#32 with cfg := { (strSlot 0#64 5#32).cfg with nt := 6#5, lognph := 3#4 } }
    ((s.slot 0).cfg.kind = .fir ∧ s.lc = .halted ∧ s.par.tapmax < (List.replicate 4 one).length) ∧
    ((t.slot 0).cfg.kind = .str ∧ (List.replicate 3 one).length ≠ (t.slot 0).cfg.nt.toNat ∧
      2 ^ (t.slot 0).cfg.lognph.toNat < (5#12).toNat) ∧
    (par.ntmax < (List.replicate 6 one).length ∧ par.lognphmax < wide.cfg.lognph.toNat) ∧
    (∀ n ∈ [0x003#12, 0x00F#12, 0x01E#12, 0x10F#12, 0x120#12, 0x203#12, 0xFFF#12], s.csr n = none) :=
  ⟨by decide +kernel, by decide +kernel, by decide +kernel, forall_of_all (by decide +kernel)⟩

/-! #### The commands -/

theorem witness_NopAndStop : (at_ .running).lc = .running ∧ (at_ .stopping).lc ≠ .running := by decide

theorem witness_WaitAnswers : (at_ .idle).lc = .idle ∧ (at_ .halted).lc = .halted ∧ (at_ .faulted).lc = .faulted := by
  decide

theorem witness_WaitHoldsThePort :
    let s := moves .hostCmd [0x04000000#32, 0x03000000#32] (at_ .stopping)
    s.nextAgent = .hostCmd ∧ (s.lc = .running ∨ s.lc = .stopping) ∧ s.cmdIn = [0x04000000#32, 0x03000000#32] := by
  decide +kernel

theorem witness_StartSucceeds :
    let s := chain .halted [] [] (ones 5)
    StateWf s ∧ (s.lc = .idle ∨ s.lc = .halted) ∧
      validate s.par s.pend s.slots (leading s.slots) = (.noFault, 0#4) :=
  ⟨wf_of_shape (by decide +kernel), by decide +kernel, by decide +kernel⟩

theorem witness_CandidateRejected :
    let s := at_ .idle
    let t := { chain .running [] [] [] with pend := Tunables.zero }
    (s.lc = .idle ∧ validate s.par s.pend s.slots (leading s.slots) = (.cfgEmpty, 0xF#4)) ∧
    (t.lc = .running ∧ validate t.par t.pend t.slots t.nstg = (.cfgRate, 1#4)) := by decide +kernel

theorem witness_CommitSucceeds :
    let s := chain .stopping [] [] (ones 5)
    StateWf s ∧ (s.lc = .running ∨ s.lc = .stopping) ∧ validate s.par s.pend s.slots s.nstg = (.noFault, 0#4) :=
  ⟨wf_of_shape (by decide +kernel), by decide +kernel, by decide +kernel⟩

abbrev gapOf (slots : List Slot) (n k : Nat) : Prop :=
  n ≤ k ∧ k < slots.length ∧ (slots.getD k (Slot.reset par)).cfg.kind ≠ .none
abbrev clashOf (slots : List Slot) (n k : Nat) : Prop :=
  1 ≤ k ∧ k < n ∧ (slots.getD k (Slot.reset par)).inCplx ≠ (slots.getD (k - 1) (Slot.reset par)).outCplx
abbrev defectOf (slots : List Slot) (n k : Nat) (c : FaultCode) : Prop :=
  k < n ∧ firstBad (slotChecks par rates (slots.getD k (Slot.reset par))) = c ∧ c ≠ .noFault

/-- One list of slots for each clause: a gap, a type clash, a defect in the last slot, and none. -/
theorem witness_ValidationFindsFirstDefect :
    (gapOf [firSlot 1#16 1#16, firSlot 1#16 1#16] 1 1 ∧
      ∀ j < 1, ¬gapOf [firSlot 1#16 1#16, firSlot 1#16 1#16] 1 j) ∧
    ((∀ j, ¬gapOf [sqlSlot, strSlot 0#64 5#32] 2 j) ∧ clashOf [sqlSlot, strSlot 0#64 5#32] 2 1 ∧
      ∀ j < 1, ¬clashOf [sqlSlot, strSlot 0#64 5#32] 2 j) ∧
    ((∀ j, ¬clashOf [firSlot 1#16 1#16, firSlot 2#16 2#16] 2 j) ∧
      defectOf [firSlot 1#16 1#16, firSlot 2#16 2#16] 2 1 .cfgFactor ∧
      ∀ j < 1, ∀ d, ¬defectOf [firSlot 1#16 1#16, firSlot 2#16 2#16] 2 j d) ∧
    (∀ j d, ¬defectOf [firSlot 1#16 1#16] 1 j d) := by
  refine ⟨by decide +kernel, ⟨fun j h => ?_, by decide +kernel, by decide +kernel⟩, ⟨fun j h => ?_, by decide +kernel, ?_⟩, ?_⟩
  · have h1 : 2 ≤ j := h.1
    have h2 : j < 2 := h.2.1
    omega
  · have h1 : 1 ≤ j := h.1
    have h2 : j < 2 := h.2.1
    have h3 : j = 1 := by omega
    subst h3
    exact h.2.2 (by decide +kernel)
  · intro j hj d h
    have h0 : j = 0 := by omega
    subst h0
    exact h.2.2 (h.2.1 ▸ (by decide +kernel))
  · intro j d h
    have h1 : j < 1 := h.1
    have h0 : j = 0 := by omega
    subst h0
    exact h.2.2 (h.2.1 ▸ (by decide +kernel))

theorem witness_ChecksPerKind :
    blank.cfg.kind = .none ∧ sqlSlot.cfg.kind = .sql ∧ fmdSlot.cfg.kind = .fmd ∧ (firSlot 1#16 1#16).cfg.kind = .fir ∧
    (strSlot 0#64 5#32).cfg.kind = .str ∧ (withCfg { SlotCfg.reset with kind := .rsp }).cfg.kind = .rsp := by
  decide +kernel

theorem witness_ConfigureSlot :
    ((at_ .idle).lc = .idle ∨ (at_ .idle).lc = .halted) ∧ (1#4).toNat < (at_ .idle).par.nslot := by decide

theorem witness_LoadTaps :
    let s := chain .running (ones 6) (ones 5) (ones 5)
    StateWf s ∧ s.lc ≠ .faulted ∧ (0#4).toNat < s.par.nslot ∧ (s.slot 0).cfg.kind = .fir ∧
      (List.replicate 3 inf).length ≤ s.par.tapmax ∧ ([] : List F).length ≤ s.par.tapmax :=
  ⟨chain_wf, by decide +kernel⟩

theorem witness_LoadTableRow :
    let s := chain .halted [] [] []
    StateWf s ∧ s.lc = .halted ∧ (1#4).toNat < s.par.nslot ∧ (s.slot 1).cfg.kind = .str ∧
      (List.replicate 4 inf).length = (s.slot 1).cfg.nt.toNat ∧ (List.replicate 4 inf).length ≤ s.par.ntmax ∧
      (s.slot 1).cfg.lognph.toNat ≤ s.par.lognphmax ∧ (4#12).toNat ≤ 2 ^ (s.slot 1).cfg.lognph.toNat :=
  ⟨wf_of_shape (by decide +kernel), by decide +kernel⟩

theorem witness_SetTunable : (at_ .stopping).lc ≠ .faulted := by decide

theorem witness_ReadRegister : (at_ .faulted).csr 0x202#12 = some 0#64 ∧ (at_ .faulted).csr 0x11E#12 = some 0#64 := by
  decide +kernel

theorem witness_RegisterNumbers : (at_ .idle).par.Ok ∧ ((at_ .idle).csr 0x11E#12).isSome = true := by decide +kernel

theorem witness_GlobalRegisters : StateWf (chain .running (ones 6) (ones 5) (ones 5)) := chain_wf

theorem witness_SlotRegisters :
    StateWf (chain .running (ones 6) (ones 5) (ones 5)) ∧ 1 < (chain .running (ones 6) (ones 5) (ones 5)).par.nslot ∧
    ((chain .running (ones 6) (ones 5) (ones 5)).slot 1).cfg.kind = .str :=
  ⟨chain_wf, by decide +kernel⟩

theorem witness_OneResponsePerCommand :
    (∃ t, step (moves .sched [] (at_ .idle)) = .next t ∧ decide (t.lc = .idle) = true) ∧
    Executes (moves .hostCmd [0x04000000#32] (at_ .idle)) .wait ∧
    ¬((at_ .idle).lc = .running ∨ (at_ .idle).lc = .stopping) ∧
    ∃ t, step (moves .hostCmd [0x04000000#32] (at_ .idle)) = .next t ∧ decide (t.resp = [0#32]) = true :=
  ⟨next_of_goes (by decide +kernel), ⟨by decide +kernel, [], by decide +kernel⟩, by decide,
    next_of_goes (by decide +kernel)⟩

/-! #### Faults and the lifecycle -/

theorem witness_FaultEntry : (at_ .running).lc ≠ .faulted ∧ (at_ .faulted).lc = .faulted := by decide

theorem witness_OnlyResetLeavesFaulted :
    (∃ t, step (moves .hostCmd [0x01000000#32] (at_ .faulted)) = .next t ∧ decide (t.lc = .idle) = true) ∧
    (∃ t, step (moves .hostCmd [0x02000000#32] (at_ .faulted)) = .next t ∧ decide (t.lc = .faulted) = true) ∧
    (moves .hostCmd [0x02000000#32] (at_ .faulted)).lc = .faulted :=
  ⟨next_of_goes (by decide +kernel), next_of_goes (by decide +kernel), by decide +kernel⟩

/-- The largest finite value. -/
def huge : F := 0x7FEFFFFFFFFFFFFF#64

/-- One step for each line of the table of transitions. -/
theorem witness_LifecycleTransitions :
    ∀ s ∈ [moves .hostCmd [0x01000000#32] (at_ .running), moves .hostCmd [0x02000000#32] (chain .idle [] [] []),
        moves .hostCmd [0x02000000#32] (at_ .halted), moves .hostCmd [0x03000000#32] (at_ .running),
        moves .sched [] { pipe .stopping { firSlot 1#16 1#16 with rt := { blank.rt with done := true } } [] [] with
          turn := 3 },
        moves .hostCmd [0x05000000#32] { chain .running [] [] [] with pend := Tunables.zero },
        moves (.stage 0) [] (pipe .running { firSlot 1#16 1#16 with
          rt := { blank.rt with hist := [real huge, real huge, real huge] } } [real huge] []),
        moves .hostIo [] (chain .stopping [] [] []),
        { moves .hostSrc [] (chain .running [] [] []) with srcIn := [inf] },
        moves .hostSnk [] (pipe .halted (firSlot 1#16 1#16) [] [real huge])],
      goes (step s) (fun t => decide (t.lc ≠ s.lc)) = true := by decide +kernel

theorem witness_IoFailureAndFatalStop :
    (at_ .running).lc = .running ∧ (at_ .stopping).lc = .stopping ∧ (at_ .idle).lc = .idle ∧
    (at_ .halted).lc = .halted ∧ (at_ .faulted).lc = .faulted := by decide

/-! #### The data path -/

theorem witness_SourcePush :
    let s := { pipe .running (firSlot 1#16 1#16) (ones 5) [] with srcIn := [two] }
    let c := { pipe .running sqlSlot (ones 5) [] with srcIn := [two, inf] }
    (s.lc = .running ∧ (s.ring 0).queue.length < s.par.rcap ∧ (s.ring 0).cplx = false ∧ s.srcIn = [two]) ∧
    (c.lc = .running ∧ (c.ring 0).queue.length < c.par.rcap ∧ (c.ring 0).cplx = true ∧ c.srcIn = [two, inf]) ∧
    (at_ .stopping).lc ≠ .running ∧
    (let f := pipe .running (firSlot 1#16 1#16) (ones 6) []
     f.par.rcap ≤ (f.ring 0).queue.length) := by
  decide +kernel

/-- The largest value below half an ulp over the largest binary32, and the first value that does not fit. -/
theorem witness_SinkPop :
    let fits := fun v : F => NUM.finite32 (NUM.to32 v) = true
    let s := pipe .faulted (firSlot 1#16 1#16) [] [real huge]
    let c := pipe .running sqlSlot [] [{ re := two, im := huge }]
    (1 ≤ s.nstg ∧ s.lc ≠ .idle ∧ (s.ring s.nstg).queue = [real huge] ∧ (s.ring s.nstg).cplx = false) ∧
    fits 0x47EFFFFFEFFFFFFF#64 ∧ ¬fits 0x47EFFFFFF0000000#64 ∧
    ((c.ring c.nstg).cplx = true ∧ (c.ring c.nstg).queue = [{ re := two, im := huge }] ∧ fits two ∧ ¬fits huge) ∧
    ((at_ .idle).nstg = 0 ∧ (at_ .idle).lc = .idle ∧ ((chain .running [] [] []).ring 2).queue = []) := by
  decide +kernel

theorem witness_InvocationStep :
    let enabled := fun s : State =>
      0 < s.nstg ∧ (s.slot 0).cfg.kind ≠ .none ∧ (s.lc = .running ∨ s.lc = .stopping) ∧ (s.slot 0).rt.done = false ∧
      (s.slot 0).need ≤ (s.ring 0).queue.length ∧ (s.slot 0).prod ≤ s.par.rcap - (s.ring 1).queue.length
    let good := pipe .stopping (firSlot 2#16 3#16) (ones 3) (ones 4)
    let bad := pipe .running (firSlot 1#16 1#16) [real inf] []
    enabled good ∧ (∃ out rt, invoke good (good.slot 0) ((good.ring 0).queue.take 3) = .emit out rt) ∧
    enabled bad ∧ invoke bad (bad.slot 0) ((bad.ring 0).queue.take 1) = .raise := by
  exact ⟨by decide +kernel, emit_of_emits (by decide +kernel), by decide +kernel, by decide +kernel⟩

theorem witness_BlockedStageWaits :
    let full := pipe .stopping (firSlot 1#16 1#16) (ones 1) (ones 6)
    let short := pipe .running (firSlot 1#16 2#16) (ones 1) []
    let past := pipe .stopping { firSlot 1#16 1#16 with rt := { blank.rt with done := true } } [] []
    let idle := pipe .halted (firSlot 1#16 1#16) (ones 6) []
    let drain := chain .stopping (ones 1) (ones 4) []
    (full.nstg ≤ 1 ∧ (full.slot 1).cfg.kind = .none) ∧
    (idle.lc = .halted ∧ (idle.slot 0).need ≤ (idle.ring 0).queue.length ∧
      (idle.slot 0).prod ≤ idle.par.rcap - (idle.ring 1).queue.length) ∧
    (past.slot 0).rt.done = true ∧
    ((full.slot 0).need ≤ (full.ring 0).queue.length ∧ full.par.rcap - (full.ring 1).queue.length < (full.slot 0).prod) ∧
    ((short.ring 0).queue.length < (short.slot 0).need ∧ short.lc ≠ .stopping) ∧
    (drain.lc = .stopping ∧ (drain.ring 1).queue.length < (drain.slot 1).need ∧ 0 < 1 ∧
      (drain.slot (1 - 1)).rt.done = false) := by decide +kernel

theorem witness_DrainAndHalt :
    let s := chain .stopping [] (ones 4) []
    let t := { s with slots := [{ firSlot 1#16 1#16 with rt := { blank.rt with done := true } }, strSlot 0#64 5#32] }
    let u := { s with slots := [blank, { blank with rt := { blank.rt with done := true } }] }
    (0 < s.nstg ∧ (s.slot 0).cfg.kind ≠ .none ∧ s.lc = .stopping ∧ (s.slot 0).rt.done = false ∧
      (s.ring 0).queue.length < (s.slot 0).need) ∧
    (1 < t.nstg ∧ (t.slot 1).cfg.kind ≠ .none ∧ t.lc = .stopping ∧ (t.slot 1).rt.done = false ∧
      (t.slot 0).rt.done = true ∧ (t.ring 1).queue.length < (t.slot 1).need) ∧
    (u.lc = .stopping ∧ 1 ≤ u.nstg ∧ (u.slot (u.nstg - 1)).rt.done = true) ∧
    (s.slot (s.nstg - 1)).rt.done = false := by decide +kernel

theorem witness_StageIsolation :
    ∃ t, agentStep (.stage 1) (chain .running (ones 6) (ones 5) (ones 5)) = .next t ∧
      decide ((t.ring 2).queue.length = 6) = true := next_of_goes (by decide +kernel)

theorem witness_StageStepsCommute :
    let s := chain .running (ones 6) (ones 5) (ones 5)
    StateWf s ∧ invokeReady s 0 = true ∧ invokeReady s 1 = true ∧
    (∃ a, agentStep (.stage 0) s = .next a ∧ decide (a.lc = s.lc) = true) ∧
    (∃ b, agentStep (.stage 1) s = .next b ∧ decide (b.lc = s.lc) = true) :=
  ⟨chain_wf, by decide +kernel, by decide +kernel, next_of_goes (by decide +kernel), next_of_goes (by decide +kernel)⟩

/-! #### The stages -/

theorem witness_SquelchInvocation :
    sqlSlot.cfg.kind = .sql ∧ NUM.finite (smoothed par.record sqlSlot.cfg.par1 sqlSlot.rt.pwr (real two)) = true ∧
    NUM.finite (smoothed par.record sqlSlot.cfg.par1 sqlSlot.rt.pwr (real huge)) = false := by decide +kernel

theorem witness_SquelchGatesRuns :
    ((squelchRun NUM.binary64 sqlSlot [real one, real one]).isSome = true ∧ sqlSlot.rt.gate = false ∧
      NUM.le sqlSlot.dv.thc sqlSlot.dv.tho = true ∧
      ∀ q ∈ powers NUM.binary64 sqlSlot.cfg.par1 sqlSlot.rt.pwr [real one, real one], NUM.le q sqlSlot.dv.thc = true) ∧
    ((squelchRun NUM.binary64 sqlSlot [real two, real two]).isSome = true ∧
      ∀ q ∈ powers NUM.binary64 sqlSlot.cfg.par1 sqlSlot.rt.pwr [real two, real two], NUM.lt sqlSlot.dv.tho q = true) :=
  ⟨⟨by decide +kernel, by decide, by decide +kernel, forall_of_all (by decide +kernel)⟩,
    by decide +kernel, forall_of_all (by decide +kernel)⟩

theorem witness_DemodulatorInvocation :
    fmdSlot.cfg.kind = .fmd ∧ NUM.finite (NUM.mul fmdSlot.dv.gain (phaseStep par.record fmdSlot.rt.prev (real one))) = true ∧
    NUM.finite (NUM.mul huge (phaseStep par.record (real one) (real 0xBFF0000000000000#64))) = false := by decide +kernel

theorem witness_DemodulatorZeroVector :
    par.num = .binary64 ∧ fmdSlot.cfg.kind = .fmd ∧ positive par.record fmdSlot.dv.gain = true ∧
    (real huge).finite par.record = true ∧ fmdSlot.rt.prev.finite par.record = true ∧ NUM.isZero fmdSlot.rt.prev.re = true ∧ NUM.isZero fmdSlot.rt.prev.im = true ∧
    NUM.isZero (real 0x8000000000000000#64).re = true ∧ NUM.isZero (real 0x8000000000000000#64).im = true := by
  decide +kernel

/-- Output `i` of an invocation of `firSlot 2 3` on the samples `xs`, as 44_fir.md R234 sums it: one tap pair per
branch of three taps. -/
def polyOut (xs : List Sample) (i : Nat) : Sample :=
  let b := i * 3 % 2
  let h := (xs.take (i * 3 / 2 + 1)).foldl (fun h v => (real v.re :: h).take 3) (List.replicate 3 (real posZero))
  real (((List.range 3).filter fun j => b + j * 2 < 3).foldl
    (fun acc j => NUM.add acc (NUM.mul (Mem.read (firSlot 2#16 3#16).taps.bank0 (b + j * 2)) (h.getD j Sample.zero).re))
    posZero)

theorem witness_PolyphaseClosedForm :
    let x := firSlot 2#16 3#16
    let s := pipe .running x [] []
    (x.cfg.kind = .fir ∧ x.taps.count x.taps.act ≤ s.par.tapmax ∧ (ones 3).length = x.cfg.m.toNat ∧ 1 ≤ x.cfg.m.toNat) ∧
    x.cfg.flag = false ∧ (∀ i < x.cfg.l.toNat, s.par.record.finite (polyOut (ones 3) i).re = true) ∧
    s.par.record.finite (polyOut [real huge, real huge, real huge] 0).re = true ∧
    s.par.record.finite (polyOut [real huge, real huge, real huge] 1).re = false := by decide +kernel

theorem witness_HistoryShifts :
    blank.rt.hist.length = par.tapmax ∧ 1 ≤ par.tapmax ∧ 7 ≤ blank.rt.win.length := by decide +kernel

theorem witness_RowSelection :
    ∀ f ∈ [posZero, 0x8000000000000000#64, half, 0x3FEFFFFFFFFFFFFF#64, one],
      NUM.finite f = true ∧ 0 ≤ NUM.exact f ∧ NUM.exact f ≤ NUM.oneUnits :=
  forall_of_all (by decide +kernel)

/-- The window of 45_str.md R272 after the first five samples. -/
def window : List F := [posZero, posZero, two, four, two, posZero, 0xC000000000000000#64]

/-- The largest offset, with `f = 1`, and the smallest. -/
theorem witness_InterpolatorSum :
    (strSlot 0#64 5#32).dv.w.toNat ≤ window.length ∧
    (interp par (strSlot 0#64 5#32) window 2 one).toOption.isSome = true ∧
    (interp par (strSlot 0#64 5#32) window (-1) posZero).toOption.isSome = true := by decide +kernel

/-- 45_str.md R272, symbol 0; and an infinity at the on-time instant, where the invocation raises its fault. -/
theorem witness_TimingCycle :
    let x := strSlot 0#64 5#32
    let xs := [real two, real four, real two, real posZero, real 0xC000000000000000#64]
    let win := (xs.map Sample.re).foldl (shiftWin x.dv.w.toNat) x.rt.win
    let bad := ([inf, one, one, one, one] : List F).foldl (shiftWin x.dv.w.toNat) x.rt.win
    let N := par.record
    (x.cfg.kind = .str ∧ 0 < x.dv.w.toNat ∧ x.dv.w.toNat ≤ par.hlen) ∧
    (interp par x win 0 x.rt.mu).toOption = some two ∧
    N.floorI (N.sub x.rt.mu x.cfg.par1) = some (-1) ∧
    (interp par x win (-1) half).toOption = some 0x3FEC000000000000#64 ∧
    N.floorI (N.add x.rt.mu x.cfg.par1) = some 0 ∧ (interp par x win 0 half).toOption = some 0x400A000000000000#64 ∧
    N.floorI (N.add x.rt.mu 0x4011C80000000000#64) = some 4 ∧
    (interp par x bad 0 x.rt.mu).toOption = some inf ∧ (interp par x bad (-1) half).toOption.isSome = true ∧
    (interp par x bad 0 half).toOption.isSome = true := by decide +kernel

theorem witness_TimingLoopBounds :
    let s := pipe .running (strSlot 0#64 5#32) [] []
    s.par.num = .binary64 ∧ s.par.Ok ∧ (strSlot 0#64 5#32).cfg.kind = .str ∧
    StrValid s.par.record s.par (strSlot 0#64 5#32) ∧ LoopOk s.par.record (strSlot 0#64 5#32) ∧
    nonnegative s.par.record s.actv.lg = true ∧ s.par.record.floorI (strSlot 0#64 5#32).dv.pmax = some 5 ∧
    ∃ out rt, invoke s (strSlot 0#64 5#32) (ones 5) = .emit out rt :=
  ⟨by decide +kernel, by decide +kernel, by decide +kernel, str_valid, loop_ok, by decide +kernel, by decide +kernel,
    emit_of_emits (by decide +kernel)⟩

theorem witness_TimingDeadPoint :
    LoopOk NUM.binary64 (strSlot 0#64 5#32) ∧
    (let x := strSlot 0#64 5#32
     NUM.isZero 0x8000000000000000#64 = true ∧ NUM.finite (NUM.sub huge one) = true ∧ NUM.finite rates.lg = true ∧
     NUM.finite x.dv.rng = true ∧ NUM.le (NUM.negate x.dv.rng) x.rt.integ = true ∧ NUM.le x.rt.integ x.dv.rng = true) :=
  ⟨loop_ok, by decide +kernel⟩

/-! #### Arithmetic and invariants -/

/-- The overflow bound from both sides: half a unit in the last place over the largest value gives the infinity, the
next smaller addend does not. -/
theorem witness_ArithmeticRoundsToNearest :
    (∀ a ∈ [posZero, one, huge, 0x7C90000000000000#64, 0x7C8FFFFFFFFFFFFF#64, 0x0000000000000001#64],
      NUM.finite a = true) ∧
    NUM.add huge 0x7C90000000000000#64 = inf ∧ NUM.add huge 0x7C8FFFFFFFFFFFFF#64 = huge :=
  ⟨forall_of_all (by decide +kernel), by decide +kernel, by decide +kernel⟩

theorem witness_FractionIsExact :
    NUM.binary64.floorI 0x8000000000000001#64 = some (-1) ∧ NUM.binary64.floorI 0x4004000000000000#64 = some 2 := by
  decide +kernel

theorem witness_OpenFunctionsKeepTheirProperties :
    NUM.le half one = true ∧ NUM.finite NUM.exp10Top = true ∧ NUM.le NUM.exp10Top NUM.exp10Top = true ∧
    NUM.isZero 0x8000000000000000#64 = true ∧ NUM.lt posZero one = true := by decide +kernel

/-- A running pipeline of two stages: all the invariants hold and the second stage's step is taken. It meets the
hypotheses of StepKeepsStateWf, StepKeepsLivePipeline, NonFiniteNeverEnters, MachineNeverStops and
StructureIsConstant. -/
theorem witness_step_invariants :
    let s := moves (.stage 1) [] (chain .running (ones 6) (ones 5) (ones 5))
    StateWf s ∧ (s.live = true → LivePipeline s) ∧ RingsFinite s ∧ (∀ x ∈ s.slots, RuntimeFinite s.par.record x) ∧ s.par.num = .binary64 ∧
    (∃ t, step s = .next t ∧ decide (t.live = true ∧ (t.ring 2).queue.length = 6) = true) ∧ s.live = true := by
  refine ⟨wf_of_shape (by decide +kernel), fun _ => ?_, by decide +kernel, ?_, by decide +kernel, next_of_goes (by decide +kernel), by decide +kernel⟩
  · exact ⟨⟨chain_live.edges.some, chain_live.edges.staged, chain_live.edges.first, chain_live.edges.edge,
      chain_live.edges.joint⟩, chain_live.str, chain_live.gain, chain_live.rates, chain_live.tunables,
      chain_live.taps, chain_live.doneInOrder⟩
  · intro x hx
    have h : x = firSlot 1#16 1#16 ∨ x = strSlot 0#64 5#32 := by simpa [moves, chain] using hx
    rcases h with rfl | rfl <;>
      exact ⟨by decide +kernel, by decide +kernel, by decide +kernel, by decide +kernel, by decide +kernel,
        by decide +kernel, by decide +kernel, forall_of_all (by decide +kernel)⟩

/-- `COMMIT` changes the active tunables and the active bank, `SET.FS` a pending tunable. -/
theorem witness_WhoWritesTheTunables :
    (∃ t, step (moves .hostCmd [0x05000000#32] { chain .running [] [] [] with actv := Tunables.zero }) = .next t ∧
      decide (t.actv ≠ Tunables.zero) = true) ∧
    (∃ t, step (moves .hostCmd [0x30000000#32, 0#32, 0#32] (chain .running [] [] [])) = .next t ∧
      decide (t.pend ≠ rates) = true) ∧
    (∃ t, step (moves .hostCmd [0x10000000#32] (chain .idle [] [] [])) = .next t ∧
      decide ((t.slot 0).taps.vector (t.slot 0).taps.act ≠ [one, two, three]) = true) :=
  ⟨next_of_goes (by decide +kernel), next_of_goes (by decide +kernel), next_of_goes (by decide +kernel)⟩

end Sys2Proof.Tests
end

section
/-! PROOFS. Rounding to nearest, ties to even (00_scope.md R8). The idea: `roundMag` puts the exact quotient between
two neighbouring multiples of a unit, and no magnitude of the format lies strictly between them, so the nearer neighbour
is the nearest magnitude of all. The overflow bound and the signed statement for each operation follow. -/

namespace Sys2Proof.Machine.NUM

open Sys2Proof

/-! ### The nearest magnitude -/

/-- `nearest n u` units are at least as near `n` as any `x` outside the open interval between `n`'s neighbouring
multiples of `u`; where another `x` is as near, the chosen multiple is even. -/
theorem nearest_closest (n u x : Nat) (hu : 0 < u) (hx : x ≤ n / u * u ∨ (n / u + 1) * u ≤ x) :
    (((nearest n u * u : Nat) : Int) - n).natAbs ≤ ((x : Int) - n).natAbs ∧
    (x ≠ nearest n u * u → ((x : Int) - n).natAbs = (((nearest n u * u : Nat) : Int) - n).natAbs →
      nearest n u % 2 = 0) := by
  have hn : n / u * u + n % u = n := Nat.div_add_mod' n u
  have hr : n % u < u := Nat.mod_lt n hu
  rw [Nat.succ_mul] at hx
  unfold nearest
  split <;> rename_i hup <;>
    simp only [Bool.or_eq_true, Bool.and_eq_true, decide_eq_true_eq] at hup
  · rw [Nat.succ_mul]
    omega
  · omega

/-- No magnitude lies strictly between two neighbouring multiples of the unit that `roundMag` picks. -/
theorem unitsMag_outside_neighbours (n d m : Nat) :
    unitsMag m * d ≤ n / (d * 2 ^ pick 53 n d) * (d * 2 ^ pick 53 n d) ∨
      (n / (d * 2 ^ pick 53 n d) + 1) * (d * 2 ^ pick 53 n d) ≤ unitsMag m * d := by
  obtain ⟨hlt, hbig⟩ := pick_bounds 53 n d (by decide)
  generalize pick 53 n d = k at *
  generalize n / (d * 2 ^ k) = q at *
  have hq := unitsMag_join k q hlt.le hbig
  have hq1 := unitsMag_join k (q + 1) hlt (by omega)
  rcases Nat.lt_or_ge (k * 2 ^ 52 + q) m with hm | hm
  · right
    calc (q + 1) * (d * 2 ^ k) = (q + 1) * 2 ^ k * d := by ring
      _ = unitsMag (k * 2 ^ 52 + (q + 1)) * d := by rw [hq1]
      _ ≤ unitsMag m * d := Nat.mul_le_mul_right d ((unitsMag_le_iff _ _).mpr hm)
  · left
    calc unitsMag m * d ≤ unitsMag (k * 2 ^ 52 + q) * d := Nat.mul_le_mul_right d ((unitsMag_le_iff _ _).mpr hm)
      _ = q * 2 ^ k * d := by rw [hq]
      _ = q * (d * 2 ^ k) := by ring

/-- The rounded magnitude, in units, is a multiple of the unit that `roundMag` picks. -/
theorem unitsMag_roundMag_mul (n d : Nat) :
    unitsMag (roundMag 53 n d) * d = nearest n (d * 2 ^ pick 53 n d) * (d * 2 ^ pick 53 n d) := by
  obtain ⟨hlt, hbig⟩ := pick_bounds 53 n d (by decide)
  obtain ⟨hlow, hhigh⟩ := nearest_bounds n (d * 2 ^ pick 53 n d)
  rw [roundMag_eq, unitsMag_join _ _ (by omega) (by omega)]
  ring

/-- The rounded magnitude is at least as near `n / d` as any other; where another is as near, it is even. -/
theorem roundMag_closest (n d m : Nat) (hd : 0 < d) :
    (((unitsMag (roundMag 53 n d) * d : Nat) : Int) - n).natAbs ≤ (((unitsMag m * d : Nat) : Int) - n).natAbs ∧
    (unitsMag m * d ≠ unitsMag (roundMag 53 n d) * d →
      (((unitsMag m * d : Nat) : Int) - n).natAbs = (((unitsMag (roundMag 53 n d) * d : Nat) : Int) - n).natAbs →
      roundMag 53 n d % 2 = 0) := by
  obtain ⟨hnear, heven⟩ := nearest_closest n (d * 2 ^ pick 53 n d) (unitsMag m * d) (by positivity)
    (unitsMag_outside_neighbours n d m)
  rw [unitsMag_roundMag_mul]
  refine ⟨hnear, fun hne htie => ?_⟩
  have := heven hne htie
  rw [roundMag_eq]
  omega

/-! ### The overflow bound -/

/-- The greatest finite magnitude and the infinity's are half a unit in the last place below and above the bound. -/
theorem overflowUnits_between :
    unitsMag (infMag - 1) + 2 ^ 2044 = overflowUnits ∧ overflowUnits + 2 ^ 2044 = unitsMag infMag := by
  decide +kernel

theorem roundMag_overflowUnits : roundMag 53 overflowUnits 1 = infMag := by decide +kernel

/-- A rounded magnitude is finite exactly where the exact quotient is below the overflow bound. -/
theorem roundMag_lt_infMag_iff (n d : Nat) (hd : 0 < d) : roundMag 53 n d < infMag ↔ n < overflowUnits * d := by
  constructor
  · intro hfin
    by_contra hn
    have := roundMag_mono 53 overflowUnits 1 n d (by decide) (by decide) hd (by omega)
    rw [roundMag_overflowUnits] at this
    omega
  · intro hn
    by_contra hinf
    obtain ⟨hbelow, habove⟩ := overflowUnits_between
    have hnear := (roundMag_closest n d (infMag - 1) hd).1
    have hR : unitsMag infMag * d ≤ unitsMag (roundMag 53 n d) * d :=
      Nat.mul_le_mul_right d ((unitsMag_le_iff _ _).mpr (not_lt.mp hinf))
    rw [← habove, Nat.add_mul] at hR
    rw [← hbelow, Nat.add_mul] at hn hR
    have hhalf : 0 < 2 ^ 2044 * d := by positivity
    generalize 2 ^ 2044 * d = half at *
    omega

theorem roundMag_zero (d : Nat) (hd : 0 < d) : roundMag 53 0 d = 0 :=
  Nat.le_zero.mp (roundMag_le 0 d 0 hd (Nat.zero_le _))

theorem round64_zero (s : Bool) (d : Nat) (hd : 0 < d) : round64 s 0 d = pack s 0 := by
  rw [round64, roundMag_zero d hd, Nat.zero_min]

/-! ### Signed results -/

theorem getLsbD_zero_pack (s : Bool) (m : Nat) (h : m < 2 ^ 63) : (pack s m).getLsbD 0 = decide (m % 2 = 1) := by
  rw [BitVec.getLsbD, pack_toNat s m h, Nat.testBit_zero]
  cases s
  · rfl
  · rw [if_pos rfl, show m + 2 ^ 63 = m + 2 * 2 ^ 62 by norm_num, Nat.add_mul_mod_self_left]

/-- `r` is the exact result `n / d` units rounded to nearest, ties to even, as far as the finite value `v` can tell. -/
def Rounds (v r : F) (n d : Int) : Prop :=
  (finite r = true ↔ |n| < overflowUnits * |d|) ∧
  (finite r = false → isInf r = true ∧ neg r = decide (n * d < 0)) ∧
  (finite r = true → |exact r * d - n| ≤ |exact v * d - n| ∧
    (exact v ≠ exact r → |exact v * d - n| = |exact r * d - n| → r.getLsbD 0 = false))

/-- From magnitudes to signed values: `x` has the sign of `n`, and its magnitude is the nearer to `n`'s. -/
theorem closest_of_natAbs_closest {x y n : Int} {even : Prop} (hsign : 0 ≤ x * n)
    (hzero : n = 0 → x = 0)
    (hnear : ((x.natAbs : Int) - n.natAbs).natAbs ≤ ((y.natAbs : Int) - n.natAbs).natAbs)
    (heven : y.natAbs ≠ x.natAbs →
      ((y.natAbs : Int) - n.natAbs).natAbs = ((x.natAbs : Int) - n.natAbs).natAbs → even) :
    |x - n| ≤ |y - n| ∧ (y ≠ x → |y - n| = |x - n| → even) := by
  rw [Int.abs_eq_natAbs, Int.abs_eq_natAbs]
  have hsame := mul_nonneg_iff.mp hsign
  refine ⟨by omega, fun hne htie => heven ?_ ?_⟩ <;> omega

theorem natAbs_exact_round64 (s : Bool) (n d : Nat) (hlt : roundMag 53 n d < infMag) :
    (exact (round64 s n d)).natAbs = unitsMag (roundMag 53 n d) := by
  rw [(round64_value s n d hlt).2]
  cases s
  · rw [if_neg Bool.false_ne_true, Int.natAbs_natCast]
  · rw [if_pos rfl, Int.natAbs_neg, Int.natAbs_natCast]

theorem getLsbD_zero_round64 (s : Bool) (n d : Nat) (hlt : roundMag 53 n d < infMag) (heven : roundMag 53 n d % 2 = 0) :
    (round64 s n d).getLsbD 0 = false := by
  rw [round64, Nat.min_eq_left hlt.le, getLsbD_zero_pack _ _ (lt_trans hlt infMag_lt), heven]
  rfl

/-- A finite result is not on the other side of 0 than the exact result `n / d`. -/
theorem exact_round64_sign (s : Bool) (n d : Int) (hs : n ≠ 0 → s = decide (n * d < 0))
    (hlt : roundMag 53 n.natAbs d.natAbs < infMag) : 0 ≤ exact (round64 s n.natAbs d.natAbs) * d * n := by
  rw [(round64_value s n.natAbs d.natAbs hlt).2, mul_assoc, mul_comm d n]
  by_cases hn : n = 0
  · rw [hn, zero_mul, mul_zero]
  · rw [hs hn]
    by_cases hneg : n * d < 0
    · rw [decide_eq_true hneg, if_pos rfl]
      exact mul_nonneg_of_nonpos_of_nonpos (neg_nonpos.mpr (Int.natCast_nonneg _)) hneg.le
    · rw [decide_eq_false hneg, if_neg Bool.false_ne_true]
      exact mul_nonneg (Int.natCast_nonneg _) (not_lt.mp hneg)

/-- A finite result of `round64` with the sign of the exact result `n / d` is nearest to it. -/
theorem round64_closest (v : F) (s : Bool) (n d : Int) (hd : d ≠ 0) (hs : n ≠ 0 → s = decide (n * d < 0))
    (hlt : roundMag 53 n.natAbs d.natAbs < infMag) :
    |exact (round64 s n.natAbs d.natAbs) * d - n| ≤ |exact v * d - n| ∧
      (exact v ≠ exact (round64 s n.natAbs d.natAbs) →
        |exact v * d - n| = |exact (round64 s n.natAbs d.natAbs) * d - n| →
        (round64 s n.natAbs d.natAbs).getLsbD 0 = false) := by
  have hd' : 0 < d.natAbs := Int.natAbs_pos.mpr hd
  have hzero : n = 0 → exact (round64 s n.natAbs d.natAbs) * d = 0 := by
    intro hn
    rw [hn, Int.natAbs_zero, round64_zero s _ hd', exact_pack_zero, zero_mul]
  obtain ⟨hnear, heven⟩ := roundMag_closest n.natAbs d.natAbs (mag v) hd'
  rw [← natAbs_exact_round64 s _ _ hlt, ← exact_mag, ← Int.natAbs_mul, ← Int.natAbs_mul] at hnear heven
  obtain ⟨hle, htie⟩ := closest_of_natAbs_closest (exact_round64_sign s n d hs hlt) hzero hnear
    fun hne heq => getLsbD_zero_round64 s _ _ hlt (heven hne heq)
  exact ⟨hle, fun hne => htie fun h => hne (mul_right_cancel₀ hd h)⟩

/-- `round64` with the sign of the exact result rounds it; a zero result may have either sign. -/
theorem rounds_round64 (v : F) (s : Bool) (n d : Int) (hd : d ≠ 0) (hs : n ≠ 0 → s = decide (n * d < 0)) :
    Rounds v (round64 s n.natAbs d.natAbs) n d := by
  have hd' : 0 < d.natAbs := Int.natAbs_pos.mpr hd
  have hbound := roundMag_lt_infMag_iff n.natAbs d.natAbs hd'
  have hiff : |n| < overflowUnits * |d| ↔ n.natAbs < overflowUnits * d.natAbs := by
    rw [Int.abs_eq_natAbs, Int.abs_eq_natAbs]
    exact_mod_cast Iff.rfl
  rw [Rounds, hiff, ← hbound]
  rcases Nat.lt_or_ge (roundMag 53 n.natAbs d.natAbs) infMag with hlt | hge
  · have hfin := (round64_value s n.natAbs d.natAbs hlt).1
    exact ⟨iff_of_true hfin hlt, fun h => absurd hfin (by simp [h]), fun _ => round64_closest v s n d hd hs hlt⟩
  · have hinf : round64 s n.natAbs d.natAbs = pack s infMag := by rw [round64, Nat.min_eq_right hge]
    have hn : n ≠ 0 := by
      rintro rfl
      rw [Int.natAbs_zero, roundMag_zero _ hd'] at hge
      exact absurd hge (by decide)
    have hnot : finite (pack s infMag) = false := by
      rw [finite, mag_pack s infMag infMag_lt]
      exact decide_eq_false (lt_irrefl _)
    rw [hinf]
    refine ⟨iff_of_false (by simp [hnot]) (not_lt.mpr hge), fun _ => ⟨?_, ?_⟩, fun h => absurd h (by simp [hnot])⟩
    · rw [isInf, mag_pack s infMag infMag_lt]
      exact decide_eq_true rfl
    · rw [neg_pack s infMag infMag_lt, hs hn]

/-! ### The four operations on finite operands -/

/-- Where the product of the exact values is not 0, the sign bits differ exactly where it is negative. -/
theorem neg_bne_neg (a b : F) (h : exact a * exact b ≠ 0) : (neg a != neg b) = decide (exact a * exact b < 0) := by
  have hsa := exact_sign a
  have hsb := exact_sign b
  cases hna : neg a <;> cases hnb : neg b <;> rw [hna] at hsa <;> rw [hnb] at hsb <;>
    simp only [Bool.false_eq_true, if_true, if_false] at hsa hsb
  · exact (decide_eq_false (not_lt.mpr (mul_nonneg hsa hsb))).symm
  · exact (decide_eq_true (lt_of_le_of_ne (mul_nonpos_of_nonneg_of_nonpos hsa hsb) h)).symm
  · exact (decide_eq_true (lt_of_le_of_ne (mul_nonpos_of_nonpos_of_nonneg hsa hsb) h)).symm
  · exact (decide_eq_false (not_lt.mpr (mul_nonneg_of_nonpos_of_nonpos hsa hsb))).symm

theorem mul_oneUnits_neg_iff (z : Int) : z * oneUnits < 0 ↔ z < 0 :=
  lt_iff_lt_of_le_iff_le (mul_nonneg_iff_of_pos_right oneUnits_pos_int)

theorem natAbs_exact (v : F) : (exact v).natAbs = units v := exact_mag v

theorem exact_ne_zero {v : F} (h : isZero v = false) : exact v ≠ 0 := by
  intro h0
  have hunits : unitsMag (mag v) ≤ unitsMag 0 := by rw [← exact_mag, h0]; exact Nat.zero_le _
  have hmag := (unitsMag_le_iff _ _).mp hunits
  rw [isZero, decide_eq_false_iff_not] at h
  omega

theorem add_eq_round64 {a b : F} (ha : finite a = true) (hb : finite b = true) :
    ∃ s, (exact a + exact b ≠ 0 → s = decide (exact a + exact b < 0)) ∧
      add a b = round64 s (exact a + exact b).natAbs 1 := by
  by_cases hz : exact a + exact b = 0
  · refine ⟨neg a && neg b, fun h => absurd hz h, ?_⟩
    rw [hz, Int.natAbs_zero, round64_zero _ 1 (by decide)]
    simp [add, isNaN_of_finite, isInf_of_finite, ha, hb, hz]
  · refine ⟨_, fun _ => rfl, ?_⟩
    simp [add, isNaN_of_finite, isInf_of_finite, ha, hb, hz]

theorem mul_eq_round64 {a b : F} (ha : finite a = true) (hb : finite b = true) :
    mul a b = round64 (neg a != neg b) (exact a * exact b).natAbs oneUnits := by
  rw [Int.natAbs_mul, natAbs_exact, natAbs_exact]
  simp [mul, isNaN_of_finite, isInf_of_finite, ha, hb]

theorem div_eq_round64 {a b : F} (ha : finite a = true) (hb : finite b = true) (h0 : isZero b = false) :
    div a b = round64 (neg a != neg b) (exact a * oneUnits).natAbs (exact b).natAbs := by
  rw [Int.natAbs_mul, natAbs_exact, natAbs_exact, Int.natAbs_natCast]
  simp [div, isNaN_of_finite, isInf_of_finite, ha, hb, h0]

theorem rounds_add (v : F) {a b : F} (ha : finite a = true) (hb : finite b = true) :
    Rounds v (add a b) (exact a + exact b) 1 := by
  obtain ⟨s, hs, hadd⟩ := add_eq_round64 ha hb
  rw [hadd]
  exact rounds_round64 v s _ 1 one_ne_zero (by rwa [mul_one])

theorem rounds_sub (v : F) {a b : F} (ha : finite a = true) (hb : finite b = true) :
    Rounds v (sub a b) (exact a - exact b) 1 := by
  rw [sub_eq_add_neg, ← exact_negate]
  exact rounds_add v ha ((finite_negate b).trans hb)

theorem rounds_mul (v : F) {a b : F} (ha : finite a = true) (hb : finite b = true) :
    Rounds v (mul a b) (exact a * exact b) oneUnits := by
  have hsign : exact a * exact b ≠ 0 → (neg a != neg b) = decide (exact a * exact b * oneUnits < 0) := by
    intro h
    rw [neg_bne_neg a b h]
    exact decide_eq_decide.mpr (mul_oneUnits_neg_iff _).symm
  rw [mul_eq_round64 ha hb]
  exact rounds_round64 v _ _ oneUnits oneUnits_pos_int.ne' hsign

theorem rounds_div (v : F) {a b : F} (ha : finite a = true) (hb : finite b = true) (h0 : isZero b = false) :
    Rounds v (div a b) (exact a * oneUnits) (exact b) := by
  have hsign : exact a * oneUnits ≠ 0 → (neg a != neg b) = decide (exact a * oneUnits * exact b < 0) := by
    intro h
    rw [neg_bne_neg a b (mul_ne_zero (left_ne_zero_of_mul h) (exact_ne_zero h0)), mul_right_comm]
    exact decide_eq_decide.mpr (mul_oneUnits_neg_iff _).symm
  rw [div_eq_round64 ha hb h0]
  exact rounds_round64 v _ _ _ (exact_ne_zero h0) hsign

/-- Settles O51: each operation answers `round64` of its exact result, and `round64` picks the nearest value. -/
theorem arithmeticRoundsToNearest : Obligations.ArithmeticRoundsToNearest := by
  intro a b v ha hb _
  exact ⟨rounds_add v ha hb, rounds_sub v ha hb, rounds_mul v ha hb, rounds_div v ha hb⟩

/-! ### The fraction -/

/-- A finite value beyond `2^53 - 1` in magnitude is a whole number. -/
theorem oneUnits_dvd_exact (v : F) (h : (2 ^ 53 - 1) * oneUnits < (exact v).natAbs) : (oneUnits : Int) ∣ exact v := by
  obtain ⟨k, q, _, hq, _, hunits⟩ := unitsMag_split (mag v)
  rw [exact_mag, hunits, oneUnits_eq] at h
  have hk : 1074 ≤ k := by
    by_contra hlt
    have := Nat.mul_le_mul (Nat.le_sub_one_of_lt hq) (two_pow_le (not_le.mp hlt).le)
    omega
  rw [Int.natCast_dvd, exact_mag, hunits, oneUnits_eq]
  exact Dvd.dvd.mul_left (pow_dvd_pow 2 hk) q

/-- A whole number that is a value of the format is converted to it. -/
theorem ofInt_eq_of_exact {v : F} {i : Int} (hv : finite v = true) (h : exact v = i * oneUnits) :
    finite (ofInt i) = true ∧ exact (ofInt i) = exact v := by
  have hround : ofInt i = round64 (decide (exact v < 0)) (exact v).natAbs 1 := by
    rw [h, Int.natAbs_mul, Int.natAbs_natCast, ofInt]
    congr 1
    exact decide_eq_decide.mpr (mul_oneUnits_neg_iff _).symm
  obtain ⟨hfin, hlow, hhigh⟩ := round64_between v v (exact v) 1 hv hv Nat.one_pos (by simp) (by simp)
  rw [hround]
  exact ⟨hfin, le_antisymm hhigh hlow⟩

/-- From `2^53` on every finite value is a whole number, so its fraction is 0. -/
theorem fraction_eq_zero (v : F) (i : Int) (h : binary64.floorI v = some i) (hi : 2 ^ 53 ≤ i.natAbs) :
    finite (sub v (ofInt i)) = true ∧ exact (sub v (ofInt i)) = 0 ∧ exact v = i * oneUnits := by
  obtain ⟨hfin, hlow, hhigh⟩ := floor_spec v i h
  have hbig : (2 ^ 53 - 1) * oneUnits < (exact v).natAbs := by
    have hone := oneUnits_pos_int
    rcases lt_or_ge i 0 with hneg | hnonneg
    · have := mul_le_mul_of_nonneg_right (show i + 1 ≤ -(2 ^ 53 - 1) by omega) hone.le
      omega
    · have := mul_le_mul_of_nonneg_right (show 2 ^ 53 ≤ i by omega) hone.le
      omega
  have hwhole : exact v = i * oneUnits := by
    rw [floorI_eq, if_pos hfin, Option.some.injEq] at h
    rw [← h, Int.ediv_mul_cancel (oneUnits_dvd_exact v hbig)]
  obtain ⟨hofInt, heq⟩ := ofInt_eq_of_exact hfin hwhole
  obtain ⟨hsub, h0, h1⟩ := sub_between v (ofInt i) posZero posZero hfin hofInt finite_zero finite_zero
    (by rw [heq, sub_self, exact_zero]) (by rw [heq, sub_self, exact_zero])
  rw [exact_zero] at h0 h1
  exact ⟨hsub, le_antisymm h1 h0, hwhole⟩

/-- Settles O52: below `2^53` by the bounds of `fraction_spec` and `fraction_exact`, from there on because the value
is whole. -/
theorem fractionIsExact : Obligations.FractionIsExact := by
  intro v i h
  rcases Nat.lt_or_ge i.natAbs (2 ^ 53) with hi | hi
  · obtain ⟨hfin, hlow, hhigh⟩ := fraction_spec v i h hi
    exact ⟨hfin, hlow, hhigh, fraction_exact v i h hi⟩
  · obtain ⟨hfin, hzero, hwhole⟩ := fraction_eq_zero v i h hi
    rw [hzero, hwhole, sub_self]
    exact ⟨hfin, le_rfl, oneUnits_pos_int.le, fun _ => ⟨rfl, oneUnits_pos_int⟩⟩

end Sys2Proof.Machine.NUM
end

section
/-! PROOFS. The loop of a timing recovery slot stays within its limits, in rounded arithmetic (45_str.md R264 to R266).
The bounds of `MU`, `INTEG` and `PERIOD` are those of the clamps; the one of `SKIP` needs that phase and advance, each
below a whole number, do not round up to the sum of the two whole numbers. -/

namespace Sys2Proof.Machine.NUM

open Sys2Proof

/-- Where a finite value lies two units `w` below `whole`, a sum more than one unit below it is not rounded up to
`whole`: that value is nearer. -/
theorem exact_add_lt_of_nearer {a b v : F} {whole w : Int} (ha : finite a = true) (hb : finite b = true)
    (hsum : finite (add a b) = true) (hw : 0 < w) (hv : exact v = whole - 2 * w)
    (hlt : exact a + exact b < whole - w) : exact (add a b) < whole := by
  have hnear := ((rounds_add v ha hb).2.2 hsum).1
  rw [mul_one, mul_one, hv, Int.abs_eq_natAbs, Int.abs_eq_natAbs] at hnear
  omega

/-- A value between the whole numbers `top` and `top + 1` has a unit in the last place that divides 1; it is at least
one such unit below `top + 1`. -/
theorem exists_unit_of_lt_whole {b : F} {top : Nat} (h16 : top < 2 ^ 16)
    (hlow : (top : Int) * oneUnits ≤ exact b) (hhigh : exact b < (top + 1) * oneUnits) :
    ∃ c k : Nat, oneUnits = 2 * c * 2 ^ k ∧ k ≤ 1073 ∧ top * (2 * c) < 2 ^ 53 ∧
      exact b + (2 ^ k : Nat) ≤ (top + 1) * oneUnits := by
  obtain ⟨k, q, -, hq, hk, hunits⟩ := unitsMag_split (mag b)
  have hb : exact b = (q * 2 ^ k : Nat) := by
    have hnonneg : 0 ≤ exact b := le_trans (mul_nonneg (Int.natCast_nonneg _) oneUnits_pos_int.le) hlow
    rw [← hunits, ← exact_mag, Int.natAbs_of_nonneg hnonneg]
  rw [hb] at hlow hhigh ⊢
  have hlow' : top * oneUnits ≤ q * 2 ^ k := by exact_mod_cast hlow
  have hhigh' : q * 2 ^ k < (top + 1) * oneUnits := by exact_mod_cast hhigh
  have hk' : k ≤ 1073 := by
    by_contra hgt
    have hbig : 2 ^ 52 * oneUnits ≤ q * 2 ^ k :=
      Nat.mul_le_mul (by omega) (by rw [oneUnits_eq]; exact two_pow_le (by omega))
    have := Nat.lt_of_mul_lt_mul_right (lt_of_le_of_lt hbig hhigh')
    omega
  obtain ⟨j, hj⟩ : ∃ j, 1074 = 1 + j + k := ⟨1073 - k, by omega⟩
  have hone : oneUnits = 2 * 2 ^ j * 2 ^ k := by rw [oneUnits_eq, hj, pow_add, pow_add, pow_one]
  have hpos : 0 < 2 ^ k := Nat.two_pow_pos k
  have hqlow : top * (2 * 2 ^ j) ≤ q := by
    rw [hone, ← mul_assoc] at hlow'
    exact Nat.le_of_mul_le_mul_right hlow' hpos
  have hqhigh : q + 1 ≤ (top + 1) * (2 * 2 ^ j) := by
    rw [hone, ← mul_assoc] at hhigh'
    exact Nat.lt_of_mul_lt_mul_right hhigh'
  refine ⟨2 ^ j, k, hone, hk', lt_of_le_of_lt hqlow hq, ?_⟩
  have : q * 2 ^ k + 2 ^ k ≤ (top + 1) * oneUnits := by
    rw [hone, ← mul_assoc, ← Nat.succ_mul]
    exact Nat.mul_le_mul_right _ hqhigh
  exact_mod_cast this

/-- Two such units below a whole number lies a value of the format. -/
theorem exists_value_two_units_below {whole c k : Nat} (hw : 0 < whole) (hone : oneUnits = 2 * c * 2 ^ k)
    (hk : k ≤ 1073) (hfit : whole * c ≤ 2 ^ 53) :
    ∃ v, exact v = whole * oneUnits - 2 * (2 ^ k : Nat) := by
  have hc : 0 < c := by
    by_contra h0
    have := oneUnits_pos
    rw [hone, Nat.le_zero.mp (not_lt.mp h0)] at this
    omega
  have hwc : 0 < whole * c := Nat.mul_pos hw hc
  have hz : (((whole * c - 1) * 2 ^ (k + 1) : Nat) : Int) = whole * oneUnits - 2 * (2 ^ k : Nat) := by
    rw [hone, pow_succ]
    push_cast [Nat.cast_sub (show 1 ≤ whole * c from hwc)]
    ring
  have hsmall : (whole * c - 1) * 2 ^ (k + 1) < unitsMag infMag := by
    rw [unitsMag_inf]
    calc (whole * c - 1) * 2 ^ (k + 1) < 2 ^ 53 * 2 ^ (k + 1) :=
          Nat.mul_lt_mul_of_pos_right (by omega) (Nat.two_pow_pos _)
      _ ≤ 2 ^ 52 * 2 ^ 2046 := by rw [two_pow_mul, two_pow_mul]; exact two_pow_le (by omega)
  have hround := round64_exact _ (whole * c - 1) (k + 1) (Int.natAbs_natCast _) (by omega) hsmall
  rw [hz] at hround
  exact ⟨_, hround.2⟩

/-- A phase below 1 and an advance below `top + 1` do not add up to `top + 2`, rounding included. -/
theorem add_phase_lt {mu a b : F} {top : Nat} (hmu : finite mu = true) (ha : finite a = true)
    (hsum : finite (add mu a) = true) (hmu1 : exact mu < oneUnits) (hab : exact a ≤ exact b) (h2 : 2 ≤ top)
    (h16 : top < 2 ^ 16) (hlow : (top : Int) * oneUnits ≤ exact b) (hhigh : exact b < (top + 1) * oneUnits) :
    exact (add mu a) < (top + 2) * oneUnits := by
  obtain ⟨c, k, hone, hk, hfit, hunit⟩ := exists_unit_of_lt_whole h16 hlow hhigh
  have hfit' : (top + 2) * c ≤ 2 ^ 53 := by
    have : (top + 2) * c ≤ 2 * top * c := Nat.mul_le_mul_right c (by omega)
    have : top * (2 * c) = 2 * top * c := by ring
    omega
  obtain ⟨v, hv⟩ := exists_value_two_units_below (whole := top + 2) (by omega) hone hk hfit'
  push_cast at hv
  refine exact_add_lt_of_nearer hmu ha hsum (by positivity) hv ?_
  push_cast at hunit
  linarith

end Sys2Proof.Machine.NUM

namespace Sys2Proof.Machine

open NUM

/-! ### One invocation -/

/-- The limits that 10_state.md R45 sets to the loop state, in exact units; `top` is `floorI(PMAX)`. -/
structure LoopWithin (dv : Derived) (rt : Runtime) (top : Int) : Prop where
  muFinite : finite rt.mu = true
  mu : 0 ≤ exact rt.mu ∧ exact rt.mu < oneUnits
  integFinite : finite rt.integ = true
  integ : exact (negate dv.rng) ≤ exact rt.integ ∧ exact rt.integ ≤ exact dv.rng
  periodFinite : finite rt.period = true
  period : exact dv.pmin ≤ exact rt.period ∧ exact rt.period ≤ exact dv.pmax
  skip : 1 ≤ rt.skip.toNat ∧ (rt.skip.toNat : Int) ≤ top + 1

/-- The upper limit of the advance is at least 2 samples, as the nominal period is (60_exceptions.md R305 check (g)). -/
theorem StrValid.two_le_pmax {p : Params} {x : Slot} (h : StrValid binary64 p x) :
    2 * (oneUnits : Int) ≤ exact x.dv.pmax := by
  obtain ⟨hrng, hrng0, -⟩ := h.limits
  obtain ⟨hp0, hle⟩ := h.p0
  obtain ⟨htwo, htwoE⟩ := ofInt_exact 2 (by decide)
  dsimp only at hle
  rw [le_iff htwo hp0] at hle
  obtain ⟨hsum, hlow, -⟩ := add_between (ofInt 2) posZero (ofInt 2) (ofInt 2) htwo finite_zero htwo htwo
    (by rw [exact_zero, add_zero]) (by rw [exact_zero, add_zero])
  have hmono := add_mono (ofInt 2) posZero x.dv.p0 x.dv.rng htwo finite_zero hp0 hrng hsum
    (by rw [← h.ends.2]; exact h.pmaxFinite) (by rw [exact_zero]; linarith)
  rw [h.ends.2, ← htwoE]
  exact hlow.trans hmono

/-- The whole samples of an instant are its integer part (45_str.md R259). -/
theorem floorI_of_splitInstant {N : NumRecord} {v f : F} {n : Int} (h : splitInstant N v = .ok (n, f)) :
    N.floorI v = some n := by
  unfold splitInstant at h
  cases hfl : N.floorI v with
  | none => rw [hfl] at h; cases h
  | some i => rw [hfl] at h; cases h; rfl

/-- The next instant lies at most `floorI(PMAX) + 1` whole samples ahead (45_str.md R265). -/
theorem nextInstant_le {p : Params} {x : Slot} {a f : F} {top n : Int} (hp : p.Ok) (h : StrValid binary64 p x)
    (hl : LoopOk binary64 x) (ha : finite a = true) (hle : exact a ≤ exact x.dv.pmax)
    (htop : binary64.floorI x.dv.pmax = some top) (hn : splitInstant binary64 (add x.rt.mu a) = .ok (n, f)) :
    n ≤ top + 1 := by
  have hone := oneUnits_pos_int
  obtain ⟨hsum, hlow, -⟩ := floor_spec _ _ (floorI_of_splitInstant hn)
  obtain ⟨-, htopLow, htopHigh⟩ := floor_spec _ _ htop
  have hrcap := hp.2.1.2
  have htopR := h.pmaxTop
  rw [htop, Option.getD_some] at htopR
  have htop2 : 2 ≤ top := by
    have := lt_of_mul_lt_mul_right (lt_of_le_of_lt h.two_le_pmax htopHigh) hone.le
    omega
  lift top to Nat using by omega
  have hlt := add_phase_lt hl.muFinite ha hsum hl.mu_bounds.2 hle (by omega) (by omega) htopLow htopHigh
  have := lt_of_mul_lt_mul_right (lt_of_le_of_lt hlow hlt) hone.le
  omega

/-- Every invocation that emits leaves the loop state within its limits (10_state.md R45). -/
theorem invokeStr_emit_within {p : Params} {lg : F} {x : Slot} {xs out : List Sample} {rt : Runtime} {top : Int}
    (hN : p.record = binary64) (hp : p.Ok) (hv : StrValid binary64 p x) (hl : LoopOk binary64 x)
    (hg : finite lg = true) (htop : binary64.floorI x.dv.pmax = some top) (h : invokeStr p lg x xs = .emit out rt) :
    LoopWithin x.dv rt top := by
  obtain ⟨win, mid, early, late, e, n, mu, -, -, -, -, -, -, he, hsplit, -, rfl⟩ := invokeStr_emit h
  rw [hN] at he hsplit ⊢
  obtain ⟨hi, hiLow, hiHigh⟩ := integNext_between lg e hv hl hg he
  obtain ⟨hper, hperLow, hperHigh⟩ := period_between _ hv hi hiLow hiHigh
  obtain ⟨ha, haLow, haHigh⟩ := advance_between _ e hv hper he
  obtain ⟨n', mu', hsplit', hn1, hn2, hmu, hmu0, hmu1⟩ := nextInstant_isOk _ hp hv hl ha haLow haHigh
  rw [hsplit] at hsplit'
  cases hsplit'
  have hnTop := nextInstant_le hp hv hl ha haHigh htop hsplit
  have hrcap := hp.2.1.2
  have hskip : ((BitVec.ofInt 32 n).toNat : Int) = n := by
    rw [BitVec.toNat_ofInt]
    omega
  exact ⟨hmu, ⟨hmu0, hmu1⟩, hi, ⟨hiLow, hiHigh⟩, hper, ⟨hperLow, hperHigh⟩, by
    dsimp only
    omega⟩

/-- A loop state within its limits is what the next invocation needs. -/
theorem LoopWithin.loopOk {dv : Derived} {x : Slot} {top : Int} (h : LoopWithin dv x.rt top) : LoopOk binary64 x where
  muFinite := h.muFinite
  muLow := (le_iff finite_zero h.muFinite).mpr (exact_zero ▸ h.mu.1)
  muHigh := (lt_iff h.muFinite finite_one).mpr (exact_one ▸ h.mu.2)
  integ := h.integFinite
  skip := h.skip.1

/-- Settles O49: the limits in exact units, read as the comparisons of the record. -/
theorem timingLoopBounds : Obligations.TimingLoopBounds := by
  intro s x xs out rt top N hnum hp hk hv hl hg htop h
  have hN : s.par.record = binary64 := record_eq hnum
  simp only [N, hN] at hv hl hg htop ⊢
  have hstr : invokeStr s.par s.actv.lg x xs = .emit out rt := by rwa [invoke, hk] at h
  rw [nonnegative, Bool.and_eq_true] at hg
  have hw := invokeStr_emit_within hN hp hv hl hg.1 htop hstr
  obtain ⟨hrng, -, hpmin, -⟩ := hv.limits
  have hneg : finite (negate x.dv.rng) = true := (finite_negate _).trans hrng
  have hok : LoopOk binary64 { x with rt := rt } := LoopWithin.loopOk (dv := x.dv) (top := top) hw
  exact ⟨hok.muLow, hok.muHigh, (le_iff hneg hw.integFinite).mpr hw.integ.1, (le_iff hw.integFinite hrng).mpr hw.integ.2,
    (le_iff hpmin hw.periodFinite).mpr hw.period.1, (le_iff hw.periodFinite hv.pmaxFinite).mpr hw.period.2, hw.skip⟩

end Sys2Proof.Machine
end

section
/-! PROOFS. What one step can do to the registers, said once: a step of an agent beside the command port keeps the
configuration, the memories and the tunables; a command at the port is refused, or has one of nine kinds of effect. The
statements about single registers and the invariants are read off these two inversions. -/

namespace Sys2Proof.Machine

/-! ### Steps that leave every register -/

/-- The two states have the same registers; the ports and the schedule may differ. -/
structure SameRegisters (s t : State) : Prop where
  par : t.par = s.par
  lc : t.lc = s.lc
  fcode : t.fcode = s.fcode
  nstg : t.nstg = s.nstg
  pend : t.pend = s.pend
  actv : t.actv = s.actv
  slots : t.slots = s.slots
  rings : t.rings = s.rings

theorem SameRegisters.refl (s : State) : SameRegisters s s := ⟨rfl, rfl, rfl, rfl, rfl, rfl, rfl, rfl⟩

theorem SameRegisters.trans {s t u : State} (h : SameRegisters s t) (h' : SameRegisters t u) : SameRegisters s u :=
  ⟨h'.par.trans h.par, h'.lc.trans h.lc, h'.fcode.trans h.fcode, h'.nstg.trans h.nstg, h'.pend.trans h.pend,
    h'.actv.trans h.actv, h'.slots.trans h.slots, h'.rings.trans h.rings⟩

theorem SameRegisters.slot {s t : State} (h : SameRegisters s t) (k : Nat) : t.slot k = s.slot k := by
  rw [State.slot, State.slot, h.slots, h.par]

theorem SameRegisters.ring {s t : State} (h : SameRegisters s t) (e : Nat) : t.ring e = s.ring e := by
  rw [State.ring, State.ring, h.rings]

theorem SameRegisters.live {s t : State} (h : SameRegisters s t) : t.live = s.live := by
  rw [State.live, State.live, h.lc]

theorem sameRegisters_respond (s : State) (c : Status) (info : BitVec 24) : SameRegisters s (s.respond c info) :=
  ⟨rfl, rfl, rfl, rfl, rfl, rfl, rfl, rfl⟩

theorem sameRegisters_respondData (s : State) (c : Status) (info : BitVec 24) (v : BitVec 64) :
    SameRegisters s (s.respondData c info v) := ⟨rfl, rfl, rfl, rfl, rfl, rfl, rfl, rfl⟩

theorem sameRegisters_cmdIn (s : State) (ws : List Word) : SameRegisters s { s with cmdIn := ws } :=
  ⟨rfl, rfl, rfl, rfl, rfl, rfl, rfl, rfl⟩

theorem sameRegisters_srcIn (s : State) (vs : List F) : SameRegisters s { s with srcIn := vs } :=
  ⟨rfl, rfl, rfl, rfl, rfl, rfl, rfl, rfl⟩

theorem sameRegisters_snkOut (s : State) (bs : List Byte) : SameRegisters s { s with snkOut := bs } :=
  ⟨rfl, rfl, rfl, rfl, rfl, rfl, rfl, rfl⟩

theorem sameRegisters_advancePlan (s : State) : SameRegisters s s.advancePlan := by constructor <;> simp

theorem sameRegisters_waitEffect (s : State) : SameRegisters s (waitEffect s) := by
  unfold waitEffect
  split
  · exact sameRegisters_respond ..
  · exact sameRegisters_cmdIn ..

theorem sameRegisters_readCsrEffect (n : BitVec 12) (s : State) : SameRegisters s (readCsrEffect n s) := by
  unfold readCsrEffect
  split
  · exact sameRegisters_respondData ..
  · exact sameRegisters_respond ..

/-! ### The effect of a command -/

/-- The nine kinds of effect of an accepted command. -/
inductive EffectCase (i : Instr) (s : State) : Prop
  /-- `NOP`, `WAIT`, `RDCSR` -/
  | quiet (h : SameRegisters s (effect i s))
  | stop (hi : i = .stop)
  | reset (hi : i = .reset)
  | start (hi : i = .start)
  | commit (hi : i = .commit)
  /-- `SET.*` -/
  | pending (v : F) (t : Tunables)
      (hi : i = .setFs v ∨ i = .setRffs v ∨ i = .setDev v ∨ i = .setBaud v ∨ i = .setThr v ∨ i = .setLg v ∨ i = .setFc v)
      (h : effect i s = setPending t s)
  /-- `CFG.*` -/
  | configured (k : BitVec 4) (c : SlotCfg) (hi : slotOperand i = some k)
      (hlegal : ∀ lc, legalIn i lc = decide (lc = .idle ∨ lc = .halted)) (h : effect i s = configure k c s)
  | taps (k : BitVec 4) (vs : List F) (hi : i = .ldtap k vs)
  | row (k : BitVec 4) (r : BitVec 12) (cs : List F) (hi : i = .lditb k r cs)

theorem effect_cases (i : Instr) (s : State) : EffectCase i s := by
  cases i with
  | nop => exact .quiet (sameRegisters_respond ..)
  | reset => exact .reset rfl
  | start => exact .start rfl
  | stop => exact .stop rfl
  | wait => exact .quiet (sameRegisters_waitEffect s)
  | commit => exact .commit rfl
  | cfgNone k => exact .configured k _ rfl (fun _ => rfl) rfl
  | cfgSql k alpha hyst => exact .configured k _ rfl (fun _ => rfl) rfl
  | cfgFmd k rsel => exact .configured k _ rfl (fun _ => rfl) rfl
  | cfgFir k cplx l m => exact .configured k _ rfl (fun _ => rfl) rfl
  | cfgRsp k cplx l m fbw => exact .configured k _ rfl (fun _ => rfl) rfl
  | cfgStr k lognph nt delta kp plim => exact .configured k _ rfl (fun _ => rfl) rfl
  | ldtap k vs => exact .taps k vs rfl
  | lditb k r cs => exact .row k r cs rfl
  | setFs v => exact .pending v _ (by simp) rfl
  | setRffs v => exact .pending v _ (by simp) rfl
  | setDev v => exact .pending v _ (by simp) rfl
  | setBaud v => exact .pending v _ (by simp) rfl
  | setThr v => exact .pending v _ (by simp) rfl
  | setLg v => exact .pending v _ (by simp) rfl
  | setFc v => exact .pending v _ (by simp) rfl
  | rdcsr n => exact .quiet (sameRegisters_readCsrEffect n s)

/-- What a step can do: a command is accepted in a state with the registers of `s`, nothing happens to the registers, or
an agent beside the command port moves. -/
theorem step_cases {s t : State} (h : step s = .next t) :
    (∃ i u, Executes s i ∧ SameRegisters s u ∧ refusal u i = none ∧ t = effect i u) ∨ SameRegisters s t ∨
      ∃ a, a ≠ .hostCmd ∧ agentStep a s.advancePlan = .next t := by
  have hadv := sameRegisters_advancePlan s
  by_cases ha : s.nextAgent = .hostCmd
  · rw [step, ha] at h
    rcases hostCmd_cases h with ⟨i, rest, hd, hexec⟩ | ⟨opc, rest, -, rfl⟩ | ⟨rest, -, rfl⟩ | ⟨-, rfl⟩
    · have hu := hadv.trans (sameRegisters_cmdIn s.advancePlan rest)
      rw [exec_eq] at hexec
      rcases command_cases hexec with ⟨c, info, -, rfl⟩ | ⟨hok, rfl⟩
      · exact .inr (.inl (hu.trans (sameRegisters_respond ..)))
      · exact .inl ⟨i, _, ⟨ha, rest, by rwa [advancePlan_cmdIn] at hd⟩, hu, hok, rfl⟩
    · exact .inr (.inl ((hadv.trans (sameRegisters_cmdIn _ rest)).trans (sameRegisters_respond ..)))
    · exact .inr (.inl ((hadv.trans (sameRegisters_cmdIn _ rest)).trans (sameRegisters_respond ..)))
    · exact .inr (.inl hadv)
  · exact .inr (.inr ⟨s.nextAgent, ha, h⟩)

/-! ### The agents beside the command port -/

theorem setSlot_slot (s : State) (k j : Nat) (x : Slot) :
    (s.setSlot k x).slot j = if j = k ∧ k < s.slots.length then x else s.slot j := by
  by_cases hj : j = k
  · subst hj
    by_cases hk : j < s.slots.length
    · rw [setSlot_slot_same s j x hk, if_pos ⟨rfl, hk⟩]
    · rw [if_neg (fun h => hk h.2), State.setSlot, List.set_eq_of_length_le (not_lt.mp hk)]
  · rw [setSlot_slot_other s k j x hj, if_neg (fun h => hj h.1)]

theorem setRing_ring (s : State) (e j : Nat) (r : Ring) :
    (s.setRing e r).ring j = if j = e ∧ e < s.rings.length then r else s.ring j := by
  by_cases hj : j = e
  · subst hj
    by_cases he : j < s.rings.length
    · rw [setRing_ring_same s j r he, if_pos ⟨rfl, he⟩]
    · rw [if_neg (fun h => he h.2), State.setRing, List.set_eq_of_length_le (not_lt.mp he)]
  · rw [setRing_ring_other s e j r hj, if_neg (fun h => hj h.1)]

/-- What a step of the data path keeps: everything but `LC`, the latch, the slots' runtime state and the queues. -/
structure DataStep (s t : State) : Prop where
  par : t.par = s.par
  nstg : t.nstg = s.nstg
  pend : t.pend = s.pend
  actv : t.actv = s.actv
  cfg : ∀ k, (t.slot k).cfg = (s.slot k).cfg
  taps : ∀ k, (t.slot k).taps = (s.slot k).taps
  itb : ∀ k, (t.slot k).itb = (s.slot k).itb
  dv : ∀ k, (t.slot k).dv = (s.slot k).dv
  cplx : ∀ e, (t.ring e).cplx = (s.ring e).cplx

theorem DataStep.trans {s t u : State} (h : DataStep s t) (h' : DataStep t u) : DataStep s u :=
  ⟨h'.par.trans h.par, h'.nstg.trans h.nstg, h'.pend.trans h.pend, h'.actv.trans h.actv,
    fun k => (h'.cfg k).trans (h.cfg k), fun k => (h'.taps k).trans (h.taps k), fun k => (h'.itb k).trans (h.itb k),
    fun k => (h'.dv k).trans (h.dv k), fun e => (h'.cplx e).trans (h.cplx e)⟩

/-- Equal parameters, pipeline, tunables, slots and rings make a step of the data path. -/
theorem DataStep.of_eq {s t : State} (hpar : t.par = s.par) (hnstg : t.nstg = s.nstg) (hpend : t.pend = s.pend)
    (hactv : t.actv = s.actv) (hslots : t.slots = s.slots) (hrings : t.rings = s.rings) : DataStep s t := by
  have hslot : t.slot = s.slot := by funext k; rw [State.slot, State.slot, hslots, hpar]
  have hring : t.ring = s.ring := by funext e; rw [State.ring, State.ring, hrings]
  exact ⟨hpar, hnstg, hpend, hactv, fun _ => by rw [hslot], fun _ => by rw [hslot], fun _ => by rw [hslot],
    fun _ => by rw [hslot], fun _ => by rw [hring]⟩

theorem SameRegisters.dataStep {s t : State} (h : SameRegisters s t) : DataStep s t :=
  .of_eq h.par h.nstg h.pend h.actv h.slots h.rings

theorem DataStep.refl (s : State) : DataStep s s := (SameRegisters.refl s).dataStep

theorem dataStep_raiseFault (s : State) (c : FaultCode) (k : BitVec 4) : DataStep s (s.raiseFault c k) :=
  .of_eq (by simp) (by simp) (by simp) (by simp) (by simp) (by simp)

theorem dataStep_setRt (s : State) (k : Nat) (rt : Runtime) : DataStep s (s.setSlot k { s.slot k with rt := rt }) := by
  have hslot : ∀ j, (s.setSlot k { s.slot k with rt := rt }).slot j = s.slot j ∨
      (s.setSlot k { s.slot k with rt := rt }).slot j = { s.slot j with rt := rt } := by
    intro j
    rw [setSlot_slot]
    split
    · rename_i hj
      rw [hj.1]
      exact .inr rfl
    · exact .inl rfl
  refine ⟨rfl, rfl, rfl, rfl, fun j => ?_, fun j => ?_, fun j => ?_, fun j => ?_, fun _ => rfl⟩ <;>
    rcases hslot j with h | h <;> rw [h]

theorem dataStep_setQueue (s : State) (e : Nat) (q : List Sample) :
    DataStep s (s.setRing e { s.ring e with queue := q }) where
  par := rfl
  nstg := rfl
  pend := rfl
  actv := rfl
  cfg _ := rfl
  taps _ := rfl
  itb _ := rfl
  dv _ := rfl
  cplx j := by
    rw [setRing_ring]
    split
    · rename_i hj
      rw [hj.1]
    · rfl

theorem dataStep_deq (s : State) (e n : Nat) : DataStep s (s.deq e n) := dataStep_setQueue s e _

theorem dataStep_enq (s : State) (e : Nat) (xs : List Sample) : DataStep s (s.enq e xs) := dataStep_setQueue s e _

theorem dataStep_hostSrc (s : State) : DataStep s (hostSrc s) := by
  rcases hostSrc_cases s with h | ⟨x, rest, -, -, -, ⟨-, h⟩ | ⟨-, h⟩⟩ <;> rw [h]
  · exact .refl s
  · exact (sameRegisters_srcIn s rest).dataStep.trans (dataStep_enq _ 0 [x])
  · exact dataStep_raiseFault ..

theorem dataStep_hostSnk (s : State) : DataStep s (hostSnk s) := by
  rcases hostSnk_cases s with h | ⟨v, q, -, -, -, ⟨-, h⟩ | ⟨-, h⟩⟩ <;> rw [h]
  · exact .refl s
  · exact (sameRegisters_snkOut s _).dataStep.trans (dataStep_deq _ s.nstg 1)
  · exact dataStep_raiseFault ..

theorem dataStep_hostIo (s : State) : DataStep s (hostIo s) := by
  rcases hostIo_cases s with ⟨-, h⟩ | ⟨-, h⟩ <;> rw [h]
  · exact dataStep_raiseFault ..
  · exact .refl s

theorem dataStep_stageStep {s t : State} {k : Nat} (h : stageStep s k = .next t) : DataStep s t := by
  rcases stageStep_cases h with rfl | ⟨-, out, rt, -, rfl⟩ | ⟨-, -, rfl⟩ | ⟨-, rfl⟩
  · exact .refl _
  · exact (dataStep_deq s k _).trans ((dataStep_setRt (s.deq k _) k rt).trans (dataStep_enq _ (k + 1) out))
  · exact dataStep_raiseFault ..
  · exact dataStep_setRt ..

theorem dataStep_stopEffect (s : State) : DataStep s (stopEffect s) := by
  unfold stopEffect
  split <;> exact .of_eq rfl rfl rfl rfl rfl rfl

theorem dataStep_schedHalt (s : State) : DataStep s (schedHalt s) := by
  rcases schedHalt_cases s with ⟨-, -, -, h⟩ | h <;> rw [h] <;> exact .of_eq rfl rfl rfl rfl rfl rfl

/-- No agent beside the command port writes a configuration, a memory, a derived register or a tunable. -/
theorem dataStep_agentStep {a : Agent} {s t : State} (ha : a ≠ .hostCmd) (h : agentStep a s = .next t) : DataStep s t := by
  cases a with
  | hostCmd => exact absurd rfl ha
  | hostSrc => cases h; exact dataStep_hostSrc s
  | hostSnk => cases h; exact dataStep_hostSnk s
  | hostIo => cases h; exact dataStep_hostIo s
  | stage k => exact dataStep_stageStep h
  | sched => cases h; exact dataStep_schedHalt s

/-! ### Who writes the tunables and the active taps -/

/-- Loading the pending bank leaves the active vector (40_commands.md R141). -/
theorem load_pending_vector (t : TapMem) (vs : List F) :
    (t.load (!t.act) vs).vector (t.load (!t.act) vs).act = t.vector t.act := by
  have hact : (t.load (!t.act) vs).act = t.act := by unfold TapMem.load; split <;> rfl
  rw [hact]
  simpa using TapMem.load_vector_other t (!t.act) vs

/-- A command beside `START`, `COMMIT` and `RESET` changes an active vector only by configuring that very slot. -/
theorem effect_vector {i : Instr} {s : State} {k : Nat} (hok : refusal s i = none) (hstart : i ≠ .start)
    (hcommit : i ≠ .commit) (hreset : i ≠ .reset) :
    ((effect i s).slot k).taps.vector ((effect i s).slot k).taps.act = (s.slot k).taps.vector (s.slot k).taps.act ∨
      ∃ j, slotOperand i = some j ∧ j.toNat = k ∧ s.live = false := by
  cases effect_cases i s with
  | quiet h => exact .inl (by rw [h.slot])
  | stop hi =>
    subst hi
    exact .inl (by rw [effect, (dataStep_stopEffect s).taps])
  | reset hi => exact absurd hi hreset
  | start hi => exact absurd hi hstart
  | commit hi => exact absurd hi hcommit
  | pending v t hi h => rw [h]; exact .inl rfl
  | configured j c hi hlegal h =>
    by_cases hk : j.toNat = k
    · have hlc := ((accepted_iff s i).mp hok).2.1
      rw [hlegal, decide_eq_true_eq] at hlc
      exact .inr ⟨j, hi, hk, by rcases hlc with h | h <;> simp [State.live, h]⟩
    · rw [h, configure, respond_slot, setSlot_slot_other _ _ _ _ (Ne.symm hk)]
      exact .inl rfl
  | taps j vs hi =>
    subst hi
    refine .inl ?_
    simp only [effect, loadTapsEffect, respond_slot, setSlot_slot]
    split
    · rename_i hk
      rw [hk.1]
      exact load_pending_vector _ vs
    · rfl
  | row j r cs hi =>
    subst hi
    refine .inl ?_
    simp only [effect, loadRowEffect, respond_slot, setSlot_slot]
    split
    · rename_i hk
      rw [hk.1]
    · rfl

/-- Active tunables are written by `START`, `COMMIT` and `RESET` alone. -/
theorem effect_actv {i : Instr} {s : State} (hstart : i ≠ .start) (hcommit : i ≠ .commit) (hreset : i ≠ .reset) :
    (effect i s).actv = s.actv := by
  cases effect_cases i s with
  | quiet h => exact h.actv
  | stop hi => subst hi; exact (dataStep_stopEffect s).actv
  | reset hi => exact absurd hi hreset
  | start hi => exact absurd hi hstart
  | commit hi => exact absurd hi hcommit
  | pending v t hi h => rw [h]; rfl
  | configured j c hi hlegal h => rw [h]; rfl
  | taps j vs hi => subst hi; rfl
  | row j r cs hi => subst hi; rfl

/-- A rejected candidate changes the latch, `LC` and the answer alone. -/
theorem rejectConfig_pend (s : State) (c : FaultCode) (k : BitVec 4) : (s.rejectConfig c k).pend = s.pend := by
  simp [State.rejectConfig]

theorem startEffect_pend (s : State) : (startEffect s).pend = s.pend := by
  unfold startEffect
  dsimp only
  split
  · rfl
  · exact rejectConfig_pend ..

theorem commitEffect_pend (s : State) : (commitEffect s).pend = s.pend := by
  unfold commitEffect
  split
  · rfl
  · exact rejectConfig_pend ..

/-- Pending tunables are written by `SET.*` and `RESET` alone. -/
theorem effect_pend {i : Instr} {s : State} (hreset : i ≠ .reset)
    (hset : ∀ v, ¬(i = .setFs v ∨ i = .setRffs v ∨ i = .setDev v ∨ i = .setBaud v ∨ i = .setThr v ∨ i = .setLg v ∨
      i = .setFc v)) : (effect i s).pend = s.pend := by
  cases effect_cases i s with
  | quiet h => exact h.pend
  | stop hi => subst hi; exact (dataStep_stopEffect s).pend
  | reset hi => exact absurd hi hreset
  | start hi => subst hi; exact startEffect_pend s
  | commit hi => subst hi; exact commitEffect_pend s
  | pending v t hi h => exact absurd hi (hset v)
  | configured j c hi hlegal h => rw [h]; rfl
  | taps j vs hi => subst hi; rfl
  | row j r cs hi => subst hi; rfl

/-- Settles O60: a step of the data path writes none of the three; among the commands, the writers are read off the
kinds of effect. -/
theorem whoWritesTheTunables : Obligations.WhoWritesTheTunables := by
  intro s t h
  rcases step_cases h with ⟨i, u, hex, hu, hok, rfl⟩ | hsame | ⟨a, ha, hstep⟩
  · refine ⟨fun hne => ?_, fun hne => ?_, fun k hne => ?_⟩
    · by_contra hcon
      simp only [not_or] at hcon
      obtain ⟨hstart, hcommit, hreset⟩ := hcon
      refine hne ((effect_actv ?_ ?_ ?_).trans hu.actv) <;> rintro rfl <;> contradiction
    · by_contra hcon
      simp only [not_or, not_exists] at hcon
      obtain ⟨hreset, hset⟩ := hcon
      refine hne ((effect_pend ?_ ?_).trans hu.pend)
      · rintro rfl; exact hreset hex
      · rintro v hi
        obtain ⟨h1, h2, h3, h4, h5, h6, h7⟩ := hset v
        rcases hi with rfl | rfl | rfl | rfl | rfl | rfl | rfl <;> contradiction
    · by_contra hcon
      simp only [not_or] at hcon
      obtain ⟨hstart, hcommit, hreset, hslot⟩ := hcon
      rcases effect_vector (k := k) hok (by rintro rfl; contradiction) (by rintro rfl; contradiction)
        (by rintro rfl; contradiction) with heq | ⟨j, hj, hk, hlive⟩
      · exact hne (heq.trans (by rw [hu.slot]))
      · exact hslot ⟨i, j, hex, hj, hk, hu.live ▸ hlive⟩
  · exact ⟨fun hne => absurd hsame.actv hne, fun hne => absurd hsame.pend hne,
      fun k hne => absurd (by rw [hsame.slot]) hne⟩
  · have hd := (sameRegisters_advancePlan s).dataStep.trans (dataStep_agentStep ha hstep)
    exact ⟨fun hne => absurd hd.actv hne, fun hne => absurd hd.pend hne,
      fun k hne => absurd (by rw [hd.taps]) hne⟩

end Sys2Proof.Machine
end

section
/-! PROOFS. The shape of the state is an invariant (10_state.md R45): each update the steps are made of keeps it, and so
does each step. -/

namespace Sys2Proof.Machine

/-! ### Invocations -/

theorem foldl_shiftHist_length (p : Params) (cplx : Bool) (xs hist : List Sample) (h : hist.length = p.tapmax) :
    (xs.foldl (shiftHist p cplx) hist).length = p.tapmax := by
  induction xs generalizing hist with
  | nil => exact h
  | cons x xs ih => exact ih _ (shiftHist_length p cplx hist x h)

/-- A block of `M` samples gives at most `L`, and the history keeps its depth; with `M = 0` nothing happens. -/
theorem polyphase_sizes {p : Params} {cplx : Bool} {taps : List F} {l m : Nat} {xs hist out hist' : List Sample}
    (hx : xs.length = m) (hh : hist.length = p.tapmax) (h : polyphase p cplx taps l m xs 0 hist = some (out, hist')) :
    out.length ≤ l ∧ hist'.length = p.tapmax := by
  cases xs with
  | nil => cases h; exact ⟨Nat.zero_le l, hh⟩
  | cons x xs =>
    have hm : 1 ≤ m := by rw [← hx, List.length_cons]; omega
    refine ⟨(polyphase_length p cplx taps l m hm _ hist out hist' hx h).le, ?_⟩
    rw [(polyphase_facts p cplx taps l m hm _ 0 hist out hist' h).1]
    exact foldl_shiftHist_length p cplx _ hist hh

/-- What every invocation of a stage that emits keeps: `DONE`, and the depths of the history and the window; it emits at
most `prod` samples. -/
structure EmitSizes (x : Slot) (out : List Sample) (rt : Runtime) : Prop where
  done : rt.done = x.rt.done
  hist : rt.hist.length = x.rt.hist.length
  win : rt.win.length = x.rt.win.length
  out : out.length ≤ x.prod

theorem pfir_emit_sizes {p : Params} {x : Slot} {xs out : List Sample} {rt : Runtime} (hw : SlotWf p x)
    (hx : xs.length = x.cfg.m.toNat) (hprod : x.prod = x.cfg.l.toNat) (h : pfir p x xs = .emit out rt) :
    EmitSizes x out rt := by
  obtain ⟨hist, hpoly, rfl⟩ := pfir_emit h
  obtain ⟨hout, hhist⟩ := polyphase_sizes hx hw.hist hpoly
  exact ⟨rfl, hhist.trans hw.hist.symm, rfl, hprod ▸ hout⟩

theorem invoke_emit_sizes {s : State} {x : Slot} {xs out : List Sample} {rt : Runtime} (hw : SlotWf s.par x)
    (hx : xs.length = x.need) (h : invoke s x xs = .emit out rt) : EmitSizes x out rt := by
  unfold invoke at h
  cases hk : x.cfg.kind <;> rw [hk] at h <;> dsimp only at h
  case none => cases h; exact ⟨rfl, rfl, rfl, Nat.zero_le _⟩
  case sql =>
    obtain ⟨pwr, gate, -, -, -, rfl, rfl⟩ := invokeSql_emit h
    exact ⟨rfl, rfl, rfl, by simp [Slot.prod, hk]⟩
  case fmd =>
    obtain ⟨y, -, -, rfl, rfl⟩ := invokeFmd_emit h
    exact ⟨rfl, rfl, rfl, by simp [Slot.prod, hk]⟩
  case fir => exact pfir_emit_sizes hw (by simpa [Slot.need, hk] using hx) (by simp [Slot.prod, hk]) h
  case rsp => exact pfir_emit_sizes hw (by simpa [Slot.need, hk] using hx) (by simp [Slot.prod, hk]) h
  case str =>
    obtain ⟨win, mid, early, late, e, n, mu, hw0, hwTop, rfl, -, -, -, -, -, rfl, rfl⟩ := invokeStr_emit h
    exact ⟨rfl, rfl, foldl_shiftWin_length _ _ _ (by omega) (hw.win ▸ hwTop), by simp [Slot.prod, hk]⟩

/-! ### Slots -/

theorem slotWf_reset (p : Params) : SlotWf p (Slot.reset p) where
  bank0 := ⟨.nil, by simp [Slot.reset, TapMem.reset]⟩
  bank1 := ⟨.nil, by simp [Slot.reset, TapMem.reset]⟩
  count0 := Nat.zero_le _
  count1 := Nat.zero_le _
  coeffs := ⟨.nil, by simp [Slot.reset, InterpTable.reset]⟩
  hist := List.length_replicate
  win := List.length_replicate

/-- The shape of a slot does not depend on its configuration or its derived registers, nor on which bank is active. -/
theorem SlotWf.of_eq {p : Params} {x y : Slot} (h : SlotWf p x) (h0 : y.taps.bank0 = x.taps.bank0)
    (h1 : y.taps.bank1 = x.taps.bank1) (hc0 : y.taps.count0 = x.taps.count0) (hc1 : y.taps.count1 = x.taps.count1)
    (hitb : y.itb = x.itb) (hhist : y.rt.hist.length = x.rt.hist.length) (hwin : y.rt.win.length = x.rt.win.length) :
    SlotWf p y :=
  ⟨h0 ▸ h.bank0, h1 ▸ h.bank1, hc0 ▸ h.count0, hc1 ▸ h.count1, hitb ▸ h.coeffs, hhist.trans h.hist, hwin.trans h.win⟩

theorem SlotWf.setCfg {p : Params} {x : Slot} (h : SlotWf p x) (c : SlotCfg) : SlotWf p { x with cfg := c } :=
  h.of_eq rfl rfl rfl rfl rfl rfl rfl

theorem SlotWf.setRt {p : Params} {x : Slot} (h : SlotWf p x) {rt : Runtime} (hhist : rt.hist.length = x.rt.hist.length)
    (hwin : rt.win.length = x.rt.win.length) : SlotWf p { x with rt := rt } :=
  h.of_eq rfl rfl rfl rfl rfl hhist hwin

theorem SlotWf.adopt {p : Params} {x : Slot} (h : SlotWf p x) : SlotWf p { x with taps := x.taps.adopt } := by
  unfold TapMem.adopt
  split
  · exact h.of_eq rfl rfl rfl rfl rfl rfl rfl
  · exact h

theorem SlotWf.derive {p : Params} {x : Slot} (N : NumRecord) (t : Tunables) (h : SlotWf p x) :
    SlotWf p (deriveSlot N t x) := h.of_eq (by simp) (by simp) (by simp) (by simp) (by simp) (by simp) (by simp)

theorem SlotWf.start {p : Params} {x : Slot} (h : SlotWf p x) : SlotWf p (startSlot p x) := by
  refine ⟨?_, ?_, ?_, ?_, ?_, ?_, ?_⟩
  · simpa using h.bank0
  · simpa using h.bank1
  · simpa using h.count0
  · simpa using h.count1
  · simpa using h.coeffs
  · unfold startSlot
    cases x.cfg.kind with
    | fir | rsp => exact List.length_replicate
    | none | sql | fmd | str => exact h.hist
  · unfold startSlot
    cases x.cfg.kind with
    | str => exact List.length_replicate
    | none | sql | fmd | fir | rsp => exact h.win

theorem SlotWf.load {p : Params} {x : Slot} (h : SlotWf p x) (b : Bool) {vs : List F} (hvs : vs.length ≤ p.tapmax) :
    SlotWf p { x with taps := x.taps.load b vs } := by
  obtain ⟨h0, h1⟩ := TapMem.load_wf x.taps b vs h.bank0 h.bank1
  cases b
  · exact ⟨h0, h1, hvs, h.count1, h.coeffs, h.hist, h.win⟩
  · exact ⟨h0, h1, h.count0, hvs, h.coeffs, h.hist, h.win⟩

theorem SlotWf.loadRow {p : Params} {x : Slot} (h : SlotWf p x) (r : Nat) (cs : List F) :
    SlotWf p { x with itb := x.itb.load p r cs } :=
  ⟨h.bank0, h.bank1, h.count0, h.count1, Mem.writeAll_wf _ _ _ h.coeffs, h.hist, h.win⟩

theorem SlotWf.count_le {p : Params} {x : Slot} (h : SlotWf p x) (b : Bool) : x.taps.count b ≤ p.tapmax := by
  cases b
  · exact h.count0
  · exact h.count1

/-- Every slot number reads a slot of the right shape. -/
theorem StateWf.slot {s : State} (h : StateWf s) (k : Nat) : SlotWf s.par (s.slot k) := by
  by_cases hk : k < s.slots.length
  · rw [slot_getElem s hk]
    exact h.slots _ (List.getElem_mem hk)
  · rw [slot_of_ge s (not_lt.mp hk)]
    exact slotWf_reset s.par

/-- Every ring number reads a ring within its capacity. -/
theorem StateWf.ring {s : State} (h : StateWf s) (e : Nat) : (s.ring e).queue.length ≤ s.par.rcap := by
  by_cases he : e < s.rings.length
  · rw [ring_getElem s he]
    exact h.rings _ (List.getElem_mem he)
  · rw [State.ring, List.getD_eq_getElem?_getD, List.getElem?_eq_none (not_lt.mp he)]
    exact Nat.zero_le _

/-! ### The updates of the state -/

theorem StateWf.same {s t : State} (h : StateWf s) (e : SameRegisters s t) : StateWf t where
  par := e.par ▸ h.par
  slotCount := by rw [e.slots, e.par, h.slotCount]
  ringCount := by rw [e.rings, e.par, h.ringCount]
  stages := by rw [e.nstg, e.par]; exact h.stages
  slots := by rw [e.slots, e.par]; exact h.slots
  rings := by rw [e.rings, e.par]; exact h.rings
  latch := by rw [e.lc, e.fcode]; exact h.latch

theorem StateWf.setSlot {s : State} (h : StateWf s) (k : Nat) {x : Slot} (hx : SlotWf s.par x) :
    StateWf (s.setSlot k x) where
  par := h.par
  slotCount := by rw [setSlot_slots, List.length_set]; exact h.slotCount
  ringCount := h.ringCount
  stages := h.stages
  slots y hy := by
    rcases List.mem_or_eq_of_mem_set hy with hy | rfl
    · exact h.slots y hy
    · exact hx
  rings := h.rings
  latch := h.latch

theorem StateWf.setQueue {s : State} (h : StateWf s) (e : Nat) {q : List Sample} (hq : q.length ≤ s.par.rcap) :
    StateWf (s.setRing e { s.ring e with queue := q }) where
  par := h.par
  slotCount := h.slotCount
  ringCount := by rw [setRing_rings, List.length_set]; exact h.ringCount
  stages := h.stages
  slots := h.slots
  rings r hr := by
    rcases List.mem_or_eq_of_mem_set hr with hr | rfl
    · exact h.rings r hr
    · exact hq
  latch := h.latch

theorem StateWf.deq {s : State} (h : StateWf s) (e n : Nat) : StateWf (s.deq e n) :=
  h.setQueue e (by rw [List.length_drop]; exact (Nat.sub_le _ _).trans (h.ring e))

theorem StateWf.enq {s : State} (h : StateWf s) {e : Nat} {xs : List Sample} (hroom : s.cnt e + xs.length ≤ s.par.rcap) :
    StateWf (s.enq e xs) :=
  h.setQueue e (by rw [List.length_append]; exact hroom)

/-- A lifecycle step outside `FAULTED`. -/
theorem StateWf.setLc {s : State} (h : StateWf s) {lc : Lifecycle} (hs : s.lc ≠ .faulted) (hlc : lc ≠ .faulted) :
    StateWf { s with lc := lc } :=
  { h with latch := iff_of_false hlc fun hf => hs (h.latch.mpr hf) }

theorem StateWf.raiseFault {s : State} (h : StateWf s) {c : FaultCode} (k : BitVec 4) (hc : c ≠ .noFault) :
    StateWf (s.raiseFault c k) := by
  rcases raiseFault_cases s c k with ⟨-, e⟩ | ⟨-, e⟩ <;> rw [e]
  · exact h
  · exact { h with latch := iff_of_true rfl hc }

theorem StateWf.setPend {s : State} (h : StateWf s) (t : Tunables) : StateWf { s with pend := t } := { h with }

/-- An engine at its reset values has its shape. -/
theorem stateWf_init {p : Params} (hp : p.Ok) : StateWf (State.init p) where
  par := hp
  slotCount := List.length_replicate
  ringCount := List.length_replicate
  stages := Nat.zero_le _
  slots _ hx := List.eq_of_mem_replicate hx ▸ slotWf_reset p
  rings _ hr := List.eq_of_mem_replicate hr ▸ Nat.zero_le _
  latch := iff_of_false Lifecycle.noConfusion fun h => h rfl

theorem StateWf.resetEngine {s : State} (h : StateWf s) : StateWf s.resetEngine := { stateWf_init h.par with }

theorem mem_mapFirst {n : Nat} {f : Slot → Slot} {xs : List Slot} {x : Slot} (h : x ∈ mapFirst n f xs) :
    ∃ y ∈ xs, x = f y ∨ x = y := by
  rcases List.mem_append.mp h with h | h
  · obtain ⟨y, hy, rfl⟩ := List.mem_map.mp h
    exact ⟨y, List.mem_of_mem_take hy, .inl rfl⟩
  · exact ⟨x, List.mem_of_mem_drop h, .inr rfl⟩

/-- `adopt()` and `derive()` write the active tunables and the slots. -/
theorem StateWf.adopt {s : State} (h : StateWf s) : StateWf s.adopt :=
  { h with
    slotCount := by rw [adopt_slots, List.length_map]; exact h.slotCount
    slots := fun x hx => by
      obtain ⟨y, hy, rfl⟩ := List.mem_map.mp hx
      exact (h.slots y hy).adopt }

theorem StateWf.mapFirst {s : State} (h : StateWf s) (n : Nat) {f : Slot → Slot}
    (hf : ∀ x, SlotWf s.par x → SlotWf s.par (f x)) : StateWf { s with slots := mapFirst n f s.slots } :=
  { h with
    slotCount := by dsimp only; rw [mapFirst_length]; exact h.slotCount
    slots := fun x hx => by
      obtain ⟨y, hy, rfl | rfl⟩ := mem_mapFirst hx
      · exact hf y (h.slots y hy)
      · exact h.slots x hy }

theorem StateWf.derive {s : State} (h : StateWf s) : StateWf s.derive := h.mapFirst s.nstg fun _ hx => hx.derive _ _

theorem StateWf.started {s : State} (h : StateWf s) {n : Nat} (hn : n ≤ s.par.nslot) (hs : s.lc ≠ .faulted) :
    StateWf (s.started n) := by
  have hd : StateWf (State.derive { s.adopt with nstg := n }) := StateWf.derive { h.adopt with stages := hn }
  have hslots := hd.mapFirst n fun _ hx => hx.start
  refine StateWf.setLc (s := { s.started n with lc := s.lc }) ?_ hs (by decide)
  exact { hslots with
    ringCount := by simpa [State.started, startRings] using h.ringCount
    rings := fun r hr => by
      obtain ⟨e, he, rfl⟩ := List.mem_mapIdx.mp hr
      exact Nat.zero_le _ }

/-! ### Commands -/

theorem StateWf.rejectConfig {s : State} (h : StateWf s) {c : FaultCode} (k : BitVec 4) (hc : c ≠ .noFault) :
    StateWf (s.rejectConfig c k) := (h.raiseFault k hc).same (sameRegisters_respond ..)

theorem StateWf.startEffect {s : State} (h : StateWf s) (hs : s.lc ≠ .faulted) : StateWf (startEffect s) := by
  unfold Machine.startEffect
  dsimp only
  split
  · exact (h.started (h.slotCount ▸ leading_le s.slots) hs).same (sameRegisters_respond ..)
  · rename_i c k hne hv
    exact h.rejectConfig k hne

theorem StateWf.commitEffect {s : State} (h : StateWf s) : StateWf (commitEffect s) := by
  unfold Machine.commitEffect
  split
  · exact h.adopt.derive.same (sameRegisters_respond ..)
  · rename_i c k hne hv
    exact h.rejectConfig k hne

theorem StateWf.stopEffect {s : State} (h : StateWf s) : StateWf (stopEffect s) := by
  unfold Machine.stopEffect
  refine StateWf.same ?_ (sameRegisters_respond ..)
  split
  · rename_i hlc
    exact h.setLc (by simp [hlc]) (by decide)
  · exact h

/-- Every accepted command keeps the shape of the state. -/
theorem StateWf.effect {s : State} (h : StateWf s) {i : Instr} (hok : refusal s i = none) : StateWf (effect i s) := by
  obtain ⟨-, hlegal, -, hrange⟩ := (accepted_iff s i).mp hok
  cases effect_cases i s with
  | quiet he => exact h.same he
  | stop hi => subst hi; exact h.stopEffect
  | reset hi => subst hi; exact h.resetEngine.same (sameRegisters_respond ..)
  | start hi =>
    subst hi
    exact h.startEffect fun hf => by simp [legalIn, hf] at hlegal
  | commit hi => subst hi; exact h.commitEffect
  | pending v t hi he => rw [he]; exact (h.setPend t).same (sameRegisters_respond ..)
  | configured k c hi hl he =>
    rw [he]
    exact (h.setSlot k.toNat ((slotWf_reset s.par).setCfg c)).same (sameRegisters_respond ..)
  | taps k vs hi =>
    subst hi
    have hvs : vs.length ≤ s.par.tapmax := by
      by_contra hgt
      simp [rangeError, hgt] at hrange
    exact (h.setSlot k.toNat ((h.slot k.toNat).load _ hvs)).same (sameRegisters_respond ..)
  | row k r cs hi =>
    subst hi
    exact (h.setSlot k.toNat ((h.slot k.toNat).loadRow r.toNat cs)).same (sameRegisters_respond ..)

/-! ### The agents beside the command port -/

theorem StateWf.hostSrc {s : State} (h : StateWf s) : StateWf (hostSrc s) := by
  rcases hostSrc_cases s with e | ⟨x, rest, -, hroom, -, ⟨-, e⟩ | ⟨-, e⟩⟩ <;> rw [e]
  · exact h
  · exact (h.same (sameRegisters_srcIn s rest)).enq hroom
  · exact h.raiseFault _ (by decide)

theorem StateWf.hostSnk {s : State} (h : StateWf s) : StateWf (hostSnk s) := by
  rcases hostSnk_cases s with e | ⟨v, q, -, -, -, ⟨-, e⟩ | ⟨-, e⟩⟩ <;> rw [e]
  · exact h
  · exact (h.same (sameRegisters_snkOut s _)).deq _ _
  · exact h.raiseFault _ (by decide)

theorem StateWf.hostIo {s : State} (h : StateWf s) : StateWf (hostIo s) := by
  rcases hostIo_cases s with ⟨-, e⟩ | ⟨-, e⟩ <;> rw [e]
  · exact h.raiseFault _ (by decide)
  · exact h

theorem StateWf.schedHalt {s : State} (h : StateWf s) : StateWf (schedHalt s) := by
  rcases schedHalt_cases s with ⟨hlc, -, -, e⟩ | e <;> rw [e]
  · exact h.setLc (by simp [hlc]) (by decide)
  · exact h

theorem front_length {s : State} {e n : Nat} (h : n ≤ s.cnt e) : (s.front e n).length = n := by
  rw [State.front, List.length_take]
  exact Nat.min_eq_left h

/-- Where an invocation is enabled, the samples it takes are a whole block and what it emits has room. -/
theorem StateWf.invocation {s : State} (h : StateWf s) {k : Nat} {out : List Sample} {rt : Runtime}
    (hready : invokeReady s k = true) (hinv : invoke s (s.slot k) (s.front k (s.slot k).need) = .emit out rt) :
    StateWf (((s.deq k (s.slot k).need).setSlot k { s.slot k with rt := rt }).enq (k + 1) out) := by
  obtain ⟨-, hneed, hroom⟩ := (invokeReady_iff s k).mp hready
  have hsizes := invoke_emit_sizes (h.slot k) (front_length hneed) hinv
  refine StateWf.enq ((h.deq k _).setSlot k ((h.slot k).setRt hsizes.hist hsizes.win)) ?_
  have hcnt : (s.deq k (s.slot k).need).cnt (k + 1) = s.cnt (k + 1) := by
    rw [State.cnt, State.deq, setRing_ring_other _ _ _ _ (Nat.succ_ne_self k), State.cnt]
  have hcap : s.cnt (k + 1) ≤ s.par.rcap := h.ring (k + 1)
  have hout := hsizes.out
  show (s.deq k (s.slot k).need).cnt (k + 1) + out.length ≤ s.par.rcap
  omega

theorem StateWf.stageStep {s t : State} (h : StateWf s) {k : Nat} (hstep : stageStep s k = .next t) : StateWf t := by
  rcases stageStep_cases hstep with rfl | ⟨hready, out, rt, hinv, rfl⟩ | ⟨-, -, rfl⟩ | ⟨-, rfl⟩
  · exact h
  · exact h.invocation hready hinv
  · exact h.raiseFault _ (by decide)
  · exact h.setSlot k ((h.slot k).setRt rfl rfl)

theorem StateWf.agentStep {s t : State} (h : StateWf s) {a : Agent} (ha : a ≠ .hostCmd)
    (hstep : agentStep a s = .next t) : StateWf t := by
  cases a with
  | hostCmd => exact absurd rfl ha
  | hostSrc => cases hstep; exact h.hostSrc
  | hostSnk => cases hstep; exact h.hostSnk
  | hostIo => cases hstep; exact h.hostIo
  | stage k => exact h.stageStep hstep
  | sched => cases hstep; exact h.schedHalt

/-- Settles O55: by the three kinds of step. -/
theorem stepKeepsStateWf : Obligations.StepKeepsStateWf := by
  intro s t h hstep
  rcases step_cases hstep with ⟨i, u, -, hu, hok, rfl⟩ | hsame | ⟨a, ha, hagent⟩
  · exact (h.same hu).effect hok
  · exact h.same hsame
  · exact (h.same (sameRegisters_advancePlan s)).agentStep ha hagent

end Sys2Proof.Machine
end

section
/-! PROOFS. The invariant of the running pipeline (10_state.md R45). `START` and `COMMIT` establish it from what validation
checks; every other step keeps the configuration, the derived registers and the active vectors, so that only the loop
state and `DONE` are left to look at. In these states no invocation is stuck. -/

namespace Sys2Proof.Machine

open NUM

/-! ### Steps that keep the pipeline's structure -/

theorem StrValid.of_eq {N : NumRecord} {p : Params} {x y : Slot} (h : StrValid N p x) (hcfg : y.cfg = x.cfg)
    (hdv : y.dv = x.dv) : StrValid N p y := by
  obtain ⟨c, taps, itb, dv, rt⟩ := x
  subst hcfg hdv
  exact { h with }

theorem LoopOk.of_eq {N : NumRecord} {x y : Slot} (h : LoopOk N x) (hrt : y.rt = x.rt) : LoopOk N y := by
  obtain ⟨c, taps, itb, dv, rt⟩ := x
  subst hrt
  exact { h with }

/-- What LivePipeline looks at beside the runtime state. -/
structure SamePipeline (s t : State) : Prop where
  par : t.par = s.par
  nstg : t.nstg = s.nstg
  actv : t.actv = s.actv
  cfg : ∀ k, (t.slot k).cfg = (s.slot k).cfg
  dv : ∀ k, (t.slot k).dv = (s.slot k).dv
  vector : ∀ k, (t.slot k).taps.vector (t.slot k).taps.act = (s.slot k).taps.vector (s.slot k).taps.act
  cplx : ∀ e, (t.ring e).cplx = (s.ring e).cplx

theorem DataStep.samePipeline {s t : State} (h : DataStep s t) : SamePipeline s t :=
  ⟨h.par, h.nstg, h.actv, h.cfg, h.dv, fun k => by rw [h.taps], h.cplx⟩

/-- Typed edges are read off the configuration and the types of the rings. -/
theorem EdgesTyped.of_same {s t : State} (h : EdgesTyped s) (e : SamePipeline s t) : EdgesTyped t where
  some := by rw [e.nstg]; exact h.some
  staged k hk := by rw [e.cfg]; exact h.staged k (e.nstg ▸ hk)
  first := by rw [e.cplx, inCplx_of_cfg (e.cfg 0)]; exact h.first
  edge k hk := by rw [e.cplx, outCplx_of_cfg (e.cfg k)]; exact h.edge k (e.nstg ▸ hk)
  joint k hk := by rw [outCplx_of_cfg (e.cfg k), inCplx_of_cfg (e.cfg (k + 1))]; exact h.joint k (e.nstg ▸ hk)

/-- A step that keeps the structure keeps the invariant where it keeps the loop states and the order of `DONE`. -/
theorem LivePipeline.of_same {s t : State} (h : LivePipeline s) (e : SamePipeline s t)
    (hloop : ∀ k < s.nstg, (s.slot k).cfg.kind = .str → LoopOk s.par.record (t.slot k))
    (hdone : ∀ k, k + 1 < s.nstg → (t.slot (k + 1)).rt.done = true → (t.slot k).rt.done = true) : LivePipeline t where
  edges := h.edges.of_same e
  str k hk hkind := by
    rw [e.nstg] at hk
    rw [e.cfg] at hkind
    rw [e.par]
    exact ⟨(h.str k hk hkind).1.of_eq (e.cfg k) (e.dv k), hloop k hk hkind⟩
  gain k hk hkind := by
    rw [e.par, e.actv]
    exact h.gain k (e.nstg ▸ hk) (e.cfg k ▸ hkind)
  rates k hk hkind := by
    rw [e.cfg] at hkind ⊢
    exact h.rates k (e.nstg ▸ hk) hkind
  tunables k hk := by
    rw [e.par, e.actv, e.cfg]
    exact h.tunables k (e.nstg ▸ hk)
  taps k hk hkind := by
    rw [e.par, e.vector]
    exact h.taps k (e.nstg ▸ hk) (e.cfg k ▸ hkind)
  doneInOrder k hk := hdone k (e.nstg ▸ hk)

/-- Where no runtime state changes, nothing else is left to look at. -/
theorem LivePipeline.of_same_rt {s t : State} (h : LivePipeline s) (e : SamePipeline s t)
    (hrt : ∀ k, (t.slot k).rt = (s.slot k).rt) : LivePipeline t := by
  refine h.of_same e (fun k hk hkind => (h.str k hk hkind).2.of_eq (hrt k)) fun k hk => ?_
  rw [hrt, hrt]
  exact h.doneInOrder k hk

theorem LivePipeline.same {s t : State} (h : LivePipeline s) (e : SameRegisters s t) : LivePipeline t :=
  h.of_same_rt e.dataStep.samePipeline fun k => by rw [e.slot]

/-! ### `START` and `COMMIT` -/

theorem deriveSlot_dv_adopt (N : NumRecord) (t : Tunables) (x : Slot) (u : TapMem) :
    (deriveSlot N t { x with taps := u }).dv = (deriveSlot N t x).dv := by
  unfold deriveSlot
  dsimp only
  split <;> rfl

/-- What `START` and `COMMIT` leave in the first `n` slots: the pending configuration is adopted and the derived
registers are computed from it (40_commands.md R127, R128). -/
structure Adopted (s t : State) (n : Nat) : Prop where
  par : t.par = s.par
  nstg : t.nstg = n
  actv : t.actv = s.pend
  cfg : ∀ k, (t.slot k).cfg = (s.slot k).cfg
  taps : ∀ k, (t.slot k).taps = (s.slot k).taps.adopt
  dv : ∀ k < n, (t.slot k).dv = (deriveSlot s.par.record s.pend (s.slot k)).dv

theorem adopted_committed {s : State} (h : s.nstg ≤ s.slots.length) : Adopted s s.adopt.derive s.nstg where
  par := rfl
  nstg := rfl
  actv := rfl
  cfg := committed_cfg s
  taps k := by rw [committed_slot]; split <;> simp
  dv k hk := by rw [committed_slot, if_pos ⟨hk, by omega⟩, deriveSlot_dv_adopt]

theorem adopted_started {s : State} {n : Nat} (h : n ≤ s.slots.length) : Adopted s (s.started n) n where
  par := rfl
  nstg := rfl
  actv := rfl
  cfg := started_cfg s n
  taps k := by rw [started_slot]; split <;> simp
  dv k hk := by rw [started_slot, if_pos ⟨hk, by omega⟩, startSlot_dv, deriveSlot_dv_adopt]

/-- What a candidate that passes validation is like, slot by slot (60_exceptions.md R305). -/
theorem validate_noFault_slot {s : State} {n : Nat} {z : BitVec 4} (hn : n ≤ s.slots.length)
    (h : validate s.par s.pend s.slots n = (.noFault, z)) :
    1 ≤ n ∧ (∀ k, k + 1 < n → (s.slot k).outCplx = (s.slot (k + 1)).inCplx) ∧
      ∀ k < n, ∀ c ∈ slotChecks s.par s.pend (s.slot k), c.1 = true := by
  obtain ⟨hn0, -, hjoint, hchecks⟩ := validate_noFault h
  have hlen : (s.slots.take n).length = n := by rw [List.length_take, Nat.min_eq_left hn]
  have hget : ∀ k (hk : k < n), s.slot k = (s.slots.take n)[k] := fun k hk => by
    rw [slot_getElem s (by omega), List.getElem_take]
  refine ⟨by omega, fun k hk => ?_, fun k hk => ?_⟩
  · rw [hget k (by omega), hget (k + 1) hk]
    exact hjoint k (by omega)
  · rw [hget k hk]
    exact hchecks _ (List.getElem_mem _)

/-- A filter slot whose checks hold has positive rate factors (60_exceptions.md R305 check (a)). -/
theorem checked_rates {p : Params} {t : Tunables} {x : Slot} (h : ∀ c ∈ slotChecks p t x, c.1 = true)
    (hk : x.cfg.kind = .fir ∨ x.cfg.kind = .rsp) : 1 ≤ x.cfg.l.toNat ∧ 1 ≤ x.cfg.m.toNat := by
  unfold slotChecks at h
  rcases hk with hk | hk <;> rw [hk] at h <;>
    simp only [checkFir, checkRsp, List.forall_mem_cons, Bool.and_eq_true, decide_eq_true_eq] at h
  · exact h.1.1
  · exact h.1

/-- A candidate that passes validation makes a live pipeline, given typed rings and good runtime state. -/
theorem livePipeline_of_validated {s t : State} {n : Nat} {z : BitVec 4} (hN : s.par.record = binary64) (hp : s.par.Ok)
    (hn : n ≤ s.slots.length) (hv : validate s.par s.pend s.slots n = (.noFault, z)) (ha : Adopted s t n)
    (hstaged : ∀ k < n, (s.slot k).cfg.kind ≠ .none) (hfirst : (t.ring 0).cplx = (s.slot 0).inCplx)
    (hedge : ∀ k < n, (t.ring (k + 1)).cplx = (s.slot k).outCplx)
    (hloop : ∀ k < n, (s.slot k).cfg.kind = .str → LoopOk binary64 (t.slot k))
    (hdone : ∀ k, k + 1 < n → (t.slot (k + 1)).rt.done = true → (t.slot k).rt.done = true) : LivePipeline t := by
  obtain ⟨hn1, hjoint, hchecks⟩ := validate_noFault_slot hn hv
  have hNt : t.par.record = binary64 := by rw [ha.par, hN]
  obtain rfl := ha.nstg
  refine ⟨⟨hn1, ?_, ?_, ?_, ?_⟩, ?_, ?_, ?_, ?_, ?_, hdone⟩
  · intro k hk
    rw [ha.cfg]
    exact hstaged k hk
  · rw [inCplx_of_cfg (ha.cfg 0)]
    exact hfirst
  · intro k hk
    rw [outCplx_of_cfg (ha.cfg k)]
    exact hedge k hk
  · intro k hk
    rw [outCplx_of_cfg (ha.cfg k), inCplx_of_cfg (ha.cfg (k + 1))]
    exact hjoint k hk
  · intro k hk hkind
    rw [ha.cfg] at hkind
    rw [hNt, ha.par]
    refine ⟨(strValid_derived hN hp hkind (hchecks k hk)).1.of_eq ?_ ?_, hloop k hk hkind⟩
    · rw [ha.cfg, deriveSlot_cfg]
    · rw [ha.dv k hk, hN]
  · intro k hk hkind
    rw [ha.cfg] at hkind
    rw [hNt, ha.actv]
    exact (strValid_derived hN hp hkind (hchecks k hk)).2.1
  · intro k hk hkind
    rw [ha.cfg] at hkind ⊢
    exact checked_rates (hchecks k hk) hkind
  · intro k hk
    rw [ha.par, ha.actv, ha.cfg]
    exact tunablesRead_finite (hchecks k hk)
  · intro k hk hkind
    rw [ha.cfg] at hkind
    rw [ha.par, ha.taps]
    exact adopted_taps_finite (hchecks k hk) hkind

/-- A started timing recovery slot has its loop at the start values (45_str.md R254). -/
theorem loopOk_startSlot {p : Params} {x : Slot} (hk : x.cfg.kind = .str) (hcb : x.dv.cb.toNat < x.dv.w.toNat) :
    LoopOk binary64 (startSlot p x) := by
  have hskip : (startSlot p x).rt.skip = BitVec.ofNat 32 (x.dv.w.toNat - x.dv.cb.toNat) := by simp [startSlot, hk]
  have hmu : (startSlot p x).rt.mu = posZero := by simp [startSlot, hk]
  have hinteg : (startSlot p x).rt.integ = posZero := by simp [startSlot, hk]
  refine ⟨?_, ?_, ?_, ?_, ?_⟩
  · rw [hmu]; decide
  · rw [hmu]; decide
  · rw [hmu]; decide
  · rw [hinteg]; decide
  · have hw := x.dv.w.isLt
    rw [hskip, BitVec.toNat_ofNat]
    omega

theorem startSlot_done (p : Params) (x : Slot) : (startSlot p x).rt.done = false := by
  unfold startSlot
  dsimp only
  split <;> rfl

theorem livePipeline_started {s : State} {z : BitVec 4} (hN : s.par.record = binary64) (h : StateWf s)
    (hv : validate s.par s.pend s.slots (leading s.slots) = (.noFault, z)) : LivePipeline (s.started (leading s.slots)) := by
  have hn := leading_le s.slots
  obtain ⟨hn1, -, hchecks⟩ := validate_noFault_slot hn hv
  have hring : ∀ e ≤ leading s.slots, e < s.rings.length := fun e he => by
    rw [h.ringCount, ← h.slotCount]
    omega
  have hslot : ∀ k, k < leading s.slots → (s.started (leading s.slots)).slot k = startSlot s.par
      (deriveSlot s.par.record s.pend { s.slot k with taps := (s.slot k).taps.adopt }) := fun k hk => by
    rw [started_slot, if_pos ⟨hk, by omega⟩]
  refine livePipeline_of_validated hN h.par hn hv (adopted_started hn) ?_ ?_ ?_ ?_ ?_
  · intro k hk
    rw [slot_getElem s (by omega)]
    exact leading_kind s.slots k hk
  · exact (started_ring s _ 0 (hring 0 (by omega)) hn hn1).2.1 rfl
  · intro k hk
    exact (started_ring s _ (k + 1) (hring _ hk) hn hn1).2.2 k rfl hk
  · intro k hk hkind
    rw [hslot k hk]
    refine loopOk_startSlot (by rw [deriveSlot_cfg]; exact hkind) ?_
    rw [deriveSlot_dv_adopt, hN]
    exact (strValid_derived hN h.par hkind (hchecks k hk)).2.2.2
  · intro k hk hdone
    rw [hslot (k + 1) hk, startSlot_done] at hdone
    cases hdone

theorem committed_rt (s : State) (k : Nat) : (s.adopt.derive.slot k).rt = (s.slot k).rt := by
  rw [committed_slot]
  split <;> simp

theorem livePipeline_committed {s : State} {z : BitVec 4} (hN : s.par.record = binary64) (h : StateWf s)
    (hl : LivePipeline s) (hv : validate s.par s.pend s.slots s.nstg = (.noFault, z)) : LivePipeline s.adopt.derive := by
  have hn : s.nstg ≤ s.slots.length := h.slotCount ▸ h.stages
  refine livePipeline_of_validated hN h.par hn hv (adopted_committed hn) hl.edges.staged hl.edges.first hl.edges.edge ?_ ?_
  · intro k hk hkind
    exact hN ▸ (hl.str k hk hkind).2.of_eq (committed_rt s k)
  · intro k hk
    rw [committed_rt, committed_rt]
    exact hl.doneInOrder k hk

theorem rejectConfig_not_live (s : State) (c : FaultCode) (k : BitVec 4) : (s.rejectConfig c k).live = false := by
  simp [State.live, State.rejectConfig]

/-! ### Accepted commands -/

/-- An accepted command that leaves a running pipeline leaves it with the invariant. -/
theorem livePipeline_effect {s : State} {i : Instr} (hN : s.par.record = binary64) (h : StateWf s)
    (hl : s.live = true → LivePipeline s) (hok : refusal s i = none) (ht : (effect i s).live = true) :
    LivePipeline (effect i s) := by
  obtain ⟨-, hlegal, -, -⟩ := (accepted_iff s i).mp hok
  cases effect_cases i s with
  | quiet he => exact (hl (he.live ▸ ht)).same he
  | stop hi =>
    subst hi
    have hs : s.live = true := by
      by_cases hlc : s.lc = .running
      · simp [State.live, hlc]
      · simpa [effect, stopEffect, State.live, hlc] using ht
    refine (hl hs).of_same_rt (dataStep_stopEffect s).samePipeline fun k => ?_
    simp only [effect, stopEffect, respond_slot]
    split <;> rfl
  | reset hi => subst hi; cases ht
  | start hi =>
    subst hi
    simp only [effect, startEffect] at ht ⊢
    split at ht
    · rename_i z hv
      exact (livePipeline_started hN h hv).same (sameRegisters_respond ..)
    · rw [rejectConfig_not_live] at ht
      cases ht
  | commit hi =>
    subst hi
    have hs : s.live = true := by simpa [State.live, legalIn] using hlegal
    simp only [effect, commitEffect] at ht ⊢
    split at ht
    · rename_i z hv
      exact (livePipeline_committed hN h (hl hs) hv).same (sameRegisters_respond ..)
    · rw [rejectConfig_not_live] at ht
      cases ht
  | pending v t hi he =>
    rw [he] at ht ⊢
    exact (hl ht).of_same_rt ⟨rfl, rfl, rfl, fun _ => rfl, fun _ => rfl, fun _ => rfl, fun _ => rfl⟩ fun _ => rfl
  | configured k c hi hcfg he =>
    rw [hcfg, decide_eq_true_eq] at hlegal
    rw [he] at ht
    rcases hlegal with hlc | hlc <;> simp [State.live, configure, hlc] at ht
  | taps k vs hi =>
    subst hi
    have hslot : ∀ j, ((effect (.ldtap k vs) s).slot j) = s.slot j ∨ (j = k.toNat ∧ (effect (.ldtap k vs) s).slot j =
        { s.slot j with taps := (s.slot j).taps.load (!(s.slot j).taps.act) vs }) := by
      intro j
      simp only [effect, loadTapsEffect, respond_slot, setSlot_slot]
      split
      · rename_i hj
        rw [hj.1]
        exact .inr ⟨rfl, rfl⟩
      · exact .inl rfl
    refine (hl ht).of_same_rt ⟨rfl, rfl, rfl, ?_, ?_, ?_, fun _ => rfl⟩ ?_ <;> intro j <;>
      rcases hslot j with hj | ⟨-, hj⟩ <;> rw [hj]
    exact load_pending_vector _ vs
  | row k r cs hi =>
    subst hi
    rw [legalIn, decide_eq_true_eq] at hlegal
    rcases hlegal with hlc | hlc <;> simp [State.live, effect, loadRowEffect, hlc] at ht

/-! ### The agents beside the command port -/

/-- No step of the data path starts the pipeline, and only the stages write slots. -/
theorem dataPath_lc_slots {a : Agent} {s t : State} (ha : a ≠ .hostCmd) (h : agentStep a s = .next t) :
    (t.lc = s.lc ∨ t.lc = .faulted ∨ t.lc = .halted) ∧ ((∀ k, a ≠ .stage k) → t.slots = s.slots) := by
  cases a with
  | hostCmd => exact absurd rfl ha
  | hostSrc =>
    cases h
    rcases hostSrc_cases s with e | ⟨x, rest, -, -, -, ⟨-, e⟩ | ⟨-, e⟩⟩ <;> simp [e]
  | hostSnk =>
    cases h
    rcases hostSnk_cases s with e | ⟨v, q, -, -, -, ⟨-, e⟩ | ⟨-, e⟩⟩ <;> simp [e]
  | hostIo =>
    cases h
    rcases hostIo_cases s with ⟨-, e⟩ | ⟨-, e⟩ <;> simp [e]
  | stage k =>
    refine ⟨?_, fun hk => absurd rfl (hk k)⟩
    rcases stageStep_cases h with rfl | ⟨-, out, rt, -, rfl⟩ | ⟨-, -, rfl⟩ | ⟨-, rfl⟩ <;> simp [doneStep]
  | sched =>
    cases h
    rcases schedHalt_cases s with ⟨-, -, -, e⟩ | e <;> simp [e]

theorem live_of_dataPath {a : Agent} {s t : State} (ha : a ≠ .hostCmd) (h : agentStep a s = .next t)
    (ht : t.live = true) : s.live = true := by
  rw [live_iff] at ht ⊢
  rcases (dataPath_lc_slots ha h).1 with e | e | e <;> rw [e] at ht
  · exact ht
  · simp at ht
  · simp at ht

/-- A timing recovery stage of a live pipeline, with the default record. -/
theorem LivePipeline.strSlot {s : State} (hl : LivePipeline s) (hN : s.par.record = binary64) {k : Nat} (hk : k < s.nstg)
    (hkind : (s.slot k).cfg.kind = .str) :
    StrValid binary64 s.par (s.slot k) ∧ LoopOk binary64 (s.slot k) ∧ finite s.actv.lg = true := by
  obtain ⟨hv, hloop⟩ := hl.str k hk hkind
  have hg := hl.gain k hk hkind
  rw [hN] at hv hloop hg
  rw [nonnegative, Bool.and_eq_true] at hg
  exact ⟨hv, hloop, hg.1⟩

/-- An invocation of a stage of a live pipeline leaves its loop state good. -/
theorem loopOk_invocation {s : State} {k : Nat} {xs out : List Sample} {rt : Runtime} (hN : s.par.record = binary64)
    (h : StateWf s) (hl : LivePipeline s) (hk : k < s.nstg) (hkind : (s.slot k).cfg.kind = .str)
    (hinv : invoke s (s.slot k) xs = .emit out rt) : LoopOk binary64 { s.slot k with rt := rt } := by
  obtain ⟨hv, hloop, hg⟩ := hl.strSlot hN hk hkind
  rw [invoke, hkind] at hinv
  obtain ⟨top, htop⟩ := floor_isSome hv.pmaxFinite
  exact LoopWithin.loopOk (dv := (s.slot k).dv) (invokeStr_emit_within hN h.par hv hloop hg htop hinv)

/-- A write of one slot's runtime state keeps the invariant where the new loop state is good and `DONE` stays in order. -/
theorem LivePipeline.of_setRt {s t : State} (hl : LivePipeline s) (hd : DataStep s t) {k : Nat} {rt : Runtime}
    (hslots : t.slots = s.slots.set k { s.slot k with rt := rt })
    (hloop : (s.slot k).cfg.kind = .str → LoopOk s.par.record { s.slot k with rt := rt })
    (hdone : rt.done = (s.slot k).rt.done ∨ rt.done = true ∧ (k = 0 ∨ (s.slot (k - 1)).rt.done = true)) :
    LivePipeline t := by
  have hslot : ∀ j, t.slot j = if j = k ∧ k < s.slots.length then { s.slot k with rt := rt } else s.slot j := by
    intro j
    rw [← setSlot_slot, State.slot, State.slot, hslots, hd.par]
    rfl
  refine hl.of_same hd.samePipeline (fun j hj hkind => ?_) fun j hj => ?_
  · rw [hslot]
    split
    · rename_i hjk
      exact hloop (hjk.1 ▸ hkind)
    · exact (hl.str j hj hkind).2
  · have horder := hl.doneInOrder j hj
    rw [hslot, hslot]
    by_cases h1 : j + 1 = k ∧ k < s.slots.length
    · rw [if_pos h1, if_neg (by omega)]
      obtain ⟨rfl, -⟩ := h1
      rcases hdone with e | ⟨-, e | e⟩
      · dsimp only
        rw [e]
        exact horder
      · omega
      · exact fun _ => e
    · rw [if_neg h1]
      by_cases h2 : j = k ∧ k < s.slots.length
      · rw [if_pos h2]
        obtain ⟨rfl, -⟩ := h2
        rcases hdone with e | ⟨e, -⟩
        · dsimp only
          rw [e]
          exact horder
        · exact fun _ => e
      · rw [if_neg h2]
        exact horder

theorem livePipeline_stageStep {s t : State} {k : Nat} (hN : s.par.record = binary64) (h : StateWf s)
    (hl : LivePipeline s) (hstep : stageStep s k = .next t) (ht : t.live = true) : LivePipeline t := by
  have hd := dataStep_stageStep hstep
  rcases stageStep_cases hstep with rfl | ⟨hready, out, rt, hinv, rfl⟩ | ⟨-, -, rfl⟩ | ⟨hready, rfl⟩
  · exact hl
  · obtain ⟨hstage, hneed, -⟩ := (invokeReady_iff s k).mp hready
    obtain ⟨hk, -, -, -⟩ := (stageLive_iff s k).mp hstage
    have hsizes := invoke_emit_sizes (h.slot k) (front_length hneed) hinv
    exact hl.of_setRt hd (k := k) (rt := rt) (by simp) (fun hkind => hN ▸ loopOk_invocation hN h hl hk hkind hinv)
      (.inl hsizes.done)
  · simp [State.live] at ht
  · obtain ⟨hstage, -, hpred, -⟩ := (doneReady_iff s k).mp hready
    obtain ⟨hk, -, -, -⟩ := (stageLive_iff s k).mp hstage
    exact hl.of_setRt hd (k := k) (rt := { (s.slot k).rt with done := true }) (by simp [doneStep])
      (fun hkind => { (hl.str k hk hkind).2 with }) (.inr ⟨rfl, hpred⟩)

theorem livePipeline_agentStep {a : Agent} {s t : State} (hN : s.par.record = binary64) (h : StateWf s)
    (hl : s.live = true → LivePipeline s) (ha : a ≠ .hostCmd) (hstep : agentStep a s = .next t) (ht : t.live = true) :
    LivePipeline t := by
  have hlive := hl (live_of_dataPath ha hstep ht)
  by_cases hk : ∃ k, a = .stage k
  · obtain ⟨k, rfl⟩ := hk
    exact livePipeline_stageStep hN h hlive hstep ht
  · have hd := dataStep_agentStep ha hstep
    refine hlive.of_same_rt hd.samePipeline fun k => ?_
    rw [State.slot, State.slot, (dataPath_lc_slots ha hstep).2 fun k e => hk ⟨k, e⟩, hd.par]

/-- Settles O56: by the three kinds of step. -/
theorem stepKeepsLivePipeline : Obligations.StepKeepsLivePipeline := by
  intro s t hnum h hl hstep ht
  have hN : s.par.record = binary64 := record_eq hnum
  have hsame : ∀ {u}, SameRegisters s u → u.live = true → LivePipeline u := fun hu hul =>
    (hl (hu.live ▸ hul)).same hu
  rcases step_cases hstep with ⟨i, u, -, hu, hok, rfl⟩ | hst | ⟨a, ha, hagent⟩
  · exact livePipeline_effect (hu.par ▸ hN) (h.same hu) (hsame hu) hok ht
  · exact hsame hst ht
  · have hadv := sameRegisters_advancePlan s
    exact livePipeline_agentStep (hadv.par ▸ hN) (h.same hadv) (hsame hadv) ha hagent ht

/-! ### No stop -/

theorem pfir_not_stuck {p : Params} {x : Slot} (hw : SlotWf p x) (xs : List Sample) (r : Fault) :
    pfir p x xs ≠ .stuck r := by
  unfold pfir
  rw [if_neg (not_lt.mpr (hw.count_le _))]
  split <;> exact Invoked.noConfusion

theorem invokeSql_not_stuck (N : NumRecord) (x : Slot) (v : Sample) (r : Fault) : invokeSql N x v ≠ .stuck r := by
  unfold invokeSql
  dsimp only
  split <;> exact Invoked.noConfusion

theorem invokeFmd_not_stuck (N : NumRecord) (x : Slot) (v : Sample) (r : Fault) : invokeFmd N x v ≠ .stuck r := by
  unfold invokeFmd
  dsimp only
  split <;> exact Invoked.noConfusion

/-- No stage of a live pipeline reaches a stop (log 12). -/
theorem invoke_not_stuck {s : State} {k : Nat} (hN : s.par.record = binary64) (h : StateWf s) (hl : LivePipeline s)
    (hk : k < s.nstg) (xs : List Sample) (r : Fault) : invoke s (s.slot k) xs ≠ .stuck r := by
  unfold invoke
  cases hkind : (s.slot k).cfg.kind <;> dsimp only
  case none => exact Invoked.noConfusion
  case sql => exact invokeSql_not_stuck _ _ _ r
  case fmd => exact invokeFmd_not_stuck _ _ _ r
  case fir => exact pfir_not_stuck (h.slot k) xs r
  case rsp => exact pfir_not_stuck (h.slot k) xs r
  case str =>
    obtain ⟨hv, hloop, hg⟩ := hl.strSlot hN hk hkind
    exact invokeStr_not_stuck s.par hN s.actv.lg _ xs h.par hv hloop hg r

theorem stageStep_next {s : State} (hN : s.par.record = binary64) (h : StateWf s)
    (hl : s.live = true → LivePipeline s) (k : Nat) : ∃ t, stageStep s k = .next t := by
  unfold stageStep
  split
  · rename_i hready
    obtain ⟨hk, -, hlc, -⟩ := (stageLive_iff s k).mp ((invokeReady_iff s k).mp hready).1
    have hns := invoke_not_stuck hN h (hl ((live_iff s).mpr hlc)) hk (s.front k (s.slot k).need)
    unfold invokeStep
    dsimp only
    split
    · exact ⟨_, rfl⟩
    · exact ⟨_, rfl⟩
    · rename_i r hr
      exact absurd hr (hns r)
  · split <;> exact ⟨_, rfl⟩

theorem hostCmd_next (s : State) : ∃ t, hostCmd s = .next t := by
  unfold hostCmd
  split
  · exact exec_next _ _
  all_goals exact ⟨_, rfl⟩

/-- Settles O58: only a stage's invocation can stop the machine, and none is stuck. -/
theorem machineNeverStops : Obligations.MachineNeverStops := by
  intro s hnum h hl
  have hadv := sameRegisters_advancePlan s
  unfold step
  cases s.nextAgent with
  | hostCmd => exact hostCmd_next _
  | hostSrc => exact ⟨_, rfl⟩
  | hostSnk => exact ⟨_, rfl⟩
  | hostIo => exact ⟨_, rfl⟩
  | stage k =>
    exact stageStep_next (by rw [hadv.par]; exact record_eq hnum) (h.same hadv)
      (fun hlive => (hl (hadv.live ▸ hlive)).same hadv) k
  | sched => exact ⟨_, rfl⟩

end Sys2Proof.Machine
end

section
/-! PROOFS. The control registers (10_state.md R30 to R33). A register word is a sum of shifted fields; where no two fields
share a bit, no carry passes between them, so each bit of the word is a bit of one field. -/

namespace Sys2Proof.Machine

/-! ### Register words -/

/-- Bit `i` of a register word that holds nothing but the field `f`. -/
def fieldBit (f : Nat × Nat × Nat) (i : Nat) : Bool :=
  decide (f.1 ≤ i) && (decide (i - f.1 < f.2.1) && f.2.2.testBit (i - f.1))

/-- The two fields share no bit. -/
def Apart (f g : Nat × Nat × Nat) : Prop := f.1 + f.2.1 ≤ g.1 ∨ g.1 + g.2.1 ≤ f.1

theorem covers_of_fieldBit {f : Nat × Nat × Nat} {i : Nat} (h : fieldBit f i = true) : f.1 ≤ i ∧ i < f.1 + f.2.1 := by
  simp only [fieldBit, Bool.and_eq_true, decide_eq_true_eq] at h
  omega

theorem foldl_fields (fs : List (Nat × Nat × Nat)) (a : Nat) :
    fs.foldl (fun acc f => acc + f.2.2 % 2 ^ f.2.1 * 2 ^ f.1) a =
      a + fs.foldl (fun acc f => acc + f.2.2 % 2 ^ f.2.1 * 2 ^ f.1) 0 := by
  induction fs generalizing a with
  | nil => rfl
  | cons f fs ih =>
    rw [List.foldl_cons, List.foldl_cons, ih, ih (0 + _), Nat.zero_add, Nat.add_assoc]

theorem regWord_cons (f : Nat × Nat × Nat) (fs : List (Nat × Nat × Nat)) :
    regWord (f :: fs) = regWord [f] + regWord fs := by
  simp only [regWord, List.foldl_cons, List.foldl_nil]
  rw [foldl_fields, BitVec.ofNat_add]

theorem getLsbD_regWord_single (f : Nat × Nat × Nat) {i : Nat} (hi : i < 64) : (regWord [f]).getLsbD i = fieldBit f i := by
  rw [regWord, List.foldl_cons, List.foldl_nil, Nat.zero_add, BitVec.getLsbD_ofNat, decide_eq_true hi, Bool.true_and,
    Nat.testBit_mul_two_pow, Nat.testBit_mod_two_pow, fieldBit]

/-- A register word bit by bit. -/
theorem getLsbD_regWord {fs : List (Nat × Nat × Nat)} (hd : fs.Pairwise Apart) {i : Nat} (hi : i < 64) :
    (regWord fs).getLsbD i = fs.any (fieldBit · i) := by
  induction fs generalizing i with
  | nil => simp [regWord]
  | cons f fs ih =>
    obtain ⟨hf, hfs⟩ := List.pairwise_cons.mp hd
    have hand : regWord [f] &&& regWord fs = 0#64 := by
      refine BitVec.eq_of_getLsbD_eq fun j hj => ?_
      rw [BitVec.getLsbD_and, getLsbD_regWord_single f hj, ih hfs hj, BitVec.getLsbD_zero, Bool.and_eq_false_iff,
        or_iff_not_imp_left, Bool.not_eq_false, List.any_eq_false]
      intro hfj g hg hgj
      have := covers_of_fieldBit hfj
      have := covers_of_fieldBit hgj
      have := hf g hg
      unfold Apart at this
      omega
    rw [regWord_cons, BitVec.add_eq_or_of_and_eq_zero _ _ hand, BitVec.getLsbD_or, getLsbD_regWord_single f hi, ih hfs hi,
      List.any_cons]

theorem apart_of_mem {fs : List (Nat × Nat × Nat)} (hd : fs.Pairwise Apart) {f g : Nat × Nat × Nat} (hf : f ∈ fs)
    (hg : g ∈ fs) (hne : f ≠ g) : Apart f g :=
  haveI : Std.Symm Apart := ⟨fun _ _ h => h.symm⟩
  hd.forall hf hg hne

/-- A bit inside a field is that field's. -/
theorem getLsbD_regWord_mem {fs : List (Nat × Nat × Nat)} {lo w n i : Nat} (hd : fs.Pairwise Apart)
    (hf : (lo, w, n) ∈ fs) (hi : i < w) (h64 : lo + w ≤ 64) : (regWord fs).getLsbD (lo + i) = n.testBit i := by
  have hown : fieldBit (lo, w, n) (lo + i) = n.testBit i := by simp [fieldBit, hi]
  rw [getLsbD_regWord hd (by omega), Bool.eq_iff_iff, List.any_eq_true]
  refine ⟨fun ⟨g, hg, hgi⟩ => ?_, fun hn => ⟨_, hf, hown.trans hn⟩⟩
  by_cases hne : g = (lo, w, n)
  · rw [← hown, ← hne]
    exact hgi
  · have hapart := apart_of_mem hd hg hf hne
    have hcov := covers_of_fieldBit hgi
    simp only [Apart] at hapart
    omega

/-- A bit outside every field is 0. -/
theorem getLsbD_regWord_outside {fs : List (Nat × Nat × Nat)} {i : Nat} (hd : fs.Pairwise Apart)
    (hout : ∀ f ∈ fs, i < f.1 ∨ f.1 + f.2.1 ≤ i) : (regWord fs).getLsbD i = false := by
  rcases Nat.lt_or_ge i 64 with hi | hi
  · rw [getLsbD_regWord hd hi, List.any_eq_false]
    intro f hf hfi
    have := covers_of_fieldBit hfi
    have := hout f hf
    omega
  · exact BitVec.getLsbD_of_ge _ _ hi

/-- A field reads the number it holds. -/
theorem field_regWord {fs : List (Nat × Nat × Nat)} {lo w n : Nat} (hd : fs.Pairwise Apart) (hf : (lo, w, n) ∈ fs)
    (hn : n < 2 ^ w) (h64 : lo + w ≤ 64) : field (regWord fs) lo w = n := by
  have hbits : (regWord fs).extractLsb' lo w = BitVec.ofNat w n := by
    refine BitVec.eq_of_getLsbD_eq fun i hi => ?_
    rw [BitVec.getLsbD_extractLsb', BitVec.getLsbD_ofNat, getLsbD_regWord_mem hd hf hi h64]
  rw [field, hbits, BitVec.toNat_ofNat, Nat.mod_eq_of_lt hn]

/-- A field outside every field of the word reads 0. -/
theorem field_regWord_outside {fs : List (Nat × Nat × Nat)} {lo w : Nat} (hd : fs.Pairwise Apart)
    (hout : ∀ f ∈ fs, lo + w ≤ f.1 ∨ f.1 + f.2.1 ≤ lo) : field (regWord fs) lo w = 0 := by
  have hbits : (regWord fs).extractLsb' lo w = 0#w := by
    refine BitVec.eq_of_getLsbD_eq fun i hi => ?_
    rw [BitVec.getLsbD_extractLsb', BitVec.getLsbD_zero, getLsbD_regWord_outside hd fun f hf => ?_, Bool.and_false]
    have := hout f hf
    omega
  rw [field, hbits, BitVec.toNat_zero]

theorem testBit_bit (b : Bool) : (bit b).testBit 0 = b := by cases b <;> rfl

/-- A one-bit field reads the flag it holds. -/
theorem getLsbD_regWord_bit {fs : List (Nat × Nat × Nat)} {lo : Nat} {b : Bool} (hd : fs.Pairwise Apart)
    (hf : (lo, 1, bit b) ∈ fs) (h64 : lo < 64) : (regWord fs).getLsbD lo = b :=
  (getLsbD_regWord_mem hd hf Nat.one_pos h64).trans (testBit_bit b)

/-! ### Which numbers are registers -/

theorem slotCsr_isSome (x : Slot) (sub : Nat) : (slotCsr x sub).isSome = true ↔ sub < 0xF := by
  unfold slotCsr
  split
  case h_16 =>
    simp only [imp_false] at *
    rw [Option.isSome_none]
    simp only [Bool.false_eq_true, false_iff]
    omega
  all_goals simp

/-- From `0x100` on the registers are those of the slots and the rings. -/
theorem csr_of_ge {s : State} {n : BitVec 12} (h : 0x100 ≤ n.toNat) :
    s.csr n =
      if n.toNat < 0x100 + 0x10 * s.par.nslot then slotCsr (s.slot ((n.toNat - 0x100) / 0x10)) (n.toNat % 0x10)
      else if 0x200 ≤ n.toNat ∧ n.toNat ≤ 0x200 + s.par.nslot then some (s.ring (n.toNat - 0x200)).info
      else none := by
  unfold State.csr
  split
  case h_18 => simp only [h, true_and]
  all_goals omega

/-- Below `0x100` the registers are the three of the system and the fourteen tunables. -/
theorem csr_isSome_of_lt {s : State} {n : BitVec 12} (h : n.toNat < 0x100) :
    (s.csr n).isSome = true ↔ n.toNat ≤ 0x002 ∨ (0x010 ≤ n.toNat ∧ n.toNat ≤ 0x01D) := by
  unfold State.csr
  split
  case h_18 =>
    rw [if_neg (by omega), if_neg (by omega), Option.isSome_none]
    simp only [imp_false] at *
    simp only [Bool.false_eq_true, false_iff]
    omega
  all_goals
    simp only [Option.isSome_some, true_iff]
    omega

/-- Settles O25: below `0x100` by the list of numbers, from there on by the two ranges. -/
theorem registerNumbers : Obligations.RegisterNumbers := by
  intro s n hp
  have hnslot := hp.1.2
  rcases Nat.lt_or_ge n.toNat 0x100 with h | h
  · rw [csr_isSome_of_lt h]
    constructor
    · rintro (hn | hn)
      · exact .inl hn
      · exact .inr (.inl hn)
    · rintro (hn | hn | ⟨k, -, j, -, hn⟩ | ⟨e, -, hn⟩)
      · exact .inl hn
      · exact .inr hn
      · omega
      · omega
  · rw [csr_of_ge h]
    split
    · rename_i hslot
      rw [slotCsr_isSome]
      constructor
      · intro hj
        exact .inr (.inr (.inl ⟨(n.toNat - 0x100) / 0x10, by omega, n.toNat % 0x10, hj, by omega⟩))
      · rintro (hn | hn | ⟨k, hk, j, hj, hn⟩ | ⟨e, he, hn⟩) <;> omega
    · split
      · rename_i hring
        exact iff_of_true rfl (.inr (.inr (.inr ⟨n.toNat - 0x200, by omega, by omega⟩)))
      · rw [Option.isSome_none]
        refine iff_of_false Bool.false_ne_true ?_
        rintro (hn | hn | ⟨k, hk, j, hj, hn⟩ | ⟨e, he, hn⟩) <;> omega

/-! ### The registers outside the slots -/

/-- The fields of `STATUS` (10_state.md R32). -/
def statusFields (s : State) : List (Nat × Nat × Nat) :=
  [(0, 3, s.lc.code), (24, 8, s.fcode.code), (32, 4, s.fslot.toNat)] ++
    (List.range s.par.nslot).map (fun k => (8 + k, 1, bit (s.slot k).rt.done)) ++
    (List.range s.par.nslot).map (fun k => (16 + k, 1, bit (s.slot k).gateShown))

theorem status_eq (s : State) : s.status = regWord (statusFields s) := rfl

theorem mem_statusFields {s : State} {f : Nat × Nat × Nat} (h : f ∈ statusFields s) :
    f = (0, 3, s.lc.code) ∨ f = (24, 8, s.fcode.code) ∨ f = (32, 4, s.fslot.toNat) ∨
      (∃ k < s.par.nslot, f = (8 + k, 1, bit (s.slot k).rt.done)) ∨
      ∃ k < s.par.nslot, f = (16 + k, 1, bit (s.slot k).gateShown) := by
  simpa [statusFields, eq_comm, or_assoc] using h

theorem statusFields_apart {s : State} (h : s.par.nslot ≤ 8) : (statusFields s).Pairwise Apart := by
  have hflags : ∀ (lo : Nat) (g : Nat → Nat), ((List.range s.par.nslot).map fun k => (lo + k, 1, g k)).Pairwise Apart :=
    fun lo g => List.pairwise_map.mpr (List.pairwise_lt_range.imp fun hlt => .inl (by dsimp only; omega))
  refine List.pairwise_append.mpr ⟨List.pairwise_append.mpr ⟨?_, hflags 8 _, ?_⟩, hflags 16 _, ?_⟩
  · simp [Apart]
  · intro f hf g hg
    obtain ⟨k, hk, rfl⟩ := List.mem_map.mp hg
    rw [List.mem_range] at hk
    simp only [List.mem_cons, List.not_mem_nil, or_false] at hf
    rcases hf with rfl | rfl | rfl <;> simp only [Apart] <;> omega
  · intro f hf g hg
    obtain ⟨k, hk, rfl⟩ := List.mem_map.mp hg
    rw [List.mem_range] at hk
    rcases List.mem_append.mp hf with hf | hf
    · simp only [List.mem_cons, List.not_mem_nil, or_false] at hf
      rcases hf with rfl | rfl | rfl <;> simp only [Apart] <;> omega
    · obtain ⟨j, hj, rfl⟩ := List.mem_map.mp hf
      rw [List.mem_range] at hj
      simp only [Apart]
      omega

theorem lifecycle_code_lt (lc : Lifecycle) : lc.code < 2 ^ 3 := by cases lc <;> decide

theorem faultCode_code_lt (c : FaultCode) : c.code < 2 ^ 8 := by cases c <;> decide

theorem kind_code_lt (k : Kind) : k.code < 2 ^ 3 := by cases k <;> decide

/-- The bits of `STATUS` that no field covers. -/
theorem status_field_outside {s : State} (h : s.par.nslot ≤ 8) {lo w : Nat} (hlow : 3 ≤ lo)
    (hgap : lo + w ≤ 8 ∨ 36 ≤ lo) : field s.status lo w = 0 := by
  refine field_regWord_outside (statusFields_apart h) fun f hf => ?_
  rcases mem_statusFields hf with rfl | rfl | rfl | ⟨k, hk, rfl⟩ | ⟨k, hk, rfl⟩ <;> dsimp only <;> omega

/-- The flags of `STATUS` of a slot that the engine does not have. -/
theorem status_flag_outside {s : State} {k : Nat} (h : s.par.nslot ≤ k) (hk : k < 8) :
    s.status.getLsbD (8 + k) = false ∧ s.status.getLsbD (16 + k) = false := by
  have hapart := statusFields_apart (h.trans hk.le)
  constructor <;> refine getLsbD_regWord_outside hapart fun f hf => ?_ <;>
    rcases mem_statusFields hf with rfl | rfl | rfl | ⟨j, hj, rfl⟩ | ⟨j, hj, rfl⟩ <;> dsimp only <;> omega

theorem status_flags {s : State} (h : s.par.nslot ≤ 8) {k : Nat} (hk : k < s.par.nslot) :
    s.status.getLsbD (8 + k) = (s.slot k).rt.done ∧
      s.status.getLsbD (16 + k) = (decide ((s.slot k).cfg.kind = .sql) && (s.slot k).rt.gate) := by
  have hapart := statusFields_apart h
  refine ⟨getLsbD_regWord_bit hapart ?_ (by omega), getLsbD_regWord_bit hapart ?_ (by omega)⟩
  · exact List.mem_append_left _ (List.mem_append_right _ (List.mem_map.mpr ⟨k, List.mem_range.mpr hk, rfl⟩))
  · exact List.mem_append_right _ (List.mem_map.mpr ⟨k, List.mem_range.mpr hk, rfl⟩)

/-- `RINGINFO` shows the fill and the type of a ring (10_state.md R33). -/
theorem ring_info {r : Ring} (h : r.queue.length < 2 ^ 16) :
    field r.info 0 16 = r.queue.length ∧ r.info.getLsbD 16 = r.cplx ∧ field r.info 17 47 = 0 := by
  have hapart : [(0, 16, r.queue.length), (16, 1, bit r.cplx)].Pairwise Apart := by simp [Apart]
  exact ⟨field_regWord hapart (by simp) h (by decide), getLsbD_regWord_bit hapart (by simp) (by decide),
    field_regWord_outside hapart (by simp)⟩

theorem csr_ring {s : State} (hp : s.par.Ok) {e : Nat} (he : e ≤ s.par.nslot) :
    s.csr (BitVec.ofNat 12 (0x200 + e)) = some (s.ring e).info := by
  have hnslot := hp.1.2
  have hn : (BitVec.ofNat 12 (0x200 + e)).toNat = 0x200 + e := by
    rw [BitVec.toNat_ofNat]
    omega
  rw [csr_of_ge (by omega), hn, if_neg (by omega), if_pos (by omega), Nat.add_sub_cancel_left]

/-- Settles O26: the numbers by evaluation, the fields of `NSTG`, `RINGINFO` and `STATUS` by their places. -/
theorem globalRegisters : Obligations.GlobalRegisters := by
  intro s h
  have hnslot := h.par.1.2
  have hrcap := h.par.2.1.2
  have hstages := h.stages
  have hapart := statusFields_apart hnslot
  have hnstg : [(0, 4, s.nstg)].Pairwise Apart := List.pairwise_singleton ..
  refine ⟨rfl, rfl, ⟨_, rfl, field_regWord hnstg (by simp) (by omega) (by decide),
    field_regWord_outside hnstg (by simp)⟩, rfl, rfl, rfl, rfl, rfl, rfl, rfl, rfl, rfl, rfl, rfl, rfl, rfl, rfl,
    fun e he => ?_, ?_, ?_, fun k hk => status_flags hnslot hk, fun k hk hlt => status_flag_outside hlt hk, ?_, ?_, ?_⟩
  · have hring := h.ring e
    exact ⟨_, csr_ring h.par he, ring_info (by omega)⟩
  · exact field_regWord hapart (by simp) (lifecycle_code_lt _) (by decide)
  · exact status_field_outside hnslot (by decide) (by decide)
  · exact field_regWord hapart (by simp) (faultCode_code_lt _) (by decide)
  · exact field_regWord hapart (by simp) s.fslot.isLt (by decide)
  · exact status_field_outside hnslot (by decide) (by decide)

/-! ### The registers of a slot -/

theorem csr_slot {s : State} (hp : s.par.Ok) {k j : Nat} (hk : k < s.par.nslot) (hj : j < 0x10) :
    s.csr (BitVec.ofNat 12 (0x100 + 0x10 * k + j)) = slotCsr (s.slot k) j := by
  have hnslot := hp.1.2
  have hn : (BitVec.ofNat 12 (0x100 + 0x10 * k + j)).toNat = 0x100 + 0x10 * k + j := by
    rw [BitVec.toNat_ofNat]
    omega
  rw [csr_of_ge (by omega), hn, if_pos (by omega)]
  congr 2 <;> omega

theorem cfgw_fields (x : Slot) :
    field x.cfgw 0 3 = x.cfg.kind.code ∧ x.cfgw.getLsbD 3 = x.cfg.flag ∧ field x.cfgw 4 5 = x.cfg.nt.toNat ∧
      field x.cfgw 9 4 = x.cfg.lognph.toNat ∧ field x.cfgw 13 3 = 0 ∧ field x.cfgw 16 16 = x.cfg.m.toNat ∧
      field x.cfgw 32 16 = x.cfg.l.toNat ∧ field x.cfgw 48 16 = 0 := by
  have hapart : [(0, 3, x.cfg.kind.code), (3, 1, bit x.cfg.flag), (4, 5, x.cfg.nt.toNat), (9, 4, x.cfg.lognph.toNat),
    (16, 16, x.cfg.m.toNat), (32, 16, x.cfg.l.toNat)].Pairwise Apart := by simp [Apart]
  exact ⟨field_regWord hapart (by simp) (kind_code_lt _) (by decide), getLsbD_regWord_bit hapart (by simp) (by decide),
    field_regWord hapart (by simp) x.cfg.nt.isLt (by decide), field_regWord hapart (by simp) x.cfg.lognph.isLt (by decide),
    field_regWord_outside hapart (by simp), field_regWord hapart (by simp) x.cfg.m.isLt (by decide),
    field_regWord hapart (by simp) x.cfg.l.isLt (by decide), field_regWord_outside hapart (by simp)⟩

theorem tapinfo_fields {x : Slot} (h : ∀ b, x.taps.count b < 2 ^ 12) :
    field x.tapinfo 0 12 = x.taps.count x.taps.act ∧ field x.tapinfo 12 4 = 0 ∧
      field x.tapinfo 16 12 = x.taps.count (!x.taps.act) ∧ field x.tapinfo 28 4 = 0 ∧
      x.tapinfo.getLsbD 32 = x.taps.act ∧ x.tapinfo.getLsbD 33 = x.taps.dirty ∧ field x.tapinfo 34 30 = 0 := by
  have hapart : [(0, 12, x.taps.count x.taps.act), (16, 12, x.taps.count !x.taps.act), (32, 1, bit x.taps.act),
    (33, 1, bit x.taps.dirty)].Pairwise Apart := by simp [Apart]
  exact ⟨field_regWord hapart (by simp) (h _) (by decide), field_regWord_outside hapart (by simp),
    field_regWord hapart (by simp) (h _) (by decide), field_regWord_outside hapart (by simp),
    getLsbD_regWord_bit hapart (by simp) (by decide), getLsbD_regWord_bit hapart (by simp) (by decide),
    field_regWord_outside hapart (by simp)⟩

theorem geom_fields (x : Slot) :
    field x.geom 0 8 = x.dv.dc.toNat ∧ field x.geom 8 8 = x.dv.w.toNat ∧ field x.geom 16 8 = x.dv.cb.toNat ∧
      field x.geom 24 40 = 0 := by
  have hapart : [(0, 8, x.dv.dc.toNat), (8, 8, x.dv.w.toNat), (16, 8, x.dv.cb.toNat)].Pairwise Apart := by simp [Apart]
  exact ⟨field_regWord hapart (by simp) x.dv.dc.isLt (by decide), field_regWord hapart (by simp) x.dv.w.isLt (by decide),
    field_regWord hapart (by simp) x.dv.cb.isLt (by decide), field_regWord_outside hapart (by simp)⟩

theorem regWord_gate (b : Bool) : regWord [(0, 1, bit b)] = if b then 1#64 else 0#64 := by cases b <;> rfl

theorem regWord_skip (v : BitVec 32) : regWord [(0, 32, v.toNat)] = v.setWidth 64 := by
  have := v.isLt
  simp only [regWord, List.foldl_cons, List.foldl_nil]
  apply BitVec.eq_of_toNat_eq
  rw [BitVec.toNat_ofNat, BitVec.toNat_setWidth]
  congr 1
  omega

/-- Settles O27: the number names the slot and the sub-number, and each register is then read off its fields. -/
theorem slotRegisters : Obligations.SlotRegisters := by
  intro s k h hk x reg
  have htapmax := h.par.2.2.1.2
  have hw : SlotWf s.par x := h.slot k
  have hreg : ∀ j < 0x10, reg j = slotCsr x j := fun j hj => csr_slot h.par hk hj
  have hcount : ∀ b, x.taps.count b < 2 ^ 12 := fun b => (hw.count_le b).trans_lt (by omega)
  refine ⟨⟨_, hreg 0x0 (by decide), cfgw_fields x⟩, hreg 0x1 (by decide), hreg 0x2 (by decide), hreg 0x3 (by decide),
    ⟨_, hreg 0x4 (by decide), tapinfo_fields hcount⟩, fun hkind => ?_, fun hkind => ?_, fun hkind => ?_, fun hkind => ?_,
    fun hkind => ?_⟩
  · simp [hreg, slotCsr, hkind, regWord_gate]
  · simp [hreg, slotCsr, hkind]
  · simp [hreg, slotCsr, hkind, regWord_skip, geom_fields]
  · obtain ⟨hsql, hfmd, hstr⟩ := hkind
    cases hx : x.cfg.kind with
    | sql => exact absurd hx hsql
    | fmd => exact absurd hx hfmd
    | str => exact absurd hx hstr
    | none | fir | rsp => simp [hreg, slotCsr, hx]
  · cases hx : x.cfg.kind with
    | str => exact absurd hx hkind
    | none | sql | fmd | fir | rsp => simp [hreg, slotCsr, hx]

end Sys2Proof.Machine
end

section
/-! PROOFS. The reset state (10_state.md R42): what `RESET` leaves, and the invariants of power-on. -/

namespace Sys2Proof.Machine

theorem slotCleared_reset (p : Params) : SlotCleared p emptyCfg (Slot.reset p) where
  cfg := rfl
  counts := ⟨rfl, rfl⟩
  act := rfl
  dirty := rfl
  rows := rfl
  sqlDerived := ⟨rfl, rfl⟩
  fmdDerived := rfl
  strDerived := ⟨rfl, rfl, rfl, rfl⟩
  geometry := ⟨rfl, rfl, rfl⟩
  done := rfl
  sql := ⟨rfl, rfl⟩
  fmd := rfl
  hist := rfl
  loop := ⟨rfl, rfl, rfl, rfl⟩
  skip := rfl
  win := rfl

/-- The engine at its reset values is so in every item of 10_state.md R42. -/
theorem isReset_resetEngine (s : State) : IsReset s.resetEngine where
  lc := rfl
  latch := ⟨rfl, rfl⟩
  nstg := rfl
  pending := rfl
  active := rfl
  slotCount := List.length_replicate
  slots _ hx := List.eq_of_mem_replicate hx ▸ slotCleared_reset s.par
  ringCount := List.length_replicate
  rings _ hr := List.eq_of_mem_replicate hr ▸ ⟨rfl, rfl⟩

/-- No check refuses `RESET` (40_commands.md R120, R121). -/
theorem refusal_reset (s : State) : refusal s .reset = none := rfl

/-- Settles O11: `RESET` is accepted everywhere and leaves the reset engine. -/
theorem resetCommandResets : Obligations.ResetCommandResets := fun s =>
  ⟨_, exec_of_accepted (refusal_reset s), { isReset_resetEngine s with }, ⟨rfl, rfl, rfl, rfl, rfl, rfl⟩, rfl⟩

theorem sample_zero_finite : Sample.zero.finite NUM.binary64 = true := by decide

theorem runtimeFinite_reset (p : Params) : RuntimeFinite NUM.binary64 (Slot.reset p) where
  pwr := NUM.finite_zero
  prev := sample_zero_finite
  hist _ hy := List.eq_of_mem_replicate hy ▸ sample_zero_finite
  mu := NUM.finite_zero
  period := NUM.finite_zero
  integ := NUM.finite_zero
  err := NUM.finite_zero
  win _ hv := List.eq_of_mem_replicate hv ▸ NUM.finite_zero

/-- Settles O54: every slot and every ring is one of the reset ones, and the pipeline does not run. -/
theorem resetHasInvariants : Obligations.ResetHasInvariants := by
  refine ⟨stateWf_init (by decide), fun r hr x hx => ?_, fun x hx => ?_, fun hlive => absurd hlive (by decide)⟩
  · rw [List.eq_of_mem_replicate hr] at hx
    cases hx
  · rw [List.eq_of_mem_replicate hx]
    exact runtimeFinite_reset Params.default

end Sys2Proof.Machine
end

section
/-! PROOFS. Two stages' invocations commute (20_memory.md R75). The idea: the only thing two stages share is a ring that one
fills and the other drains, and draining samples that already stand there commutes with appending behind them. So each
invocation takes the same samples, and answers the same, after the other one as before it. -/

namespace Sys2Proof.Machine

variable (s : State)

/-! ### Draining and filling commute -/

theorem setRing_setRing_same (e : Nat) (r r' : Ring) : (s.setRing e r).setRing e r' = s.setRing e r' := by
  simp [State.setRing]

theorem setRing_comm {e e' : Nat} (h : e ≠ e') (r r' : Ring) :
    (s.setRing e r).setRing e' r' = (s.setRing e' r').setRing e r := by
  simp only [State.setRing, List.set_comm _ _ h]

theorem setSlot_comm {j k : Nat} (h : j ≠ k) (x y : Slot) :
    (s.setSlot j x).setSlot k y = (s.setSlot k y).setSlot j x := by
  simp only [State.setSlot, List.set_comm _ _ h]

/-- A write of a ring that does not exist changes nothing. -/
theorem setRing_of_ge {e : Nat} (h : s.rings.length ≤ e) (r : Ring) : s.setRing e r = s := by
  rw [State.setRing, List.set_eq_of_length_le h]

theorem deq_ring_other {e j : Nat} (h : j ≠ e) (n : Nat) : (s.deq e n).ring j = s.ring j :=
  setRing_ring_other s e j _ h

theorem enq_ring_other {e j : Nat} (h : j ≠ e) (xs : List Sample) : (s.enq e xs).ring j = s.ring j :=
  setRing_ring_other s e j _ h

theorem deq_comm {e e' : Nat} (h : e ≠ e') (n n' : Nat) : (s.deq e n).deq e' n' = (s.deq e' n').deq e n := by
  rw [State.deq, deq_ring_other s h.symm, State.deq, setRing_comm s h, State.deq, deq_ring_other s h, State.deq]

theorem enq_comm {e e' : Nat} (h : e ≠ e') (xs ys : List Sample) :
    (s.enq e xs).enq e' ys = (s.enq e' ys).enq e xs := by
  rw [State.enq, enq_ring_other s h.symm, State.enq, setRing_comm s h, State.enq, enq_ring_other s h, State.enq]

/-- Samples that stand in a ring are drained alike before and after others are appended, to this ring or another. -/
theorem deq_enq_comm {e n : Nat} (e' : Nat) (xs : List Sample) (h : n ≤ s.cnt e) :
    (s.enq e' xs).deq e n = (s.deq e n).enq e' xs := by
  by_cases he : e = e'
  · subst he
    by_cases hlen : e < s.rings.length
    · have henq : (s.enq e xs).ring e = { s.ring e with queue := (s.ring e).queue ++ xs } := setRing_ring_same s e _ hlen
      have hdeq : (s.deq e n).ring e = { s.ring e with queue := (s.ring e).queue.drop n } := setRing_ring_same s e _ hlen
      rw [State.deq, henq, State.enq, setRing_setRing_same, State.enq, hdeq, State.deq, setRing_setRing_same,
        List.drop_append_of_le_length h]
    · have hge := not_lt.mp hlen
      rw [State.enq, setRing_of_ge s hge, State.deq, setRing_of_ge s hge, State.enq, setRing_of_ge s hge]
  · rw [State.deq, enq_ring_other s he, State.enq, setRing_comm s (Ne.symm he), State.enq, deq_ring_other s (Ne.symm he),
      State.deq]

/-! ### What a ring's reader and writer see -/

theorem ring_enq_queue (e e' : Nat) (xs : List Sample) :
    ((s.enq e' xs).ring e).queue = (s.ring e).queue ∨ ((s.enq e' xs).ring e).queue = (s.ring e).queue ++ xs := by
  rw [State.enq, setRing_ring]
  split
  · rename_i he
    rw [he.1]
    exact .inr rfl
  · exact .inl rfl

/-- Appending samples leaves those a reader is about to take. -/
theorem front_enq {e n : Nat} (e' : Nat) (xs : List Sample) (h : n ≤ s.cnt e) :
    (s.enq e' xs).front e n = s.front e n := by
  rcases ring_enq_queue s e e' xs with hq | hq <;> rw [State.front, hq, State.front]
  exact List.take_append_of_le_length h

/-- Appending samples leaves a reader at least as many. -/
theorem cnt_le_enq (e e' : Nat) (xs : List Sample) : s.cnt e ≤ (s.enq e' xs).cnt e := by
  rcases ring_enq_queue s e e' xs with hq | hq <;> rw [State.cnt, State.cnt, hq]
  rw [List.length_append]
  exact Nat.le_add_right _ _

/-- Draining samples leaves a writer at least as much room. -/
theorem cnt_deq_le (e e' n : Nat) : (s.deq e' n).cnt e ≤ s.cnt e := by
  rw [State.cnt, State.cnt, State.deq, setRing_ring]
  split
  · rename_i he
    rw [he.1, List.length_drop]
    exact Nat.sub_le _ _
  · rfl

/-! ### The state after an invocation -/

/-- The state after an invocation of stage `k` that appended `out` and wrote `rt` (41_ring_scheduler.md R181). -/
def State.invoked (s : State) (k : Nat) (out : List Sample) (rt : Runtime) : State :=
  ((s.deq k (s.slot k).need).setSlot k { s.slot k with rt := rt }).enq (k + 1) out

/-- The invocation of stage `k` is enabled, appends `out` and writes `rt`. -/
structure Emits (s : State) (k : Nat) (out : List Sample) (rt : Runtime) : Prop where
  ready : invokeReady s k = true
  answer : invoke s (s.slot k) (s.front k (s.slot k).need) = .emit out rt

variable {s} {j k : Nat} {out out' : List Sample} {rt rt' : Runtime}

theorem Emits.need_le (h : Emits s k out rt) : (s.slot k).need ≤ s.cnt k := ((invokeReady_iff s k).mp h.ready).2.1

theorem Emits.step (h : Emits s k out rt) : agentStep (.stage k) s = .next (s.invoked k out rt) := by
  simp only [agentStep, stageStep, h.ready, if_true, invokeStep, h.answer, State.invoked]

/-- An enabled invocation that does not fault emits. -/
theorem emits_of_step {t : State} (hready : invokeReady s k = true) (hstep : agentStep (.stage k) s = .next t)
    (hlc : t.lc = s.lc) : ∃ out rt, Emits s k out rt ∧ t = s.invoked k out rt := by
  have hlive : s.live = true :=
    (live_iff s).mpr ((stageLive_iff s k).mp ((invokeReady_iff s k).mp hready).1).2.2.1
  rw [agentStep, stageStep, if_pos hready, invokeStep] at hstep
  cases hinv : invoke s (s.slot k) (s.front k (s.slot k).need) with
  | emit out rt =>
    simp only [hinv, Host.Outcome.next.injEq] at hstep
    exact ⟨out, rt, ⟨hready, hinv⟩, hstep.symm⟩
  | raise =>
    simp only [hinv, Host.Outcome.next.injEq] at hstep
    rw [← hstep, raiseFault_lc] at hlc
    simp [State.live, ← hlc] at hlive
  | stuck f => simp only [hinv, reduceCtorEq] at hstep

/-- An invocation leaves every other slot. -/
theorem invoked_slot_other (h : k ≠ j) : (s.invoked j out rt).slot k = s.slot k :=
  setSlot_slot_other (s.deq j (s.slot j).need) j k _ h

/-- An invocation leaves every ring but the two it is joined to. -/
theorem invoked_ring_other {e : Nat} (h : e ≠ k) (h' : e ≠ k + 1) : (s.invoked k out rt).ring e = s.ring e := by
  rw [State.invoked, enq_ring_other _ h', setSlot_ring, deq_ring_other s h]

/-- An invocation leaves the samples that another stage is about to take. -/
theorem front_invoked (h : k ≠ j) {n : Nat} (hn : n ≤ s.cnt k) : (s.invoked j out rt).front k n = s.front k n := by
  have hring : (s.deq j (s.slot j).need).ring k = s.ring k := deq_ring_other s h _
  have hfront : (s.deq j (s.slot j).need).front k n = s.front k n := by rw [State.front, hring, State.front]
  refine (front_enq _ (j + 1) out ?_).trans hfront
  rw [State.cnt, setSlot_ring, hring]
  exact hn

/-- An invocation takes no sample from another stage's input. -/
theorem cnt_le_invoked (h : k ≠ j) : s.cnt k ≤ (s.invoked j out rt).cnt k := by
  have hcnt : (s.deq j (s.slot j).need).cnt k = s.cnt k := by rw [State.cnt, deq_ring_other s h, State.cnt]
  exact hcnt ▸ cnt_le_enq ((s.deq j (s.slot j).need).setSlot j _) k (j + 1) out

/-- An invocation fills no other stage's output. -/
theorem cnt_invoked_le (h : k ≠ j) : (s.invoked j out rt).cnt (k + 1) ≤ s.cnt (k + 1) := by
  have hcnt : (s.invoked j out rt).cnt (k + 1) = (s.deq j (s.slot j).need).cnt (k + 1) := by
    rw [State.cnt, State.invoked, enq_ring_other _ (by omega), setSlot_ring, State.cnt]
  exact hcnt ▸ cnt_deq_le s (k + 1) j _

/-- An invocation leaves another stage's enabled, with the same answer. -/
theorem Emits.after_invoked (h : Emits s k out rt) (hjk : k ≠ j) : Emits (s.invoked j out' rt') k out rt := by
  have hslot : (s.invoked j out' rt').slot k = s.slot k := invoked_slot_other hjk
  obtain ⟨hlive, hneed, hroom⟩ := (invokeReady_iff s k).mp h.ready
  refine ⟨(invokeReady_iff _ k).mpr ⟨?_, ?_, ?_⟩, ?_⟩
  · rw [stageLive_iff, hslot]
    exact (stageLive_iff s k).mp hlive
  · rw [hslot]
    exact hneed.trans (cnt_le_invoked hjk)
  · rw [hslot]
    exact hroom.trans (Nat.sub_le_sub_left (cnt_invoked_le hjk) _)
  · rw [hslot, front_invoked hjk hneed]
    exact h.answer

/-- The two orders of two invocations leave the same state. -/
theorem invoked_comm (hjk : j ≠ k) (hj : (s.slot j).need ≤ s.cnt j) (hk : (s.slot k).need ≤ s.cnt k) :
    (s.invoked j out rt).invoked k out' rt' = (s.invoked k out' rt').invoked j out rt := by
  have hk' : (s.slot k).need ≤ (s.deq j (s.slot j).need).cnt k := by rwa [State.cnt, deq_ring_other s hjk.symm]
  have hj' : (s.slot j).need ≤ (s.deq k (s.slot k).need).cnt j := by rwa [State.cnt, deq_ring_other s hjk]
  have hrings :=
    calc (((s.deq j (s.slot j).need).enq (j + 1) out).deq k (s.slot k).need).enq (k + 1) out'
        = (((s.deq j (s.slot j).need).deq k (s.slot k).need).enq (j + 1) out).enq (k + 1) out' := by
          rw [deq_enq_comm _ (j + 1) out hk']
      _ = (((s.deq k (s.slot k).need).deq j (s.slot j).need).enq (k + 1) out').enq (j + 1) out := by
          rw [deq_comm s hjk, enq_comm _ (by omega)]
      _ = (((s.deq k (s.slot k).need).enq (k + 1) out').deq j (s.slot j).need).enq (j + 1) out := by
          rw [deq_enq_comm _ (k + 1) out' hj']
  rw [State.invoked, invoked_slot_other hjk.symm, State.invoked, State.invoked, invoked_slot_other hjk, State.invoked]
  calc _ = (((((s.deq j (s.slot j).need).enq (j + 1) out).deq k (s.slot k).need).enq (k + 1) out').setSlot j
          { s.slot j with rt := rt }).setSlot k { s.slot k with rt := rt' } := rfl
    _ = _ := by rw [hrings, setSlot_comm _ hjk]; rfl

/-- Settles O39: each invocation emits the same after the other, and the two orders leave the same state. -/
theorem stageStepsCommute : Obligations.StageStepsCommute := by
  intro s a b j k _ hjk hj hk ha hb hla hlb
  obtain ⟨out, rt, hemj, rfl⟩ := emits_of_step hj ha hla
  obtain ⟨out', rt', hemk, rfl⟩ := emits_of_step hk hb hlb
  refine ⟨_, (hemk.after_invoked hjk.symm).step, ?_⟩
  rw [invoked_comm hjk hemj.need_le hemk.need_le]
  exact (hemj.after_invoked hjk).step

end Sys2Proof.Machine
end

section
/-! PROOFS. What a step cannot reach (20_memory.md R67, R71, R79): an index outside a space is answered by its range check
and nothing else happens; a stage's step stays within its slot and its two rings; a running pipeline keeps its structure. -/

namespace Sys2Proof.Machine

/-! ### Range checks -/

/-- A command that reaches the range checks and fails them is answered so, and nothing else changes
(30_encoding.md R94 step 7). -/
theorem exec_of_rangeError {s : State} {i : Instr} {c : Status} {info : BitVec 24} (hslot : slotExists s i = true)
    (hlegal : legalIn i s.lc = true) (hkind : kindTakes s i = true) (h : rangeError s i = some (c, info)) :
    exec i s = .next (s.answers [statusWord c info]) :=
  exec_of_refused (by simp [refusal, hslot, hlegal, hkind, h])

/-- The word that names a number which is no register (30_encoding.md R98, R99). -/
theorem statusWord_errCsr (n : BitVec 12) :
    statusWord .errCsr (n.setWidth 24) = BitVec.ofNat 32 (0x05000000 + n.toNat) := by
  have hn := n.isLt
  refine BitVec.eq_of_toNat_eq ?_
  have hinfo : (n.setWidth 24).toNat = n.toNat := by rw [BitVec.toNat_setWidth]; omega
  rw [statusWord, BitVec.toNat_append, hinfo, ← Nat.shiftLeft_add_eq_or_of_lt (by omega), Nat.shiftLeft_eq,
    BitVec.toNat_ofNat, Nat.mod_eq_of_lt (by omega)]
  rfl

/-- Settles O9: the slot, state and kind checks pass, and the range check answers. -/
theorem outOfRangeRefused : Obligations.OutOfRangeRefused := by
  refine fun s => ⟨fun k taps hslot hlc hkind hlen => ?_, fun k row coeffs hslot hlc hkind hbad => ?_, fun n hn => ?_⟩
  · exact exec_of_rangeError (c := .errField) (info := 0#24) (decide_eq_true hslot) (decide_eq_true hlc)
      (decide_eq_true hkind) (if_neg (not_le.mpr hlen))
  · exact exec_of_rangeError (c := .errField) (info := 0#24) (decide_eq_true hslot) (decide_eq_true hlc)
      (decide_eq_true hkind) (if_neg (by omega))
  · rw [← statusWord_errCsr]
    exact exec_of_rangeError rfl rfl rfl (by simp [rangeError, hn])

/-! ### The frame of a stage's step -/

/-- Settles O38: an invocation and a done step write the slot and the two rings, a fault writes `LC` and the latch; what
stays of the slot itself is what every step of the data path keeps. -/
theorem stageIsolation : Obligations.StageIsolation := by
  intro s t k h
  have hd : DataStep s t := dataStep_stageStep h
  have hframe : SameSurroundings s t ∧ t.resp = s.resp ∧ (∀ j, j ≠ k → t.slot j = s.slot j) ∧
      ∀ e, e ≠ k → e ≠ k + 1 → t.ring e = s.ring e := by
    rcases stageStep_cases h with rfl | ⟨-, out, rt, -, rfl⟩ | ⟨-, -, rfl⟩ | ⟨-, rfl⟩
    · exact ⟨⟨rfl, rfl, rfl, rfl, rfl, rfl⟩, rfl, fun _ _ => rfl, fun _ _ _ => rfl⟩
    · exact ⟨⟨rfl, rfl, rfl, rfl, rfl, rfl⟩, rfl, fun _ => invoked_slot_other, fun _ => invoked_ring_other⟩
    · rcases raiseFault_cases s .numStage (BitVec.ofNat 4 k) with ⟨-, e⟩ | ⟨-, e⟩ <;> rw [e] <;>
        exact ⟨⟨rfl, rfl, rfl, rfl, rfl, rfl⟩, rfl, fun _ _ => rfl, fun _ _ _ => rfl⟩
    · exact ⟨⟨rfl, rfl, rfl, rfl, rfl, rfl⟩, rfl, fun j hj => setSlot_slot_other s k j _ hj, fun _ _ _ => rfl⟩
  obtain ⟨hsame, hresp, hslots, hrings⟩ := hframe
  exact ⟨hsame, hresp, hd.nstg, hd.pend, hd.actv, hslots, hrings, hd.cfg k, hd.taps k, hd.itb k, hd.dv k, hd.cplx⟩

/-! ### The structure of a running pipeline -/

/-- The two states have the same pipeline, but for values that a run or a `COMMIT` changes. -/
structure SameStructure (s t : State) : Prop where
  nstg : t.nstg = s.nstg
  cfg : ∀ k, (t.slot k).cfg = (s.slot k).cfg
  itb : ∀ k, (t.slot k).itb = (s.slot k).itb
  cplx : ∀ e, (t.ring e).cplx = (s.ring e).cplx

theorem DataStep.sameStructure {s t : State} (h : DataStep s t) : SameStructure s t := ⟨h.nstg, h.cfg, h.itb, h.cplx⟩

theorem SameStructure.trans {s t u : State} (h : SameStructure s t) (h' : SameStructure t u) : SameStructure s u :=
  ⟨h'.nstg.trans h.nstg, fun k => (h'.cfg k).trans (h.cfg k), fun k => (h'.itb k).trans (h.itb k),
    fun e => (h'.cplx e).trans (h.cplx e)⟩

/-- A successful `COMMIT` adopts tunables and tap banks, and derives (40_commands.md R125). -/
theorem sameStructure_committed (s : State) : SameStructure s s.adopt.derive where
  nstg := rfl
  cfg := committed_cfg s
  itb k := by rw [committed_slot]; split <;> simp
  cplx _ := rfl

theorem sameStructure_loadTaps (k : BitVec 4) (vs : List F) (s : State) :
    SameStructure s (loadTapsEffect k vs s) := by
  have hslot : ∀ j, (loadTapsEffect k vs s).slot j = s.slot j ∨
      ∃ taps, (loadTapsEffect k vs s).slot j = { s.slot j with taps := taps } := by
    intro j
    rw [loadTapsEffect, respond_slot, setSlot_slot]
    split
    · rename_i hj
      rw [hj.1]
      exact .inr ⟨_, rfl⟩
    · exact .inl rfl
  refine ⟨rfl, fun j => ?_, fun j => ?_, fun _ => rfl⟩ <;> rcases hslot j with hj | ⟨taps, hj⟩ <;> rw [hj]

theorem not_live_of_idle_or_halted {s : State} (h : s.lc = .idle ∨ s.lc = .halted) : s.live = false := by
  rcases h with h | h <;> simp [State.live, h]

/-- A command accepted while the pipeline runs, which leaves it running, keeps its structure. -/
theorem sameStructure_effect {s : State} {i : Instr} (hok : refusal s i = none) (hs : s.live = true)
    (ht : (effect i s).live = true) : SameStructure s (effect i s) := by
  obtain ⟨-, hlegal, -, -⟩ := (accepted_iff s i).mp hok
  have hnot : legalIn i s.lc ≠ decide (s.lc = .idle ∨ s.lc = .halted) := fun hstop => by
    rw [hlegal, eq_comm, decide_eq_true_eq] at hstop
    rw [not_live_of_idle_or_halted hstop] at hs
    cases hs
  cases effect_cases i s with
  | quiet h => exact h.dataStep.sameStructure
  | stop hi => subst hi; exact (dataStep_stopEffect s).sameStructure
  | reset hi => subst hi; cases ht
  | start hi => subst hi; exact absurd rfl hnot
  | commit hi =>
    subst hi
    simp only [effect, commitEffect] at ht ⊢
    split at ht
    · exact (sameStructure_committed s).trans (sameRegisters_respond ..).dataStep.sameStructure
    · rw [rejectConfig_not_live] at ht
      cases ht
  | pending v t hi h => rw [h]; exact ⟨rfl, fun _ => rfl, fun _ => rfl, fun _ => rfl⟩
  | configured k c hi hcfg h => exact absurd (hcfg s.lc) hnot
  | taps k vs hi => subst hi; exact sameStructure_loadTaps k vs s
  | row k r cs hi => subst hi; exact absurd rfl hnot

/-- Settles O59: by the three kinds of step. -/
theorem structureIsConstant : Obligations.StructureIsConstant := by
  intro s t hs ht h
  have hst : SameStructure s t := by
    rcases step_cases h with ⟨i, u, -, hu, hok, rfl⟩ | hsame | ⟨a, ha, hagent⟩
    · exact hu.dataStep.sameStructure.trans (sameStructure_effect hok (hu.live ▸ hs) ht)
    · exact hsame.dataStep.sameStructure
    · exact ((sameRegisters_advancePlan s).dataStep.trans (dataStep_agentStep ha hagent)).sameStructure
  exact ⟨hst.nstg, fun k => ⟨hst.cfg k, hst.itb k⟩, hst.cplx⟩

end Sys2Proof.Machine
end

section
/-! PROOFS. The command stream (30_encoding.md R90 to R97). The idea: a header is its four fields, so a clear mask fixes the
fields a command does not use, and a payload of `2 * n` words is its `n` values; both directions of the round trip are read
off these, opcode by opcode. -/

namespace Sys2Proof

open Laws

/-! ### Values in a payload -/

@[simp] theorem valAt_zero_fWords (v : F) (ws : List Word) : valAt (fWords v ++ ws) 0 = v := fOf_words v

@[simp] theorem valAt_succ_fWords (v : F) (ws : List Word) (k : Nat) : valAt (fWords v ++ ws) (k + 1) = valAt ws k := rfl

@[simp] theorem valAt_fWords (v : F) : valAt (fWords v) 0 = v := fOf_words v

/-- A payload of `2 * n` words is the words of its first `n` values. -/
theorem flatMap_valAt {n : Nat} {ws : List Word} (h : ws.length = 2 * n) :
    (List.range n).flatMap (fun k => fWords (valAt ws k)) = ws := by
  obtain ⟨hlen, hwords⟩ := flatMap_fsOf n ws h
  have hvals : (List.range n).map (valAt ws) = fsOf ws :=
    List.ext_getElem (by simp [hlen]) fun k _ hk => by simp [valAt, hk]
  rw [← List.flatMap_map, hvals, hwords]

theorem fWords_valAt_of_length_two {ws : List Word} (h : ws.length = 2) : fWords (valAt ws 0) = ws :=
  flatMap_valAt (n := 1) h

theorem fWords_valAt_of_length_four {ws : List Word} (h : ws.length = 4) :
    fWords (valAt ws 0) ++ fWords (valAt ws 1) = ws :=
  flatMap_valAt (n := 2) h

theorem fWords_valAt_of_length_six {ws : List Word} (h : ws.length = 6) :
    fWords (valAt ws 0) ++ fWords (valAt ws 1) ++ fWords (valAt ws 2) = ws :=
  flatMap_valAt (n := 3) h

/-! ### From a command to its packet and back -/

/-- Every command that fits its encoding is written as one packet. -/
theorem packetForm : ∀ i : Instr, PacketForm.Statement i
  | .nop => PacketForm.nop
  | .reset => PacketForm.reset
  | .start => PacketForm.start
  | .stop => PacketForm.stop
  | .wait => PacketForm.wait
  | .commit => PacketForm.commit
  | .cfgNone k => PacketForm.cfgNone k
  | .cfgSql k alpha hyst => PacketForm.cfgSql k alpha hyst
  | .cfgFmd k rsel => PacketForm.cfgFmd k rsel
  | .cfgFir k cplx l m => PacketForm.cfgFir k cplx l m
  | .cfgRsp k cplx l m fbw => PacketForm.cfgRsp k cplx l m fbw
  | .cfgStr k lognph nt delta kp plim => PacketForm.cfgStr k lognph nt delta kp plim
  | .ldtap k taps => PacketForm.ldtap k taps
  | .lditb k row coeffs => PacketForm.lditb k row coeffs
  | .setFs v => PacketForm.setFs v
  | .setRffs v => PacketForm.setRffs v
  | .setDev v => PacketForm.setDev v
  | .setBaud v => PacketForm.setBaud v
  | .setThr v => PacketForm.setThr v
  | .setLg v => PacketForm.setLg v
  | .setFc v => PacketForm.setFc v
  | .rdcsr n => PacketForm.rdcsr n

/-- The header and the payload that a command is written as build that command. -/
theorem build_encode {i : Instr} {hd : Word} {pay : List Word} (h : encode i = hd :: pay) : build hd pay = some i := by
  cases i with
  | nop | reset | start | stop | wait | commit => cases h; rfl
  | cfgRsp k cplx l m fbw =>
    cases h
    simp only [build, opcOf_header, slotOf_header, argOf_header, BitVec.toNat_ofNat]
    simp only [flagArg_getLsbD, List.getD_cons_zero, List.drop_one, List.tail_cons, lOf_append, mOf_append, valAt_fWords]
  | cfgNone | cfgSql | cfgFmd | cfgFir | cfgStr | ldtap | lditb | setFs | setRffs | setDev | setBaud | setThr | setLg
  | setFc | rdcsr => cases h; simp [build]

/-- A whole packet at the front of the stream is read as the command it builds, and what stands behind it is left. -/
theorem decode_packet {hd mbz : Word} {pay rest : List Word} {i : Instr} (hlen : plen hd = pay.length)
    (hmask : mbzMask (opcOf hd) = some mbz) (hclear : hd &&& mbz = 0#32) (hbuild : build hd pay = some i) :
    decode (hd :: pay ++ rest) = .instr i rest := by
  simp [decode, hmask, hclear, hlen, hbuild]

/-- Settles O1: the words of a command are one packet, and its header and payload build the command. -/
theorem decodeOfEncode : Obligations.DecodeOfEncode := by
  intro i rest hwf
  obtain ⟨hd, pay, mbz, hwords, hlen, hmask, hclear⟩ := packetForm i hwf
  rw [hwords]
  exact decode_packet hlen hmask hclear (build_encode hwords)

/-! ### From an accepted packet to its command and back -/

/-- A header and a mask have no common bit exactly if no field of the two has one. -/
theorem header_and_eq_zero (hd : Word) (mk : BitVec 4) (ma : BitVec 12) (mb : BitVec 8) :
    hd &&& header 0#8 mk ma mb = 0#32 ↔ slotOf hd &&& mk = 0#4 ∧ argOf hd &&& ma = 0#12 ∧ arg2Of hd &&& mb = 0#8 := by
  conv_lhs => rw [← header_fields hd, header_and, BitVec.and_zero]
  refine ⟨fun h => ?_, fun ⟨hk, ha, hb⟩ => by rw [hk, ha, hb]; rfl⟩
  replace h : _ = header 0#8 0#4 0#12 0#8 := h
  exact ⟨by simpa using congrArg slotOf h, by simpa using congrArg argOf h, by simpa using congrArg arg2Of h⟩

/-- A field whose every bit must be zero is zero. -/
theorem eq_zero_of_mbz {w : Nat} {x : BitVec w} (h : x &&& BitVec.allOnes w = 0#w) : x = 0#w :=
  BitVec.and_allOnes.symm.trans h

/-- A word is the header of any four fields that are its own. -/
theorem header_eq {hd : Word} {o : BitVec 8} {k : BitVec 4} {a : BitVec 12} {b : BitVec 8} (ho : (opcOf hd).toNat = o.toNat)
    (hk : slotOf hd = k) (ha : argOf hd = a) (hb : arg2Of hd = b) : header o k a b = hd := by
  rw [← BitVec.eq_of_toNat_eq ho, ← hk, ← ha, ← hb, header_fields]

/-- A header whose opcode alone can have a bit set (30_encoding.md R97: `NOP` to `COMMIT`, `SET.*`). -/
theorem header_of_bare {hd : Word} {o : BitVec 8} (ho : (opcOf hd).toNat = o.toNat) (h : hd &&& 0x00FFFFFF#32 = 0#32) :
    header o 0#4 0#12 0#8 = hd := by
  obtain ⟨hk, ha, hb⟩ := (header_and_eq_zero hd 0xF#4 0xFFF#12 0xFF#8).mp h
  exact header_eq ho (eq_zero_of_mbz hk) (eq_zero_of_mbz ha) (eq_zero_of_mbz hb)

/-- A header with a slot number alone (R97: `CFG.NONE`, `CFG.SQL`). -/
theorem header_of_slot {hd : Word} {o : BitVec 8} (ho : (opcOf hd).toNat = o.toNat) (h : hd &&& 0x000FFFFF#32 = 0#32) :
    header o (slotOf hd) 0#12 0#8 = hd := by
  obtain ⟨-, ha, hb⟩ := (header_and_eq_zero hd 0#4 0xFFF#12 0xFF#8).mp h
  exact header_eq ho rfl (eq_zero_of_mbz ha) (eq_zero_of_mbz hb)

/-- A header with a slot number and a flag (R97: `CFG.FMD`, `CFG.FIR`, `CFG.RSP`). -/
theorem header_of_flag {hd : Word} {o : BitVec 8} (ho : (opcOf hd).toNat = o.toNat) (h : hd &&& 0x000FFEFF#32 = 0#32) :
    header o (slotOf hd) (flagArg ((argOf hd).getLsbD 0)) 0#8 = hd := by
  obtain ⟨-, ha, hb⟩ := (header_and_eq_zero hd 0#4 0xFFE#12 0xFF#8).mp h
  exact header_eq ho rfl (flagArg_of_mbz _ ha).symm (eq_zero_of_mbz hb)

/-- The header of `CFG.STR` (R97). -/
theorem header_of_str {hd : Word} (ho : (opcOf hd).toNat = 0x15) (h : hd &&& 0x000FF0E0#32 = 0#32) :
    header 0x15#8 (slotOf hd) (((argOf hd).extractLsb' 0 4).setWidth 12) (((arg2Of hd).extractLsb' 0 5).setWidth 8) =
      hd := by
  obtain ⟨-, ha, hb⟩ := (header_and_eq_zero hd 0#4 0xFF0#12 0xE0#8).mp h
  exact header_eq ho rfl (lognph_of_mbz _ ha).symm (nt_of_mbz _ hb).symm

/-- The header of `LDTAP` with the count of its payload (R92, R97). -/
theorem header_of_ldtap {hd : Word} (ho : (opcOf hd).toNat = 0x20) (h : hd &&& 0x000000FF#32 = 0#32) :
    header 0x20#8 (slotOf hd) (BitVec.ofNat 12 (argOf hd).toNat) 0#8 = hd := by
  obtain ⟨-, -, hb⟩ := (header_and_eq_zero hd 0#4 0#12 0xFF#8).mp h
  exact header_eq ho rfl (by simp) (eq_zero_of_mbz hb)

/-- The header of `RDCSR` (R97). -/
theorem header_of_rdcsr {hd : Word} (ho : (opcOf hd).toNat = 0x40) (h : hd &&& 0x00F000FF#32 = 0#32) :
    header 0x40#8 0#4 (argOf hd) 0#8 = hd := by
  obtain ⟨hk, -, hb⟩ := (header_and_eq_zero hd 0xF#4 0#12 0xFF#8).mp h
  exact header_eq ho (eq_zero_of_mbz hk) rfl (eq_zero_of_mbz hb)

/-- The command that a clear header and a payload of its length build is written as that header and payload. -/
theorem encode_of_build {hd mbz : Word} {pay : List Word} {i : Instr} (hmask : mbzMask (opcOf hd) = some mbz)
    (hclear : hd &&& mbz = 0#32) (hlen : pay.length = plen hd) (hbuild : build hd pay = some i) :
    i.wellFormed = true ∧ encode i = hd :: pay := by
  unfold build at hbuild
  split at hbuild
  case h_23 => cases hbuild -- a reserved opcode
  all_goals
    rename_i ho
    simp only [plen, mbzMask, ho, Option.some.injEq] at hlen hmask hbuild
    subst hmask hbuild
  -- `NOP` to `COMMIT`
  case h_1 | h_2 | h_3 | h_4 | h_5 | h_6 =>
    exact ⟨rfl, List.cons_eq_cons.mpr ⟨header_of_bare ho hclear, (List.eq_nil_of_length_eq_zero hlen).symm⟩⟩
  -- `CFG.NONE`
  case h_7 =>
    exact ⟨rfl, List.cons_eq_cons.mpr ⟨header_of_slot ho hclear, (List.eq_nil_of_length_eq_zero hlen).symm⟩⟩
  -- `CFG.SQL`
  case h_8 =>
    exact ⟨rfl, List.cons_eq_cons.mpr ⟨header_of_slot ho hclear, fWords_valAt_of_length_four hlen⟩⟩
  -- `CFG.FMD`
  case h_9 =>
    exact ⟨rfl, List.cons_eq_cons.mpr ⟨header_of_flag ho hclear, (List.eq_nil_of_length_eq_zero hlen).symm⟩⟩
  -- `CFG.FIR`
  case h_10 =>
    obtain ⟨lm, rfl⟩ := List.length_eq_one_iff.mp hlen
    exact ⟨rfl, List.cons_eq_cons.mpr ⟨header_of_flag ho hclear, by simp⟩⟩
  -- `CFG.RSP`
  case h_11 =>
    obtain ⟨lm, ws, rfl⟩ := List.exists_cons_of_length_eq_add_one hlen
    have hws : ws.length = 2 := Nat.succ.inj hlen
    refine ⟨rfl, List.cons_eq_cons.mpr ⟨header_of_flag ho hclear, List.cons_eq_cons.mpr ⟨lOf_mOf lm, ?_⟩⟩⟩
    exact fWords_valAt_of_length_two hws
  -- `CFG.STR`
  case h_12 =>
    exact ⟨rfl, List.cons_eq_cons.mpr ⟨header_of_str ho hclear, fWords_valAt_of_length_six hlen⟩⟩
  -- `LDTAP`
  case h_13 =>
    obtain ⟨hcount, hwords⟩ := flatMap_fsOf _ pay hlen
    refine ⟨decide_eq_true (by rw [hcount]; omega), List.cons_eq_cons.mpr ⟨?_, hwords⟩⟩
    rw [hcount, header_of_ldtap ho hclear]
  -- `LDITB`
  case h_14 =>
    obtain ⟨hcount, hwords⟩ := flatMap_fsOf _ pay hlen
    refine ⟨decide_eq_true (by rw [hcount]; omega), List.cons_eq_cons.mpr ⟨?_, hwords⟩⟩
    rw [hcount]
    exact header_eq ho rfl rfl (by simp)
  -- `SET.FS` to `SET.FC`
  case h_15 | h_16 | h_17 | h_18 | h_19 | h_20 | h_21 =>
    exact ⟨rfl, List.cons_eq_cons.mpr ⟨header_of_bare ho hclear, fWords_valAt_of_length_two hlen⟩⟩
  -- `RDCSR`
  case h_22 =>
    exact ⟨rfl, List.cons_eq_cons.mpr ⟨header_of_rdcsr ho hclear, (List.eq_nil_of_length_eq_zero hlen).symm⟩⟩

/-- Settles O2: an accepted packet is a clear header and a payload of its length, and these are what the command they
build is written as. -/
theorem encodeOfDecode : Obligations.EncodeOfDecode := by
  intro ws rest i h
  obtain ⟨hd, tail, mbz, rfl, hmask, hlen, hclear, hbuild, rfl⟩ := decode_instr h
  obtain ⟨hwf, hwords⟩ := encode_of_build hmask hclear (List.length_take_of_le hlen) hbuild
  exact ⟨hwf, by rw [hwords, List.cons_append, List.take_append_drop]⟩

end Sys2Proof
end

section
/-! PROOFS. What the command port does with the packet in front (30_encoding.md R90, R94, R96 to R99): it is executed, or
answered by one status word; and no other agent answers. -/

namespace Sys2Proof.Machine

/-! ### What the decoder finds -/

/-- The opcodes without a row in the table of 30_encoding.md R95 have no mask. -/
theorem mbzMask_of_reserved {o : BitVec 8}
    (h : (0x06 ≤ o.toNat ∧ o.toNat ≤ 0x0F) ∨ (0x16 ≤ o.toNat ∧ o.toNat ≤ 0x1F) ∨
      (0x22 ≤ o.toNat ∧ o.toNat ≤ 0x2F) ∨ (0x37 ≤ o.toNat ∧ o.toNat ≤ 0x3F) ∨ 0x41 ≤ o.toNat) : mbzMask o = none := by
  unfold mbzMask
  split
  case h_23 => rfl
  all_goals omega

/-- The masks of 30_encoding.md R97 that have a bit. -/
theorem mbzMask_of_opcode {o : BitVec 8} {mask : Word}
    (h : ((o.toNat ≤ 0x05 ∨ (0x30 ≤ o.toNat ∧ o.toNat ≤ 0x36)) ∧ mask = 0x00FFFFFF#32) ∨
      ((o.toNat = 0x10 ∨ o.toNat = 0x11) ∧ mask = 0x000FFFFF#32) ∨
      ((o.toNat = 0x12 ∨ o.toNat = 0x13 ∨ o.toNat = 0x14) ∧ mask = 0x000FFEFF#32) ∨
      (o.toNat = 0x15 ∧ mask = 0x000FF0E0#32) ∨ (o.toNat = 0x20 ∧ mask = 0x000000FF#32) ∨
      (o.toNat = 0x40 ∧ mask = 0x00F000FF#32)) : mbzMask o = some mask := by
  unfold mbzMask
  generalize o.toNat = n at h ⊢
  obtain ⟨hlow | hset, rfl⟩ | ⟨hn, rfl⟩ | ⟨hn, rfl⟩ | ⟨rfl, rfl⟩ | ⟨rfl, rfl⟩ | ⟨rfl, rfl⟩ := h
  · interval_cases n <;> rfl
  · obtain ⟨hlo, hhi⟩ := hset
    interval_cases n <;> rfl
  · obtain rfl | rfl := hn <;> rfl
  · obtain rfl | rfl | rfl := hn <;> rfl
  · rfl
  · rfl
  · rfl

theorem decode_of_reserved {h : Word} {tail : List Word} (hmask : mbzMask (opcOf h) = none) :
    decode (h :: tail) = .reserved (opcOf h) tail := by
  rw [decode, hmask]

theorem decode_of_badField {h mbz : Word} {tail : List Word} (hmask : mbzMask (opcOf h) = some mbz)
    (hlen : plen h ≤ tail.length) (hbit : h &&& mbz ≠ 0#32) : decode (h :: tail) = .badField (tail.drop (plen h)) := by
  simp [decode, hmask, hlen, hbit]

/-! ### The step of the command agent -/

theorem step_hostCmd {s : State} (h : s.nextAgent = .hostCmd) : step s = hostCmd s.advancePlan := by
  rw [step, h, agentStep]

theorem hostCmd_of_instr {s : State} {i : Instr} {rest : List Word} (h : decode s.cmdIn = .instr i rest) :
    hostCmd s = exec i { s with cmdIn := rest } := by
  rw [hostCmd, h]

theorem hostCmd_of_reserved {s : State} {o : BitVec 8} {rest : List Word} (h : decode s.cmdIn = .reserved o rest) :
    hostCmd s = .next ({ s with cmdIn := rest }.answers [statusWord .errOpcode (o.setWidth 24)]) := by
  rw [hostCmd, h]
  rfl

theorem hostCmd_of_badField {s : State} {rest : List Word} (h : decode s.cmdIn = .badField rest) :
    hostCmd s = .next ({ s with cmdIn := rest }.answers [statusWord .errField 0#24]) := by
  rw [hostCmd, h]
  rfl

/-- Settles O6: the command agent's step on a whole packet. -/
theorem stepRunsDecodedCommand : Obligations.StepRunsDecodedCommand := by
  intro s i rest hagent hdecode
  rw [step_hostCmd hagent, hostCmd_of_instr (by rwa [advancePlan_cmdIn])]

/-- A status word as a number (30_encoding.md R98): the code stands above the 24 bits of `info`. -/
theorem statusWord_toNat (c : Status) (info : BitVec 24) :
    (statusWord c info).toNat = c.code.toNat * 2 ^ 24 + info.toNat := by
  rw [statusWord, BitVec.toNat_append, ← Nat.shiftLeft_add_eq_or_of_lt info.isLt, Nat.shiftLeft_eq]

theorem statusWord_errOpcode (o : BitVec 8) :
    statusWord .errOpcode (o.setWidth 24) = BitVec.ofNat 32 (0x01000000 + o.toNat) := by
  have ho := o.isLt
  refine BitVec.eq_of_toNat_eq ?_
  rw [statusWord_toNat, BitVec.toNat_setWidth_of_le (by omega), BitVec.toNat_ofNat, Nat.mod_eq_of_lt (by omega)]
  rfl

/-- Settles O4: a reserved opcode has no mask, and the decoder takes its one word. -/
theorem reservedOpcodeAnswered : Obligations.ReservedOpcodeAnswered := by
  intro s h tail o hagent hport hreserved
  have hdecode : decode s.advancePlan.cmdIn = .reserved (opcOf h) tail := by
    rw [advancePlan_cmdIn, hport, decode_of_reserved (mbzMask_of_reserved hreserved)]
  rw [step_hostCmd hagent, hostCmd_of_reserved hdecode, statusWord_errOpcode]
  rfl

/-- Settles O5: the mask is the opcode's, and the decoder takes the whole packet. -/
theorem mustBeZeroRefused : Obligations.MustBeZeroRefused := by
  intro s h mask tail o hagent hport hlen hopcode hbit
  have hdecode : decode s.advancePlan.cmdIn = .badField (tail.drop (plen h)) := by
    rw [advancePlan_cmdIn, hport, decode_of_badField (mbzMask_of_opcode hopcode) hlen hbit]
  rw [step_hostCmd hagent, hostCmd_of_badField hdecode]
  rfl

/-! ### The slot check and the kind check -/

/-- A slot number outside the engine is refused before anything else is looked at (30_encoding.md R94 step 4). -/
theorem refusal_of_no_slot {s : State} {i : Instr} (h : slotExists s i = false) : refusal s i = some (.errSlot, 0#24) := by
  simp [refusal, h]

/-- A kind the command does not apply to is refused after the slot and lifecycle checks, before the ranges are looked at
(30_encoding.md R94 step 6). -/
theorem refusal_of_kind {s : State} {i : Instr} (hslot : slotExists s i = true) (hlegal : legalIn i s.lc = true)
    (hkind : kindTakes s i = false) : refusal s i = some (.errKind, 0#24) := by
  simp [refusal, hslot, hlegal, hkind]

/-- Settles O7: the first failing check answers. -/
theorem slotAndKindRefused : Obligations.SlotAndKindRefused := by
  refine fun s k => ⟨fun hk i hi => ?_, fun hk hlc hfir hrsp taps => ?_, fun hk hlc hstr row coeffs => ?_⟩
  · have hslot : slotExists s i = false := by simp [slotExists, hi, hk]
    exact exec_of_refused (refusal_of_no_slot hslot)
  · have hslot : slotExists s (.ldtap k taps) = true := decide_eq_true hk
    have hkind : kindTakes s (.ldtap k taps) = false := by simp [kindTakes, hfir, hrsp]
    exact exec_of_refused (refusal_of_kind hslot (decide_eq_true hlc) hkind)
  · have hslot : slotExists s (.lditb k row coeffs) = true := decide_eq_true hk
    have hkind : kindTakes s (.lditb k row coeffs) = false := decide_eq_false hstr
    exact exec_of_refused (refusal_of_kind hslot (decide_eq_true hlc) hkind)

/-! ### One response per command -/

/-- No agent beside the command port writes a response. -/
theorem agentStep_resp {a : Agent} {s t : State} (ha : a ≠ .hostCmd) (h : agentStep a s = .next t) : t.resp = s.resp := by
  cases a with
  | hostCmd => exact absurd rfl ha
  | hostSrc =>
    cases h
    rcases hostSrc_cases s with e | ⟨x, rest, -, -, -, ⟨-, e⟩ | ⟨-, e⟩⟩ <;> simp [e]
  | hostSnk =>
    cases h
    rcases hostSnk_cases s with e | ⟨v, q, -, -, -, ⟨-, e⟩ | ⟨-, e⟩⟩ <;> simp [e]
  | hostIo =>
    cases h
    rcases hostIo_cases s with ⟨-, e⟩ | ⟨-, e⟩ <;> simp [e]
  | stage k =>
    obtain ⟨-, hresp, -⟩ := stageIsolation s t k h
    exact hresp
  | sched =>
    cases h
    rcases schedHalt_cases s with ⟨-, -, -, e⟩ | e <;> rw [e]

/-- What is read at a register does not depend on the command port or the schedule. -/
theorem csr_consumed (s : State) (rest : List Word) (n : BitVec 12) :
    State.csr { s.advancePlan with cmdIn := rest } n = s.csr n := by
  unfold State.advancePlan
  split <;> rfl

/-- `t` has one more word at the response port than `s`. -/
def AnsweredOnce (s t : State) : Prop := ∃ w, t.resp = s.resp ++ [w]

theorem answeredOnce_rejectConfig (s : State) (c : FaultCode) (k : BitVec 4) : AnsweredOnce s (s.rejectConfig c k) :=
  ⟨_, by rw [State.rejectConfig, respond_resp, raiseFault_resp]⟩

theorem answeredOnce_startEffect (s : State) : AnsweredOnce s (startEffect s) := by
  unfold startEffect
  dsimp only
  split
  · exact ⟨_, rfl⟩
  · exact answeredOnce_rejectConfig ..

theorem answeredOnce_commitEffect (s : State) : AnsweredOnce s (commitEffect s) := by
  unfold commitEffect
  split
  · exact ⟨_, rfl⟩
  · exact answeredOnce_rejectConfig ..

theorem answeredOnce_stopEffect (s : State) : AnsweredOnce s (stopEffect s) := by
  unfold stopEffect
  split <;> exact ⟨_, rfl⟩

theorem answeredOnce_waitEffect {s : State} (h : waitEnabled s = true) : AnsweredOnce s (waitEffect s) := by
  rw [waitEffect, if_pos h]
  exact ⟨_, rfl⟩

/-- `WAIT` is enabled wherever no stage will step again (40_commands.md R124). -/
theorem waitEnabled_of_not_live {s : State} (h : ¬(s.lc = .running ∨ s.lc = .stopping)) : waitEnabled s = true := by
  cases hlc : s.lc <;> simp_all [waitEnabled]

/-- Every command that takes effect is answered by one status word, but `RDCSR` and a `WAIT` that holds the port. -/
theorem answeredOnce_effect {i : Instr} {s : State} (hwait : i = .wait → ¬(s.lc = .running ∨ s.lc = .stopping))
    (hread : ∀ n, i ≠ .rdcsr n) : AnsweredOnce s (effect i s) := by
  cases i with
  | start => exact answeredOnce_startEffect s
  | stop => exact answeredOnce_stopEffect s
  | wait => exact answeredOnce_waitEffect (waitEnabled_of_not_live (hwait rfl))
  | commit => exact answeredOnce_commitEffect s
  | rdcsr n => exact absurd rfl (hread n)
  | _ => exact ⟨_, rfl⟩

/-- `RDCSR` of a register answers a status word and the two words of its value (40_commands.md R160). -/
theorem readCsrEffect_resp {s : State} {n : BitVec 12} (h : rangeError s (.rdcsr n) = none) :
    ∃ v, s.csr n = some v ∧
      (readCsrEffect n s).resp = s.resp ++ [0x00000000#32, v.extractLsb' 0 32, v.extractLsb' 32 32] := by
  cases hv : s.csr n with
  | none => simp [rangeError, hv] at h
  | some v => exact ⟨v, rfl, by rw [readCsrEffect, hv]; rfl⟩

/-- A command is answered by one status word, whether refused or not, or it reads a register and is answered by its value. -/
theorem exec_answers {i : Instr} {s t : State} (h : exec i s = .next t)
    (hwait : i = .wait → ¬(s.lc = .running ∨ s.lc = .stopping)) :
    AnsweredOnce s t ∨ ∃ n v, i = .rdcsr n ∧ s.csr n = some v ∧
      t.resp = s.resp ++ [0x00000000#32, v.extractLsb' 0 32, v.extractLsb' 32 32] := by
  rw [exec_eq] at h
  rcases command_cases h with ⟨c, info, -, rfl⟩ | ⟨hok, rfl⟩
  · exact .inl ⟨_, rfl⟩
  by_cases hread : ∃ n, i = .rdcsr n
  · obtain ⟨n, rfl⟩ := hread
    obtain ⟨-, -, -, hrange⟩ := (accepted_iff s _).mp hok
    obtain ⟨v, hv, hresp⟩ := readCsrEffect_resp hrange
    exact .inr ⟨n, v, rfl, hv, hresp⟩
  · exact .inl (answeredOnce_effect hwait (not_exists.mp hread))

/-- Settles O28: the answer is that of `exec` in the state in which the packet has been consumed, which has the responses,
the lifecycle state and the registers of `s`. -/
theorem oneResponsePerCommand : Obligations.OneResponsePerCommand := by
  intro s t h
  refine ⟨fun ha => (agentStep_resp ha h).trans (advancePlan_resp s), fun i hi hwait => ?_⟩
  obtain ⟨hagent, rest, hdecode⟩ := hi
  rw [stepRunsDecodedCommand s i rest hagent hdecode] at h
  have hanswers := exec_answers h fun hi hlive => hwait ⟨hi, by rwa [advancePlan_lc] at hlive⟩
  simp only [csr_consumed] at hanswers
  simpa only [AnsweredOnce, advancePlan_resp] using hanswers

end Sys2Proof.Machine
end

section
/-! PROOFS. The commands that write at most one register (40_commands.md R120, R123, R124, R126, R150 to R156, R160): each is
refused in the lifecycle states it is not legal in, and otherwise passes its checks and has its effect. -/

namespace Sys2Proof.Machine

/-! ### The example words -/

/-- The words a command is written as are read as that command. -/
theorem decode_of_encode_eq {ws : List Word} {i : Instr} (hwf : i.wellFormed = true) (h : encode i = ws) :
    decode ws = .instr i [] := by
  rw [← h, ← decodeOfEncode i [] hwf, List.append_nil]

/-- Settles O3: the words are those the encoder writes. -/
theorem exampleWordsDecode : Obligations.ExampleWordsDecode :=
  ⟨decode_of_encode_eq rfl rfl, decode_of_encode_eq rfl rfl, decode_of_encode_eq rfl rfl, decode_of_encode_eq rfl rfl,
    decode_of_encode_eq rfl rfl, decode_of_encode_eq rfl rfl, decode_of_encode_eq rfl rfl, decode_of_encode_eq rfl rfl,
    decode_of_encode_eq rfl rfl⟩

/-! ### The lifecycle check -/

theorem slotExists_of_lt {s : State} {i : Instr} {k : BitVec 4} (hi : slotOperand i = some k)
    (hk : k.toNat < s.par.nslot) : slotExists s i = true := by
  simp [slotExists, hi, hk]

/-- A command met in a state it is not legal in is refused after the slot check, before its kind and its ranges are looked
at (30_encoding.md R94 step 5). -/
theorem refusal_of_illegal {s : State} {i : Instr} (hslot : slotExists s i = true) (hlegal : legalIn i s.lc = false) :
    refusal s i = some (.errState, 0#24) := by
  simp [refusal, hslot, hlegal]

theorem exec_of_illegal {s : State} {i : Instr} (hslot : slotExists s i = true) (hlegal : legalIn i s.lc = false) :
    exec i s = .next (s.answers [0x04000000#32]) :=
  exec_of_refused (refusal_of_illegal hslot hlegal)

/-- Of the commands on a slot, `LDTAP` alone is legal while the pipeline runs (40_commands.md R120). -/
theorem legalIn_of_slotOperand {i : Instr} {k : BitVec 4} (hi : slotOperand i = some k)
    (hnot : ∀ taps, i ≠ .ldtap k taps) (lc : Lifecycle) : legalIn i lc = decide (lc = .idle ∨ lc = .halted) := by
  cases i with
  | cfgNone | cfgSql | cfgFmd | cfgFir | cfgRsp | cfgStr | lditb => rfl
  | ldtap j taps => cases hi; exact absurd rfl (hnot taps)
  | nop | reset | start | stop | wait | commit | setFs | setRffs | setDev | setBaud | setThr | setLg | setFc | rdcsr =>
    cases hi

/-- The tunable commands take no slot, and are legal outside `FAULTED` (40_commands.md R120). -/
theorem legalIn_of_set {v : F} {i : Instr}
    (hi : i ∈ [Instr.setFs v, .setRffs v, .setDev v, .setBaud v, .setThr v, .setLg v, .setFc v]) :
    slotOperand i = none ∧ ∀ lc, legalIn i lc = decide (lc ≠ .faulted) := by
  simp only [List.mem_cons, List.not_mem_nil, or_false] at hi
  rcases hi with rfl | rfl | rfl | rfl | rfl | rfl | rfl <;> exact ⟨rfl, fun _ => rfl⟩

/-- Settles O8: the slot is one of the engine's, or the command takes none, and the lifecycle check answers. -/
theorem illegalStateRefused : Obligations.IllegalStateRefused := by
  intro s
  have hstopped (hlc : s.lc = .running ∨ s.lc = .stopping ∨ s.lc = .faulted) :
      decide (s.lc = .idle ∨ s.lc = .halted) = false := by
    rcases hlc with hlc | hlc | hlc <;> simp [hlc]
  refine ⟨fun hlc => ?_, fun hlc => ?_, fun hlc i k hi hk hnot => ?_, fun hlc k taps hk => ?_, fun hlc v i hi => ?_⟩
  · exact exec_of_illegal rfl (hstopped hlc)
  · have hlegal : legalIn .commit s.lc = false := by
      rcases hlc with hlc | hlc | hlc <;> simp [legalIn, hlc]
    exact exec_of_illegal rfl hlegal
  · exact exec_of_illegal (slotExists_of_lt hi hk) ((legalIn_of_slotOperand hi hnot s.lc).trans (hstopped hlc))
  · exact exec_of_illegal (slotExists_of_lt rfl hk) (decide_eq_false (not_not.mpr hlc))
  · obtain ⟨hslot, hlegal⟩ := legalIn_of_set hi
    exact exec_of_illegal (by simp [slotExists, hslot]) ((hlegal s.lc).trans (decide_eq_false (not_not.mpr hlc)))

/-! ### Commands that pass their checks -/

/-- A command that passes each of the four checks has its effect (30_encoding.md R94 steps 4 to 7). -/
theorem exec_of_checks {s : State} {i : Instr} (hslot : slotExists s i = true) (hlegal : legalIn i s.lc = true)
    (hkind : kindTakes s i = true) (hrange : rangeError s i = none) : exec i s = .next (effect i s) :=
  exec_of_accepted ((accepted_iff s i).mpr ⟨hslot, hlegal, hkind, hrange⟩)

/-- The status word of an accepted command is its `info` (30_encoding.md R98, R99). -/
theorem statusWord_ok_ofNat {n : Nat} (h : n < 2 ^ 24) : statusWord .ok (BitVec.ofNat 24 n) = BitVec.ofNat 32 n := by
  refine BitVec.eq_of_toNat_eq ?_
  rw [statusWord_toNat, BitVec.toNat_ofNat, BitVec.toNat_ofNat, Nat.mod_eq_of_lt h, Nat.mod_eq_of_lt (by omega)]
  exact Nat.zero_add n

theorem stopEffect_of_running {s : State} (h : s.lc = .running) :
    stopEffect s = { s with lc := .stopping }.answers [0x00000000#32] := by
  rw [stopEffect, if_pos h]
  rfl

theorem stopEffect_of_not_running {s : State} (h : s.lc ≠ .running) : stopEffect s = s.answers [0x00000000#32] := by
  rw [stopEffect, if_neg h]
  rfl

/-- Settles O10: neither command is ever refused. -/
theorem nopAndStop : Obligations.NopAndStop := by
  intro s
  have hstop : exec .stop s = .next (stopEffect s) := exec_of_checks rfl rfl rfl rfl
  refine ⟨exec_of_checks rfl rfl rfl rfl, fun hlc => ?_, fun hlc => ?_⟩
  · rw [hstop, stopEffect_of_running hlc]
  · rw [hstop, stopEffect_of_not_running hlc]

/-- No check refuses `WAIT`; where it is not enabled, its effect is to stay. -/
theorem exec_wait (s : State) : exec .wait s = .next (waitEffect s) := exec_of_checks rfl rfl rfl rfl

/-- The word `WAIT` answers: `LC`, `FCODE` and `FSLOT` from the low bits up (30_encoding.md R98). -/
theorem statusWord_waitInfo (s : State) :
    statusWord .ok (waitInfo s) =
      BitVec.ofNat 32 (s.lc.code + s.fcode.code * 0x100 + s.fslot.toNat * 0x10000) := by
  have hlc := lifecycle_code_lt s.lc
  have hcode := faultCode_code_lt s.fcode
  have hslot := s.fslot.isLt
  exact statusWord_ok_ofNat (by omega)

/-- Settles O13: the step is enabled, and the answer is read off the word. -/
theorem waitAnswers : Obligations.WaitAnswers := by
  intro s hlc
  have henabled : waitEnabled s = true := decide_eq_true hlc
  rw [exec_wait, waitEffect, if_pos henabled, State.respond, statusWord_waitInfo]
  rfl

theorem waitEnabled_of_live {s : State} (h : s.lc = .running ∨ s.lc = .stopping) : waitEnabled s = false := by
  rcases h with h | h <;> simp [waitEnabled, h]

/-- Settles O14: the packet is consumed and, as the step is not enabled, put back in front. -/
theorem waitHoldsThePort : Obligations.WaitHoldsThePort := by
  intro s rest hagent hlc hport
  have hdecode : decode s.cmdIn = .instr .wait rest := by
    rw [hport]
    exact decodeOfEncode .wait rest rfl
  have hdisabled : waitEnabled { s.advancePlan with cmdIn := rest } = false :=
    waitEnabled_of_live (by rwa [advancePlan_lc])
  have hback : s.advancePlan.cmdIn = encode .wait ++ rest := by
    rw [advancePlan_cmdIn, hport]
    rfl
  rw [stepRunsDecodedCommand s .wait rest hagent hdecode, exec_wait, waitEffect, hdisabled, if_neg Bool.false_ne_true,
    ← hback]

/-- Settles O23: outside `FAULTED` no check refuses a tunable command. -/
theorem setTunable : Obligations.SetTunable := by
  intro s v hlc
  have hlegal : decide (s.lc ≠ .faulted) = true := decide_eq_true hlc
  exact ⟨exec_of_checks rfl hlegal rfl rfl, exec_of_checks rfl hlegal rfl rfl, exec_of_checks rfl hlegal rfl rfl,
    exec_of_checks rfl hlegal rfl rfl, exec_of_checks rfl hlegal rfl rfl, exec_of_checks rfl hlegal rfl rfl,
    exec_of_checks rfl hlegal rfl rfl⟩

/-- Settles O24: a number that is a register passes the range check. -/
theorem readRegister : Obligations.ReadRegister := by
  intro s n v hv
  have hrange : rangeError s (.rdcsr n) = none := by simp [rangeError, hv]
  rw [exec_of_checks rfl rfl rfl hrange, effect, readCsrEffect, hv]
  rfl

end Sys2Proof.Machine
end

section
/-! PROOFS. The commands that write one slot (40_commands.md R129 to R142): `CFG.*` gives it its reset values and a
configuration, `LDTAP` writes its pending tap bank, `LDITB` one row of its table. -/

namespace Sys2Proof.Machine

/-! ### `CFG.*` -/

/-- A slot at its reset values, but for its configuration (40_commands.md R129). -/
theorem slotCleared_configured (p : Params) (c : SlotCfg) : SlotCleared p c { Slot.reset p with cfg := c } :=
  { slotCleared_reset p with cfg := rfl }

/-- What a command does that is legal where the pipeline does not run, and configures a slot of the engine. -/
theorem exec_of_configure {s : State} {i : Instr} {k : BitVec 4} {c : SlotCfg} (hlc : s.lc = .idle ∨ s.lc = .halted)
    (hk : k.toNat < s.par.nslot) (hi : slotOperand i = some k) (hnot : ∀ taps, i ≠ .ldtap k taps)
    (hkind : kindTakes s i = true) (hrange : rangeError s i = none) (heffect : effect i s = configure k c s) :
    ∃ x, SlotCleared s.par c x ∧ exec i s = .next ((s.setSlot k.toNat x).answers [0x00000000#32]) := by
  have hlegal : legalIn i s.lc = true := (legalIn_of_slotOperand hi hnot s.lc).trans (decide_eq_true hlc)
  refine ⟨_, slotCleared_configured s.par c, ?_⟩
  rw [exec_of_checks (slotExists_of_lt hi hk) hlegal hkind hrange, heffect]
  rfl

/-- Settles O20: the six commands differ in the configuration alone. -/
theorem configureSlot : Obligations.ConfigureSlot := by
  refine fun s k hlc hk => ⟨?_, fun alpha hyst => ?_, fun rsel => ?_, fun cplx l m => ?_, fun cplx l m fbw => ?_,
    fun lognph nt delta kp plim => ?_⟩ <;>
    exact exec_of_configure hlc hk rfl (fun _ h => nomatch h) rfl rfl rfl

/-! ### `LDTAP` -/

section
variable (t : TapMem) (b : Bool) (vs : List F)

@[simp] theorem TapMem.load_act : (t.load b vs).act = t.act := by cases b <;> rfl
@[simp] theorem TapMem.load_dirty : (t.load b vs).dirty = true := by cases b <;> rfl
@[simp] theorem TapMem.load_count : (t.load b vs).count b = vs.length := by cases b <;> rfl
@[simp] theorem TapMem.load_bank : (t.load b vs).bank b = Mem.writeAll (t.bank b) 0 vs := by cases b <;> rfl
@[simp] theorem TapMem.load_count_other : (t.load (!b) vs).count b = t.count b := by cases b <;> rfl
@[simp] theorem TapMem.load_bank_other : (t.load (!b) vs).bank b = t.bank b := by cases b <;> rfl

end

theorem SlotWf.bank {p : Params} {x : Slot} (h : SlotWf p x) (b : Bool) : Mem.Wf (x.taps.bank b) := by
  cases b
  · exact h.bank0
  · exact h.bank1

/-- Settles O21: the command passes its checks, and the loaded bank reads back. -/
theorem loadTaps : Obligations.LoadTaps := by
  intro s k taps hwf hlc hk hkind hlen old
  have hslot : SlotWf s.par (s.slot k.toNat) := hwf.slot k.toNat
  refine ⟨old.load (!old.act) taps, ?_, old.load_act _ _, old.load_dirty _ _, old.load_bank_other _ _,
    old.load_count_other _ _, old.load_count _ _, old.load_vector _ _ hslot.bank0 hslot.bank1, fun j hj => ?_⟩
  · exact exec_of_checks (slotExists_of_lt rfl hk) (decide_eq_true hlc) (decide_eq_true hkind) (if_pos hlen)
  · rw [TapMem.load_bank, Mem.read_writeAll _ _ _ _ (hslot.bank _), if_neg (by omega)]

/-! ### `LDITB` -/

/-- Loading row `r` sets its valid bit and no other (10_state.md R27). -/
theorem InterpTable.load_valid (p : Params) (t : InterpTable) {r : Nat} (hr : r < 1025) (vs : List F) (j : Nat) :
    (t.load p r vs).valid.getLsbD j = (decide (j = r) || t.valid.getLsbD j) := by
  rw [InterpTable.load, BitVec.getLsbD_or, BitVec.getLsbD_twoPow, Bool.or_comm]
  simp [hr, eq_comm]

/-- What every entry of the table reads after a row is loaded. -/
theorem InterpTable.read_load (p : Params) (t : InterpTable) (r : Nat) (vs : List F) (a : Nat) (h : Mem.Wf t.coeffs) :
    Mem.read (t.load p r vs).coeffs a =
      if r * p.ntmax ≤ a ∧ a < r * p.ntmax + vs.length then vs.getD (a - r * p.ntmax) posZero else Mem.read t.coeffs a :=
  Mem.read_writeAll vs t.coeffs (r * p.ntmax) a h

/-- Settles O22: the row is one of the table's, and its entries are consecutive. -/
theorem loadTableRow : Obligations.LoadTableRow := by
  intro s k row coeffs hwf hlc hk hkind hnt hntmax hlog hrow old
  have hcoeffs : Mem.Wf old.coeffs := (hwf.slot k.toNat).coeffs
  have hlt : row.toNat < 1025 := by
    obtain ⟨-, -, -, -, -, hmax⟩ := hwf.par
    have hrows : 2 ^ (s.slot k.toNat).cfg.lognph.toNat ≤ 2 ^ 10 := Nat.pow_le_pow_right (by decide) (hlog.trans hmax)
    omega
  refine ⟨old.load s.par row.toNat coeffs, ?_, old.load_valid s.par hlt coeffs, fun j hj => ?_, fun a ha => ?_⟩
  · exact exec_of_checks (slotExists_of_lt rfl hk) (decide_eq_true hlc) (decide_eq_true hkind)
      (if_pos ⟨hnt, hntmax, hlog, hrow⟩)
  · rw [InterpTable.read_load _ _ _ _ _ hcoeffs, if_pos (by omega), Nat.add_sub_cancel_left]
    simp [hj]
  · rw [InterpTable.read_load _ _ _ _ _ hcoeffs, if_neg (by omega)]

end Sys2Proof.Machine
end

section
/-! PROOFS. What a successful `START` or `COMMIT` leaves (40_commands.md R122, R125, R127, R128; 10_state.md R43), whatever
the numeric record: a candidate that passes validation has its geometry within the derived registers' widths, so these hold
the values of 45_str.md R253 and not their remainders. -/

namespace Sys2Proof.Machine

/-! ### Adoption and derivation -/

theorem adoptedTaps_adopt (u : TapMem) : AdoptedTaps u u.adopt := by
  unfold TapMem.adopt
  split
  · rename_i hdirty
    exact ⟨rfl, rfl, rfl, rfl, rfl, by rw [if_pos hdirty]⟩
  · rename_i hclean
    exact ⟨rfl, rfl, rfl, rfl, Bool.eq_false_iff.mpr hclean, by rw [if_neg hclean]⟩

/-- A timing recovery slot whose checks hold (60_exceptions.md R305 checks (a) and (c)): `DELTA` has a ceiling, the taps
have a middle, and the window fits its 8-bit register. -/
theorem str_geometry_of_checks {p : Params} {t : Tunables} {x : Slot} (hp : p.Ok) (hk : x.cfg.kind = .str)
    (h : ∀ c ∈ slotChecks p t x, c.1 = true) :
    p.record.finite x.cfg.par1 = true ∧ 2 ≤ x.cfg.nt.toNat ∧ wOf p.record x.cfg < 256 := by
  obtain ⟨-, -, -, ⟨-, hhlen⟩, -⟩ := hp
  simp only [slotChecks, hk, checkStr, strParamsGood, positive, List.forall_mem_cons, Bool.and_eq_true,
    decide_eq_true_eq] at h
  obtain ⟨⟨⟨⟨⟨⟨⟨⟨-, hnt⟩, -⟩, -⟩, hfinite, -⟩, -⟩, -⟩, -⟩, -, hw, -⟩ := h
  exact ⟨hfinite, hnt, by omega⟩

/-- The derived registers of a slot whose checks hold are those of its kind (40_commands.md R128). -/
theorem derivedFrom_deriveSlot {p : Params} {t : Tunables} {x : Slot} (hp : p.Ok)
    (h : ∀ c ∈ slotChecks p t x, c.1 = true) : DerivedFrom p.record t (deriveSlot p.record t x) := by
  unfold DerivedFrom
  rw [deriveSlot_cfg]
  cases hk : x.cfg.kind with
  | none | fir | rsp => trivial
  | sql => simp [deriveSlot, hk, thoOf, thcOf]
  | fmd => simp [deriveSlot, hk, gainOf, fmdRate]
  | str =>
    obtain ⟨hfinite, hnt, hw⟩ := str_geometry_of_checks hp hk h
    have hceil : p.record.ceilI x.cfg.par1 = some (p.record.ceil x.cfg.par1) := if_pos hfinite
    have hdc : dcOf p.record x.cfg = (p.record.ceil x.cfg.par1).toNat := by rw [dcOf, hceil, Option.getD_some]
    have hwOf : wOf p.record x.cfg = x.cfg.nt.toNat + 2 * dcOf p.record x.cfg + 1 := rfl
    have hcbOf : cbOf p.record x.cfg = dcOf p.record x.cfg + x.cfg.nt.toNat / 2 - 1 := rfl
    simp only [deriveSlot, hk, BitVec.toNat_ofNat]
    rw [Nat.mod_eq_of_lt (a := dcOf p.record x.cfg) (by omega), Nat.mod_eq_of_lt (a := wOf p.record x.cfg) (by omega),
      Nat.mod_eq_of_lt (a := cbOf p.record x.cfg) (by omega)]
    exact ⟨rfl, rfl, rfl, rfl, ⟨_, hceil, by rw [hdc, Int.toNat_eq_max]⟩, hwOf, by omega⟩

theorem DerivedFrom.of_eq {N : NumRecord} {t : Tunables} {x y : Slot} (h : DerivedFrom N t x) (hcfg : y.cfg = x.cfg)
    (hdv : y.dv = x.dv) : DerivedFrom N t y := by
  unfold DerivedFrom at h ⊢
  rwa [hcfg, hdv]

/-- The centre of the window lies within it (45_str.md R253). -/
theorem DerivedFrom.cb_le_w {N : NumRecord} {t : Tunables} {x : Slot} (h : DerivedFrom N t x) (hk : x.cfg.kind = .str) :
    x.dv.cb.toNat ≤ x.dv.w.toNat := by
  unfold DerivedFrom at h
  rw [hk] at h
  obtain ⟨-, -, -, -, -, hw, hcb⟩ := h
  omega

/-- Adopting a candidate that passes validation gives each stage the derived registers of its kind. -/
theorem Adopted.derivedFrom {s t : State} {n : Nat} {z : BitVec 4} (ha : Adopted s t n) (hp : s.par.Ok)
    (hn : n ≤ s.slots.length) (hv : validate s.par s.pend s.slots n = (.noFault, z)) :
    ∀ k < n, DerivedFrom s.par.record s.pend (t.slot k) := by
  intro k hk
  obtain ⟨-, -, hchecks⟩ := validate_noFault_slot hn hv
  exact (derivedFrom_deriveSlot hp (hchecks k hk)).of_eq (by rw [ha.cfg, deriveSlot_cfg]) (ha.dv k hk)

theorem Adopted.adoptedTaps {s t : State} {n : Nat} (ha : Adopted s t n) (k : Nat) :
    AdoptedTaps (s.slot k).taps (t.slot k).taps :=
  ha.taps k ▸ adoptedTaps_adopt _

/-! ### `COMMIT` -/

theorem commitEffect_of_valid {s : State} {z : BitVec 4} (h : validate s.par s.pend s.slots s.nstg = (.noFault, z)) :
    commitEffect s = s.adopt.derive.respond .ok 0#24 := by
  rw [commitEffect, h]

theorem committed_dv_of_ge (s : State) {k : Nat} (h : s.nstg ≤ k) : (s.adopt.derive.slot k).dv = (s.slot k).dv := by
  rw [committed_slot, if_neg (by omega)]

theorem committed_slots_length (s : State) : s.adopt.derive.slots.length = s.slots.length := by
  rw [derive_slots, mapFirst_length, adopt_slots, List.length_map]

/-- Settles O17: the engine after `adopt()` and `derive()`, slot by slot. -/
theorem commitSucceeds : Obligations.CommitSucceeds := by
  intro s z hwf hlc hv
  have hn : s.nstg ≤ s.slots.length := hwf.slotCount ▸ hwf.stages
  have ha := adopted_committed hn
  have hexec : exec .commit s = .next (commitEffect s) := exec_of_checks rfl (decide_eq_true hlc) rfl rfl
  rw [commitEffect_of_valid hv] at hexec
  refine ⟨_, hexec, ⟨rfl, rfl, rfl, rfl, rfl, rfl⟩, rfl, rfl, rfl, rfl, rfl, rfl, rfl, committed_slots_length s, rfl,
    fun k _ => ⟨ha.cfg k, (sameStructure_committed s).itb k, committed_rt s k, ha.adoptedTaps k⟩,
    ha.derivedFrom hwf.par hn hv, fun k _ hk => committed_dv_of_ge s hk⟩

/-! ### `START` -/

theorem startEffect_of_valid {s : State} {z : BitVec 4}
    (h : validate s.par s.pend s.slots (leading s.slots) = (.noFault, z)) :
    startEffect s = (s.started (leading s.slots)).respond .ok (BitVec.ofNat 24 (leading s.slots)) := by
  simp only [startEffect, h]

theorem started_itb (s : State) (n k : Nat) : ((s.started n).slot k).itb = (s.slot k).itb := by
  rw [started_slot]
  split <;> simp

theorem started_slot_of_lt {s : State} {n k : Nat} (hk : k < n) (hn : n ≤ s.slots.length) :
    (s.started n).slot k =
      startSlot s.par (deriveSlot s.par.record s.pend { s.slot k with taps := (s.slot k).taps.adopt }) := by
  rw [started_slot, if_pos ⟨hk, hk.trans_le hn⟩]

/-- A slot behind the pipeline keeps everything but its taps (log 16). -/
theorem started_slot_of_ge (s : State) {n k : Nat} (hk : n ≤ k) :
    (s.started n).slot k = { s.slot k with taps := (s.slot k).taps.adopt } := by
  rw [started_slot, if_neg (by omega)]

theorem started_slots_length (s : State) (n : Nat) : (s.started n).slots.length = s.slots.length := by
  have h : (s.started n).slots = mapFirst n (startSlot s.par) (State.derive { s.adopt with nstg := n }).slots := rfl
  rw [h, mapFirst_length, derive_slots, mapFirst_length]
  exact List.length_map _

theorem started_rings_length (s : State) (n : Nat) : (s.started n).rings.length = s.rings.length := List.length_mapIdx

/-- The start values of a slot (10_state.md R43), given that the window is long enough for its centre. -/
theorem started_startSlot {p : Params} {x : Slot} (hcb : x.cfg.kind = .str → x.dv.cb.toNat ≤ x.dv.w.toNat) :
    Started p (startSlot p x) := by
  refine ⟨startSlot_done p x, ?_⟩
  rw [startSlot_cfg]
  cases hk : x.cfg.kind with
  | none => trivial
  | sql | fmd | fir | rsp => simp [startSlot, hk]
  | str =>
    have hskip : (BitVec.ofNat 32 (x.dv.w.toNat - x.dv.cb.toNat)).toNat + x.dv.cb.toNat = x.dv.w.toNat := by
      have hw := x.dv.w.isLt
      have hle := hcb hk
      rw [BitVec.toNat_ofNat, Nat.mod_eq_of_lt (by omega)]
      omega
    simpa [startSlot, hk] using hskip

/-- Settles O15: the engine after `adopt()`, `derive()` and the start values, slot by slot and ring by ring. -/
theorem startSucceeds : Obligations.StartSucceeds := by
  intro s z hwf hlc hv n
  have hn : n ≤ s.slots.length := leading_le s.slots
  have ha : Adopted s (s.started n) n := adopted_started hn
  have hderived := ha.derivedFrom hwf.par hn hv
  obtain ⟨hn1, -, -⟩ := validate_noFault_slot hn hv
  obtain ⟨⟨-, hnslot⟩, -⟩ := hwf.par
  have hcount := hwf.slotCount
  have hring (e : Nat) (he : e ≤ s.par.nslot) := started_ring s n e (by rw [hwf.ringCount]; omega) hn hn1
  have hexec : exec .start s = .next (startEffect s) := exec_of_checks rfl (decide_eq_true hlc) rfl rfl
  rw [startEffect_of_valid hv] at hexec
  have hanswer : statusWord .ok (BitVec.ofNat 24 n) = BitVec.ofNat 32 n := statusWord_ok_ofNat (by omega)
  have hstarted (k : Nat) (hk : k < n) : Started s.par ((s.started n).slot k) := by
    have hslot := hderived k hk
    rw [started_slot_of_lt hk hn] at hslot ⊢
    exact started_startSlot fun hkind => by
      simpa using hslot.cb_le_w ((congrArg SlotCfg.kind (startSlot_cfg ..)).trans hkind)
  refine ⟨_, hexec, ⟨rfl, rfl, rfl, rfl, rfl, rfl⟩, congrArg (fun w => s.resp ++ [w]) hanswer, rfl, rfl, rfl, rfl, rfl, rfl,
    started_slots_length s n, started_rings_length s n,
    fun k _ => ⟨ha.cfg k, started_itb s n k, ha.adoptedTaps k⟩, fun k hk => ⟨hderived k hk, hstarted k hk⟩,
    fun k _ hk => ?_, fun e he => (hring e he).1, (hring 0 (Nat.zero_le _)).2.1 rfl,
    fun k hk => (hring (k + 1) (by omega)).2.2 k rfl hk⟩
  rw [respond_slot, started_slot_of_ge s hk]
  exact ⟨rfl, rfl⟩

end Sys2Proof.Machine
end

section
/-! PROOFS. The agents' steps around a ring (41_ring_scheduler.md R176 to R185): the source fills the first, the sink empties
the last, a stage moves samples between two, and the drain ends the run. Each step is what its enabling condition and the
data in front make it. -/

namespace Sys2Proof.Machine

variable {s : State}

/-- A fault outside `FAULTED` is latched (60_exceptions.md R320). -/
theorem raiseFault_of_ne (h : s.lc ≠ .faulted) (c : FaultCode) (k : BitVec 4) :
    s.raiseFault c k = { s with lc := .faulted, fcode := c, fslot := k } := if_neg h

/-! ### The source -/

/-- An open port with room takes the sample in front or refuses it (41_ring_scheduler.md R176). -/
theorem hostSrc_of_offered {x : Sample} {rest : List F} (hlc : s.lc = .running) (hroom : s.cnt 0 < s.par.rcap)
    (ho : offered (s.ring 0).cplx s.srcIn = some (x, rest)) :
    hostSrc s = if x.finiteOn s.par.record (s.ring 0).cplx then State.enq { s with srcIn := rest } 0 [x]
      else s.raiseFault .ioNonfinite 0xF#4 := by
  have hready : pushReady s = true := by simp [pushReady, hlc, hroom]
  simp only [hostSrc, hready, ho]

/-- A closed or full port takes nothing (41_ring_scheduler.md R176). -/
theorem hostSrc_of_not_ready (h : s.lc ≠ .running ∨ s.par.rcap ≤ s.cnt 0) : hostSrc s = s := by
  rcases hostSrc_cases s with e | ⟨_, _, hlc, hroom, -⟩
  · exact e
  · exact absurd hroom (not_lt.mpr (h.resolve_left (not_not_intro hlc)))

/-- Settles O33: one word is the sample of a real edge, two words that of a complex one. -/
theorem sourcePush : Obligations.SourcePush := by
  refine fun s => ⟨fun hlc hroom => ⟨fun w rest hreal hin => ?_, fun w v rest hcplx hin => ?_⟩,
    fun h => congrArg Host.Outcome.next (hostSrc_of_not_ready h)⟩
  all_goals
    have hne : s.lc ≠ .faulted := by simp [hlc]
    refine congrArg Host.Outcome.next ?_
  · rw [hostSrc_of_offered hlc hroom (x := { re := w, im := posZero }) (rest := rest) (by rw [hreal, hin]; rfl), hreal,
      raiseFault_of_ne hne]
    rfl
  · have hfin : Sample.finiteOn s.par.record (s.ring 0).cplx { re := w, im := v } = true ↔
        s.par.record.finite w = true ∧ s.par.record.finite v = true := by simp [finiteOn_iff, hcplx]
    rw [hostSrc_of_offered hlc hroom (x := { re := w, im := v }) (rest := rest) (by rw [hcplx, hin]; rfl),
      raiseFault_of_ne hne]
    simp only [hfin]
    rfl

/-! ### The sink -/

/-- To drain one sample, beside a delivery, is to remove the head of the queue (41_ring_scheduler.md R172). -/
theorem deliver_head {e : Nat} {v : Sample} {q : List Sample} (hq : (s.ring e).queue = v :: q) (bs : List Byte) :
    State.deq { s with snkOut := bs } e 1 =
      { s with snkOut := bs, rings := s.rings.set e { s.ring e with queue := q } } := by
  have hdrop : q = (s.ring e).queue.drop 1 := by rw [hq]; rfl
  rw [hdrop]
  rfl

/-- The head of the last ring is delivered when its binary32 patterns are finite, and refused otherwise
(41_ring_scheduler.md R177). -/
theorem hostSnk_of_head {v : Sample} {q : List Sample} (hn : 1 ≤ s.nstg) (hlc : s.lc ≠ .idle)
    (hq : (s.ring s.nstg).queue = v :: q) :
    hostSnk s = if (sinkWords s.par.record (s.ring s.nstg).cplx v).all NUM.finite32 then
        { s with
          snkOut := s.snkOut ++ (sinkWords s.par.record (s.ring s.nstg).cplx v).flatMap bytesOf
          rings := s.rings.set s.nstg { s.ring s.nstg with queue := q } }
      else s.raiseFault .numSink 0xF#4 := by
  simp only [hostSnk, hq, if_pos (And.intro hn hlc)]
  rw [deliver_head hq]

/-- Without a stage, in `IDLE` or with an empty last ring nothing is popped (41_ring_scheduler.md R177). -/
theorem hostSnk_of_not_ready (h : s.nstg = 0 ∨ s.lc = .idle ∨ (s.ring s.nstg).queue = []) : hostSnk s = s := by
  rcases hostSnk_cases s with e | ⟨v, q, hq, hn, hlc, -⟩
  · exact e
  · rcases h with h | h | h
    · omega
    · exact absurd h hlc
    · simp [hq] at h

theorem sinkWords_finite_iff (N : NumRecord) (cplx : Bool) (v : Sample) :
    (sinkWords N cplx v).all NUM.finite32 = true ↔
      NUM.finite32 (N.to32 v.re) = true ∧ (cplx = true → NUM.finite32 (N.to32 v.im) = true) := by
  cases cplx <;> simp [sinkWords]

/-- Settles O34: the patterns of the head all fit or one does not. -/
theorem sinkPop : Obligations.SinkPop := by
  refine fun s => ⟨fun v q hn hlc hq => ⟨fun hreal hre => ?_, fun hcplx hre him => ?_, fun hbad => ?_⟩,
    fun h => congrArg Host.Outcome.next (hostSnk_of_not_ready h)⟩
  all_goals
    refine congrArg Host.Outcome.next ?_
    rw [hostSnk_of_head hn hlc hq]
  · rw [if_pos ((sinkWords_finite_iff ..).mpr ⟨hre, by simp [hreal]⟩), hreal]
    rfl
  · rw [if_pos ((sinkWords_finite_iff ..).mpr ⟨hre, fun _ => him⟩), hcplx]
    rfl
  · refine if_neg fun hfit => ?_
    obtain ⟨hre, him⟩ := (sinkWords_finite_iff ..).mp hfit
    exact hbad.elim (fun h => h hre) fun ⟨hcplx, h⟩ => h (him hcplx)

/-! ### The stages -/

/-- Settles O35: an enabled invocation answers `emit` or `raise`, and the step does what it answers. -/
theorem invocationStep : Obligations.InvocationStep := by
  intro s k x ins hk hkind hlc hdone hneed hroom
  have hready : invokeReady s k = true :=
    (invokeReady_iff s k).mpr ⟨(stageLive_iff s k).mpr ⟨hk, hkind, hlc, hdone⟩, hneed, hroom⟩
  refine ⟨fun out rt h => ?_, fun h => ?_⟩
  · have hemits : Emits s k out rt := ⟨hready, h⟩
    rw [hemits.step, State.invoked, State.enq, setSlot_ring, deq_ring_other s (Nat.succ_ne_self k)]
    rfl
  · have hne : s.lc ≠ .faulted := by rcases hlc with h | h <;> simp [h]
    have h' : invoke s (s.slot k) (s.front k (s.slot k).need) = .raise := h
    simp only [agentStep, stageStep, hready, if_true, invokeStep, h', raiseFault_of_ne hne]

/-- A stage whose invocation and whose done step are both not enabled leaves the state (41_ring_scheduler.md R180, R184). -/
theorem stage_waits {k : Nat} (hinv : invokeReady s k ≠ true) (hdone : doneReady s k ≠ true) :
    agentStep (.stage k) s = .next s := by
  simp only [agentStep, stageStep, if_neg hinv, if_neg hdone]

/-- Both steps of a stage ask for a stage that is live. -/
theorem stage_waits_of_not_live {k : Nat} (h : stageLive s k ≠ true) : agentStep (.stage k) s = .next s :=
  stage_waits (fun hr => h ((invokeReady_iff s k).mp hr).1) fun hr => h ((doneReady_iff s k).mp hr).1

/-- On a short input ring only the done step is open. -/
theorem stage_waits_of_short {k : Nat} (hshort : s.cnt k < (s.slot k).need) (h : doneReady s k ≠ true) :
    agentStep (.stage k) s = .next s :=
  stage_waits (fun hr => absurd ((invokeReady_iff s k).mp hr).2.1 (not_le.mpr hshort)) h

/-- Settles O36: a stage that is not live takes neither step, one with a whole block no done step, one with a short input
ring no invocation. -/
theorem blockedStageWaits : Obligations.BlockedStageWaits := by
  intro s k
  refine ⟨fun h => ?_, fun h => ?_, fun h => ?_, fun hwhole hfull => ?_, fun hshort hlc => ?_, fun hshort hk hpred => ?_⟩
  · refine stage_waits_of_not_live fun hl => ?_
    obtain ⟨hk, hkind, -⟩ := (stageLive_iff s k).mp hl
    exact h.elim (not_le.mpr hk) hkind
  · refine stage_waits_of_not_live fun hl => ?_
    obtain ⟨-, -, hlc, -⟩ := (stageLive_iff s k).mp hl
    rcases hlc with e | e <;> simp [e] at h
  · refine stage_waits_of_not_live fun hl => ?_
    obtain ⟨-, -, -, hdone⟩ := (stageLive_iff s k).mp hl
    simp [h] at hdone
  · refine stage_waits (fun hr => ?_) fun hr => ?_
    · obtain ⟨-, -, hroom⟩ := (invokeReady_iff s k).mp hr
      exact absurd hfull (not_lt.mpr hroom)
    · obtain ⟨-, -, -, hshort⟩ := (doneReady_iff s k).mp hr
      exact absurd hwhole (not_le.mpr hshort)
  · refine stage_waits_of_short hshort fun hr => ?_
    obtain ⟨-, hstop, -⟩ := (doneReady_iff s k).mp hr
    exact hlc hstop
  · refine stage_waits_of_short hshort fun hr => ?_
    obtain ⟨-, -, hfirst | hdone, -⟩ := (doneReady_iff s k).mp hr
    · omega
    · simp [hpred] at hdone

/-! ### The drain -/

/-- The done step of a stage (41_ring_scheduler.md R184): it asks for a short input ring, so the invocation is not enabled. -/
theorem stage_done {k : Nat} (h : doneReady s k = true) : agentStep (.stage k) s = .next (doneStep s k) := by
  obtain ⟨-, -, -, hshort⟩ := (doneReady_iff s k).mp h
  have hinv : invokeReady s k ≠ true := fun hr => absurd ((invokeReady_iff s k).mp hr).2.1 (not_le.mpr hshort)
  simp only [agentStep, stageStep, if_neg hinv, h, if_true]

/-- Settles O37: the done step by its condition, the halt step by that of the last stage. -/
theorem drainAndHalt : Obligations.DrainAndHalt := by
  refine fun s => ⟨fun k hk hkind hlc hdone hpred hshort => ?_, fun hlc hn hdone => ?_, fun h => ?_⟩
  · exact stage_done ((doneReady_iff s k).mpr ⟨(stageLive_iff s k).mpr ⟨hk, hkind, .inr hlc, hdone⟩, hlc, hpred, hshort⟩)
  · exact congrArg Host.Outcome.next (if_pos ⟨hlc, hn, hdone⟩)
  · refine congrArg Host.Outcome.next (if_neg fun ⟨hlc, _, hdone⟩ => ?_)
    rcases h with h | h
    · exact h hlc
    · simp [h] at hdone

end Sys2Proof.Machine
end

section
/-! PROOFS. The squelch gate (42_squelch.md R203, R206). One invocation leaves the smoothed power and the gate it decides, and
the gate alone chooses between the sample and zero. A run is a chain of such invocations over its powers, so where every
power falls on one side of the band, every gate is the same. -/

namespace Sys2Proof.Machine

variable {N : NumRecord} {x x' : Slot} {v : Sample} {vs outs : List Sample}

/-! ### The gate -/

/-- Above `THO` the gate opens (42_squelch.md R203). -/
theorem gateNext_of_above {dv : Derived} {pwr : F} (g : Bool) (h : N.lt dv.tho pwr = true) : gateNext N dv pwr g = true :=
  if_pos h

/-- At or below `THC`, and not above `THO`, the gate closes (42_squelch.md R203). -/
theorem gateNext_of_below {dv : Derived} {pwr : F} (g : Bool) (hopen : N.lt dv.tho pwr = false)
    (hclose : N.le pwr dv.thc = true) : gateNext N dv pwr g = false := by
  rw [gateNext, if_neg (by simp [hopen]), if_pos hclose]

/-- The quiet comparisons follow one order (00_scope.md R8): with `b` as `THC` and `c` as `THO`, a power that closes the
gate does not open it. -/
theorem NUM.lt_eq_false_of_le_of_le {a b c : F} (hab : NUM.le a b = true) (hbc : NUM.le b c = true) : NUM.lt c a = false := by
  simp only [NUM.le, Bool.and_eq_true, decide_eq_true_eq] at hab hbc
  obtain ⟨-, hkab⟩ := hab
  obtain ⟨-, hkbc⟩ := hbc
  have hkey : ¬ NUM.key c < NUM.key a := not_lt.mpr (hkab.trans hkbc)
  simp only [NUM.lt, decide_eq_false hkey, Bool.and_false]

/-! ### One invocation -/

/-- The slot after a squelch invocation that raises no fault: `PWR` and `GATE` are written (42_squelch.md R203). -/
def Slot.squelched (N : NumRecord) (x : Slot) (v : Sample) : Slot :=
  let pwr := smoothed N x.cfg.par1 x.rt.pwr v
  { x with rt := { x.rt with pwr := pwr, gate := gateNext N x.dv pwr x.rt.gate } }

/-- The sample is passed or zeroed by the gate it has decided (42_squelch.md R203). -/
theorem invokeSql_of_finite (h : N.finite (smoothed N x.cfg.par1 x.rt.pwr v) = true) :
    invokeSql N x v = .emit [if (x.squelched N v).rt.gate then v else Sample.zero] (x.squelched N v).rt :=
  if_pos h

/-- A smoothed power that is not finite is a fault (42_squelch.md R203). -/
theorem invokeSql_of_not_finite (h : N.finite (smoothed N x.cfg.par1 x.rt.pwr v) = false) : invokeSql N x v = .raise :=
  if_neg (by simp [h])

/-- The invocation rule of a squelch slot (41_ring_scheduler.md R171). -/
theorem invoke_of_sql (s : State) (v : Sample) (h : x.cfg.kind = .sql) : invoke s x [v] = invokeSql s.par.record x v := by
  rw [invoke, h]
  rfl

/-- Settles O40: the smoothed power is finite or not. -/
theorem squelchInvocation : Obligations.SquelchInvocation := by
  refine fun s x v hkind => ⟨fun h => ?_, fun h => ?_⟩
  · exact (invoke_of_sql s v hkind).trans (invokeSql_of_not_finite h)
  · exact (invoke_of_sql s v hkind).trans (invokeSql_of_finite h)

/-! ### A run of invocations -/

/-- A run that raises no fault is its first invocation and a run of the rest from the slot which that leaves. -/
theorem squelchRun_cons (h : squelchRun N x (v :: vs) = some (outs, x')) :
    ∃ rest, outs = (if (x.squelched N v).rt.gate then v else Sample.zero) :: rest ∧
      squelchRun N (x.squelched N v) vs = some (rest, x') := by
  rw [squelchRun] at h
  cases hfin : N.finite (smoothed N x.cfg.par1 x.rt.pwr v) with
  | false => simp [invokeSql_of_not_finite hfin] at h
  | true =>
    rw [invokeSql_of_finite hfin] at h
    cases hrun : squelchRun N { x with rt := (x.squelched N v).rt } vs with
    | none => simp [hrun] at h
    | some answer =>
      simp only [hrun, Option.some.injEq, Prod.mk.injEq] at h
      obtain ⟨rfl, rfl⟩ := h
      exact ⟨answer.1, rfl, hrun⟩

/-- While every power closes the gate, a closed gate stays closed and every output is zero (42_squelch.md R206). -/
theorem squelchRun_zeroes (h : squelchRun N x vs = some (outs, x')) (hgate : x.rt.gate = false)
    (hpow : ∀ q ∈ powers N x.cfg.par1 x.rt.pwr vs, N.lt x.dv.tho q = false ∧ N.le q x.dv.thc = true) :
    outs = List.replicate vs.length Sample.zero ∧ x'.rt.gate = false := by
  induction vs generalizing x outs with
  | nil =>
    obtain ⟨rfl, rfl⟩ : [] = outs ∧ x = x' := by simpa [squelchRun] using h
    exact ⟨rfl, hgate⟩
  | cons v vs ih =>
    obtain ⟨⟨hopen, hclose⟩, hrest⟩ := List.forall_mem_cons.mp hpow
    obtain ⟨rest, rfl, hrun⟩ := squelchRun_cons h
    have hnext : (x.squelched N v).rt.gate = false := gateNext_of_below _ hopen hclose
    obtain ⟨rfl, hlast⟩ := ih hrun hnext hrest
    exact ⟨by rw [hnext]; rfl, hlast⟩

/-- While every power opens the gate, every sample passes (42_squelch.md R206). -/
theorem squelchRun_passes (h : squelchRun N x vs = some (outs, x'))
    (hpow : ∀ q ∈ powers N x.cfg.par1 x.rt.pwr vs, N.lt x.dv.tho q = true) : outs = vs := by
  induction vs generalizing x outs with
  | nil =>
    obtain ⟨rfl, -⟩ : [] = outs ∧ x = x' := by simpa [squelchRun] using h
    rfl
  | cons v vs ih =>
    obtain ⟨hopen, hrest⟩ := List.forall_mem_cons.mp hpow
    obtain ⟨rest, rfl, hrun⟩ := squelchRun_cons h
    have hnext : (x.squelched N v).rt.gate = true := gateNext_of_above _ hopen
    rw [ih hrun hrest, hnext, if_pos rfl]

/-- Settles O41: a power at or below `THC` is not above `THO`, so it closes the gate, and one above `THO` opens it. -/
theorem squelchGatesRuns : Obligations.SquelchGatesRuns := by
  refine fun x vs outs x' h => ⟨fun hgate hband hpow => ?_, squelchRun_passes h⟩
  exact squelchRun_zeroes h hgate fun q hq => ⟨NUM.lt_eq_false_of_le_of_le (hpow q hq) hband, hpow q hq⟩

end Sys2Proof.Machine
end

section
/-! PROOFS. The demodulator (43_fmdemod.md R218, R219). An invocation emits `GAIN` times the phase step between two samples, or
raises. Zeros of either sign are closed under the operations of the default record, so beside a zeroed sample both parts of
the product are zeros; the phase step is then `+0.0`, which a positive gain keeps. -/

namespace Sys2Proof.Machine.NUM

open Sys2Proof

/-! ### Zeros of either sign -/

theorem isZero_pack_zero (s : Bool) : isZero (pack s 0) = true := decide_eq_true (mag_pack s 0 (by decide))

theorem isZero_iff_exact (v : F) : isZero v = true ↔ exact v = 0 := by
  refine ⟨fun h => ?_, fun h => ?_⟩
  · have hunits : (exact v).natAbs = unitsMag 0 := (exact_mag v).trans (congrArg unitsMag (of_decide_eq_true h))
    exact Int.natAbs_eq_zero.mp hunits
  · cases hz : isZero v with
    | true => rfl
    | false => exact absurd h (exact_ne_zero hz)

theorem finite_of_isZero {v : F} (h : isZero v = true) : finite v = true := by
  have hmag : mag v = 0 := of_decide_eq_true h
  rw [finite_iff, hmag]
  decide

/-- The comparison with zero does not see the sign (00_scope.md R8). -/
theorem eq_posZero_of_isZero {v : F} (h : isZero v = true) : eq v posZero = true := by
  have hmag : mag v = 0 := of_decide_eq_true h
  have hkey : key v = 0 := by simp [key, hmag]
  rw [eq, isNaN_of_finite (finite_of_isZero h), hkey]
  decide

theorem isZero_negate {v : F} (h : isZero v = true) : isZero (negate v) = true := by rwa [isZero, mag_negate]

theorem isZero_add {a b : F} (ha : isZero a = true) (hb : isZero b = true) : isZero (add a b) = true := by
  have hsum : exact a + exact b = 0 := by rw [(isZero_iff_exact a).mp ha, (isZero_iff_exact b).mp hb]; rfl
  obtain ⟨s, -, hadd⟩ := add_eq_round64 (finite_of_isZero ha) (finite_of_isZero hb)
  rw [hadd, hsum, Int.natAbs_zero, round64_zero s 1 (by decide)]
  exact isZero_pack_zero s

theorem isZero_sub {a b : F} (ha : isZero a = true) (hb : isZero b = true) : isZero (sub a b) = true :=
  isZero_add ha (isZero_negate hb)

/-- A finite product with a zero factor is the zero whose sign the factors give (00_scope.md R8). -/
theorem mul_eq_pack_zero {a b : F} (ha : finite a = true) (hb : finite b = true) (h : isZero a = true ∨ isZero b = true) :
    mul a b = pack (neg a != neg b) 0 := by
  have hprod : exact a * exact b = 0 := mul_eq_zero.mpr (h.imp (isZero_iff_exact a).mp (isZero_iff_exact b).mp)
  rw [mul_eq_round64 ha hb, hprod, Int.natAbs_zero, round64_zero _ _ oneUnits_pos]

theorem isZero_mul {a b : F} (ha : finite a = true) (hb : finite b = true) (h : isZero a = true ∨ isZero b = true) :
    isZero (mul a b) = true := mul_eq_pack_zero ha hb h ▸ isZero_pack_zero _

/-! ### A positive factor -/

theorem neg_eq_false_of_posZero_lt {v : F} (h : lt posZero v = true) : neg v = false := by
  simp only [lt, Bool.and_eq_true, decide_eq_true_eq] at h
  obtain ⟨-, hkey⟩ := h
  have hzero : key posZero = 0 := by decide
  cases hneg : neg v with
  | false => rfl
  | true =>
    simp only [key, hneg, if_true] at hkey hzero
    omega

/-- A positive finite factor keeps `+0.0`. -/
theorem mul_posZero {g : F} (h : positive binary64 g = true) : mul g posZero = posZero := by
  obtain ⟨hfin, hpos⟩ : finite g = true ∧ lt posZero g = true := by simpa [positive] using h
  rw [mul_eq_pack_zero hfin finite_zero (.inr (by decide)), neg_eq_false_of_posZero_lt hpos]
  decide

end Sys2Proof.Machine.NUM

namespace Sys2Proof.Machine

variable {N : NumRecord} {x : Slot} {p v : Sample} {y : F}

/-! ### The phase step -/

/-- The two comparisons of 43_fmdemod.md R218 as one condition. -/
theorem phaseStep_eq (N : NumRecord) (p v : Sample) :
    let re := N.add (N.mul v.re p.re) (N.mul v.im p.im)
    let im := N.sub (N.mul v.im p.re) (N.mul v.re p.im)
    phaseStep N p v = if N.eq re posZero = true ∧ N.eq im posZero = true then posZero else N.atan2 im re := by
  simp only [phaseStep, Bool.and_eq_true]

/-- Beside a zeroed sample the phase step is `+0.0` (43_fmdemod.md R219 (b)). -/
theorem phaseStep_eq_posZero (hp : p.finite NUM.binary64 = true) (hv : v.finite NUM.binary64 = true)
    (h : (NUM.isZero p.re = true ∧ NUM.isZero p.im = true) ∨ (NUM.isZero v.re = true ∧ NUM.isZero v.im = true)) :
    phaseStep NUM.binary64 p v = posZero := by
  obtain ⟨hpre, hpim⟩ := Bool.and_eq_true_iff.mp hp
  obtain ⟨hvre, hvim⟩ := Bool.and_eq_true_iff.mp hv
  have hzero := h.symm
  have hre : NUM.isZero (NUM.add (NUM.mul v.re p.re) (NUM.mul v.im p.im)) = true :=
    NUM.isZero_add (NUM.isZero_mul hvre hpre (hzero.imp And.left And.left))
      (NUM.isZero_mul hvim hpim (hzero.imp And.right And.right))
  have him : NUM.isZero (NUM.sub (NUM.mul v.im p.re) (NUM.mul v.re p.im)) = true :=
    NUM.isZero_sub (NUM.isZero_mul hvim hpre (hzero.imp And.right And.left))
      (NUM.isZero_mul hvre hpim (hzero.imp And.left And.right))
  rw [phaseStep_eq, if_pos ⟨NUM.eq_posZero_of_isZero hre, NUM.eq_posZero_of_isZero him⟩]

/-! ### One invocation -/

/-- A finite output is emitted and the sample stored (43_fmdemod.md R218). -/
theorem invokeFmd_of_finite (hy : N.mul x.dv.gain (phaseStep N x.rt.prev v) = y) (h : N.finite y = true) :
    invokeFmd N x v = .emit [{ re := y, im := posZero }] { x.rt with prev := v } := by
  subst hy
  exact if_pos h

/-- An output that is not finite is a fault (43_fmdemod.md R218). -/
theorem invokeFmd_of_not_finite (hy : N.mul x.dv.gain (phaseStep N x.rt.prev v) = y) (h : N.finite y = false) :
    invokeFmd N x v = .raise := by
  subst hy
  exact if_neg (by simp [h])

/-- The invocation rule of a demodulator slot (41_ring_scheduler.md R171). -/
theorem invoke_of_fmd (s : State) (v : Sample) (h : x.cfg.kind = .fmd) : invoke s x [v] = invokeFmd s.par.record x v := by
  rw [invoke, h]
  rfl

/-- Settles O43: the phase step is `+0.0`, and so is `GAIN` times it. -/
theorem demodulatorZeroVector : Obligations.DemodulatorZeroVector := by
  intro s x v hnum hkind hgain hv hprev hzero
  rw [NUM.record_eq hnum] at hgain hv hprev
  rw [invoke_of_fmd s v hkind, NUM.record_eq hnum]
  refine invokeFmd_of_finite ?_ NUM.finite_zero
  rw [phaseStep_eq_posZero hprev hv hzero]
  exact NUM.mul_posZero hgain

/-- Settles O42: the output is finite or not. -/
theorem demodulatorInvocation : Obligations.DemodulatorInvocation := by
  intro s x v hkind
  have hout := congrArg (s.par.record.mul x.dv.gain) (phaseStep_eq s.par.record x.rt.prev v)
  exact ⟨fun h => (invoke_of_fmd s v hkind).trans (invokeFmd_of_not_finite hout h),
    fun h => (invoke_of_fmd s v hkind).trans (invokeFmd_of_finite hout h)⟩

end Sys2Proof.Machine
end

section
/-! PROOFS. The filter core and the two shifts (44_fir.md R233 to R237, 45_str.md R256). The model walks through the input
samples with a position that starts anew at each of them. Counted from the first sample of the block, output `i` has the
position `i*M`: the quotient by `L` is the newest sample in the history, the remainder the phase. An induction over the
samples says so of every output the loop emits, and finds one that is not finite where the loop gives up. -/

namespace Sys2Proof.Machine

/-! ### The shifts -/

theorem shiftHist_getD_zero {p : Params} (cplx : Bool) (hist : List Sample) (v d : Sample) (hp : 1 ≤ p.tapmax) :
    (shiftHist p cplx hist v).getD 0 d = if cplx then v else { v with im := posZero } := by
  rw [shiftHist, List.getD_eq_getElem?_getD, List.getElem?_take_of_lt hp, List.getElem?_cons_zero, Option.getD_some]

theorem shiftHist_getD_succ {p : Params} (cplx : Bool) (hist : List Sample) (v d : Sample) {j : Nat} (hj : j + 1 < p.tapmax) :
    (shiftHist p cplx hist v).getD (j + 1) d = hist.getD j d := by
  rw [shiftHist, List.getD_eq_getElem?_getD, List.getElem?_take_of_lt hj, List.getElem?_cons_succ,
    List.getD_eq_getElem?_getD]

/-- The places that a window shift moves, and the one it fills. -/
theorem length_shiftWin_moved {w : Nat} {win : List F} (hwin : w ≤ win.length) : ((win.take w).drop 1).length = w - 1 := by
  rw [List.length_drop, List.length_take_of_le hwin]

theorem shiftWin_getD_moved {w : Nat} {win : List F} (v d : F) (hwin : w ≤ win.length) {i : Nat} (hi : i + 1 < w) :
    (shiftWin w win v).getD i d = win.getD (i + 1) d := by
  have hmoved : i < ((win.take w).drop 1).length := by rw [length_shiftWin_moved hwin]; omega
  rw [shiftWin, List.getD_append _ _ _ _ hmoved, List.getD_eq_getElem?_getD, List.getElem?_drop, Nat.add_comm 1 i,
    List.getElem?_take_of_lt hi, List.getD_eq_getElem?_getD]

theorem shiftWin_getD_newest {w : Nat} {win : List F} (v d : F) (hwin : w ≤ win.length) :
    (shiftWin w win v).getD (w - 1) d = v := by
  have hmoved := length_shiftWin_moved hwin
  rw [shiftWin, List.getD_append_right _ _ _ _ hmoved.le, hmoved, Nat.sub_self, List.getD_cons_zero]

theorem shiftWin_getD_kept {w : Nat} {win : List F} (v d : F) (hw : 1 ≤ w) (hwin : w ≤ win.length) {i : Nat} (hi : w ≤ i) :
    (shiftWin w win v).getD i d = win.getD i d := by
  have hmoved := length_shiftWin_moved hwin
  have hplace : i - (w - 1) = (i - w) + 1 := by omega
  rw [shiftWin, List.getD_append_right _ _ _ _ (by omega), hmoved, hplace, List.getD_cons_succ,
    List.getD_eq_getElem?_getD, List.getElem?_drop, Nat.add_sub_cancel' hi, List.getD_eq_getElem?_getD]

/-- Settles O45: place by place. -/
theorem historyShifts : Obligations.HistoryShifts := by
  refine ⟨fun p cplx hist v d hhist hp => ⟨shiftHist_length p cplx hist v hhist, shiftHist_getD_zero cplx hist v d hp, ?_⟩,
    fun w win v d hw hwin => ⟨shiftWin_length w win v hw hwin, shiftWin_getD_newest v d hwin,
      fun i hi => shiftWin_getD_moved v d hwin hi, fun i hi => shiftWin_getD_kept v d hw hwin hi⟩⟩
  intro j hj hlt
  obtain ⟨i, rfl⟩ := Nat.exists_eq_add_of_le' hj
  exact shiftHist_getD_succ cplx hist v d hlt

/-! ### One polyphase sum (44_fir.md R234) -/

/-- `J(p)` counts the `j` with `p + j*L < N` (44_fir.md R234). -/
theorem lt_branchLen_iff {l : Nat} (hl : 1 ≤ l) (n b j : Nat) : j < branchLen n l b ↔ b + j * l < n := by
  rw [branchLen]
  split
  · omega
  · rw [Nat.lt_succ_iff, Nat.le_div_iff_mul_le hl]
    omega

theorem filter_range_branch {l : Nat} (hl : 1 ≤ l) (n b : Nat) :
    (List.range n).filter (fun j => b + j * l < n) = List.range (branchLen n l b) := by
  have hle : branchLen n l b ≤ n := by
    by_contra hlt
    have hn := (lt_branchLen_iff hl n b n).mp (by omega)
    have := Nat.le_mul_of_pos_right n hl
    omega
  simp only [← lt_branchLen_iff hl]
  rw [← List.Ico.zero_bot, List.Ico.filter_lt, Nat.min_eq_right hle, List.Ico.zero_bot]

theorem TapMem.vector_getD {t : TapMem} {b : Bool} {i : Nat} (hi : i < t.count b) :
    (t.vector b).getD i posZero = Mem.read (t.bank b) i := by
  simp [TapMem.vector, Mem.readAll, hi]

/-- A polyphase sum runs over the taps of its phase, in ascending order (44_fir.md R234, 00_scope.md R9). -/
theorem branchSum_vector (N : NumRecord) (t : TapMem) (a : Bool) (hist : List Sample) {l : Nat} (hl : 1 ≤ l) (b : Nat)
    (part : Sample → F) :
    branchSum N (t.vector a) hist l b part =
      ((List.range (t.count a)).filter fun j => b + j * l < t.count a).foldl
        (fun acc j => N.add acc (N.mul (Mem.read (t.bank a) (b + j * l)) (part (hist.getD j Sample.zero)))) posZero := by
  have hlen : (t.vector a).length = t.count a := Mem.readAll_length ..
  have hterms : ∀ j ∈ List.range (branchLen (t.count a) l b),
      N.mul ((t.vector a).getD (b + j * l) posZero) (part (hist.getD j Sample.zero)) =
        N.mul (Mem.read (t.bank a) (b + j * l)) (part (hist.getD j Sample.zero)) := fun j hj => by
    rw [TapMem.vector_getD ((lt_branchLen_iff hl _ b j).mp (List.mem_range.mp hj))]
  rw [filter_range_branch hl, branchSum, hlen, List.map_congr_left hterms, NumRecord.sum, List.foldl_map]

/-! ### The outputs of a block, by position (44_fir.md R236, R237) -/

/-- The output at a position counted from the first sample of the block (44_fir.md R237): `pos / L` is the newest sample in
the history, `pos mod L` the phase. -/
def blockOut (p : Params) (cplx : Bool) (taps : List F) (l : Nat) (xs hist : List Sample) (pos : Nat) : Sample :=
  pout p.record cplx taps ((xs.take (pos / l + 1)).foldl (shiftHist p cplx) hist) l (pos % l)

section
variable {p : Params} {cplx : Bool} {taps : List F} {l m t0 : Nat} {v : Sample} {xs hist hist' out : List Sample}

/-- The positions below `L` are those of the first sample. -/
theorem blockOut_cons_of_lt {pos : Nat} (h : pos < l) :
    blockOut p cplx taps l (v :: xs) hist pos = pout p.record cplx taps (shiftHist p cplx hist v) l pos := by
  rw [blockOut, Nat.div_eq_of_lt h, Nat.mod_eq_of_lt h, List.take_succ_cons, List.take_zero, List.foldl_cons, List.foldl_nil]

/-- The position steps back by `L` where the next sample is shifted in. -/
theorem blockOut_cons_add (hl : 0 < l) (pos : Nat) :
    blockOut p cplx taps l (v :: xs) hist (pos + l) = blockOut p cplx taps l xs (shiftHist p cplx hist v) pos := by
  rw [blockOut, Nat.add_div_right pos hl, Nat.add_mod_right, List.take_succ_cons, List.foldl_cons, blockOut]

/-- A block whose first sample is worked through goes on from the position past its group, stepped back by `L`. -/
theorem polyphase_cons_of_emit {ys : List Sample} {t : Nat}
    (h : emitWhile p.record cplx taps (shiftHist p cplx hist v) l m l t0 = some (ys, t)) :
    polyphase p cplx taps l m (v :: xs) t0 hist =
      (polyphase p cplx taps l m xs (t - l) (shiftHist p cplx hist v)).map fun r => (ys ++ r.1, r.2) := by
  rw [polyphase]
  simp only [h]
  cases polyphase p cplx taps l m xs (t - l) (shiftHist p cplx hist v) <;> rfl

/-- Where the first sample is not worked through, neither is the block. -/
theorem polyphase_cons_of_stop (h : emitWhile p.record cplx taps (shiftHist p cplx hist v) l m l t0 = none) :
    polyphase p cplx taps l m (v :: xs) t0 hist = none := by
  rw [polyphase]
  simp only [h]

/-- The `i`-th output of a block is the one at position `t0 + i*M` (44_fir.md R237). -/
theorem polyphase_out (hl : 0 < l) (hm : 1 ≤ m) (h : polyphase p cplx taps l m xs t0 hist = some (out, hist')) :
    out = (List.range out.length).map fun i => blockOut p cplx taps l xs hist (t0 + i * m) := by
  induction xs generalizing t0 hist out with
  | nil => cases h; rfl
  | cons v xs ih =>
    cases hemit : emitWhile p.record cplx taps (shiftHist p cplx hist v) l m l t0 with
    | none => simp [polyphase_cons_of_stop hemit] at h
    | some r =>
      obtain ⟨ys, t⟩ := r
      rw [polyphase_cons_of_emit hemit, Option.map_eq_some_iff] at h
      obtain ⟨⟨zs, hist''⟩, hrest, heq⟩ := h
      cases heq
      obtain ⟨ht, hlt, hpos, hys, -⟩ := emitWhile_some _ _ _ _ l m hm l t0 ys t (Nat.sub_le l t0) hemit
      have hhead : ys = (List.range ys.length).map fun i => blockOut p cplx taps l (v :: xs) hist (t0 + i * m) :=
        hys.trans (List.map_congr_left fun i hi => (blockOut_cons_of_lt (hpos i (List.mem_range.mp hi))).symm)
      have htail (i : Nat) : blockOut p cplx taps l xs (shiftHist p cplx hist v) (t - l + i * m) =
          blockOut p cplx taps l (v :: xs) hist (t0 + (ys.length + i) * m) := by
        rw [← blockOut_cons_add hl, Nat.add_mul]
        congr 1
        omega
      have hzs := ih hrest
      simp only [htail] at hzs
      rw [List.length_append, List.range_add, List.map_append, List.map_map, ← hhead]
      exact congrArg (ys ++ ·) hzs

/-- A block stops only at one of its own outputs, which is not finite (44_fir.md R236). -/
theorem polyphase_stops (hm : 1 ≤ m) (h : polyphase p cplx taps l m xs t0 hist = none) :
    ∃ i, t0 + i * m < xs.length * l ∧ (blockOut p cplx taps l xs hist (t0 + i * m)).finiteOn p.record cplx = false := by
  induction xs generalizing t0 hist with
  | nil => cases h
  | cons v xs ih =>
    have hgroups : (v :: xs).length * l = xs.length * l + l := by rw [List.length_cons, Nat.succ_mul]
    rw [hgroups]
    cases hemit : emitWhile p.record cplx taps (shiftHist p cplx hist v) l m l t0 with
    | none =>
      obtain ⟨i, hpos, hbad⟩ := emitWhile_none _ _ _ _ l m l t0 hemit
      exact ⟨i, by omega, by rwa [blockOut_cons_of_lt hpos]⟩
    | some r =>
      obtain ⟨ys, t⟩ := r
      rw [polyphase_cons_of_emit hemit, Option.map_eq_none_iff] at h
      obtain ⟨ht, hlt, -⟩ := emitWhile_some _ _ _ _ l m hm l t0 ys t (Nat.sub_le l t0) hemit
      obtain ⟨i, hpos, hbad⟩ := ih h
      have hnext : t0 + (ys.length + i) * m = t - l + i * m + l := by rw [Nat.add_mul]; omega
      refine ⟨ys.length + i, by omega, ?_⟩
      rwa [hnext, blockOut_cons_add (Nat.pos_of_ne_zero fun hl => by subst hl; omega)]
end

/-! ### One invocation (44_fir.md R236, 46_resampler.md R291) -/

/-- From position 0, `M` samples give the outputs at `0, M, …, (L-1)*M`, all of them finite, and all join the history. -/
theorem polyphase_block {p : Params} {cplx : Bool} {taps : List F} {l m : Nat} {xs hist out hist' : List Sample}
    (hlen : xs.length = m) (hm : 1 ≤ m) (h : polyphase p cplx taps l m xs 0 hist = some (out, hist')) :
    out = ((List.range l).map fun i => blockOut p cplx taps l xs hist (i * m)) ∧
      hist' = xs.foldl (shiftHist p cplx) hist ∧ ∀ y ∈ out, y.finiteOn p.record cplx = true := by
  have hcount : out.length = l := polyphase_length p cplx taps l m hm xs hist out hist' hlen h
  obtain ⟨hhist, hfin, -⟩ := polyphase_facts p cplx taps l m hm xs 0 hist out hist' h
  refine ⟨?_, hhist, fun y hy => (hfin y hy).1⟩
  rcases Nat.eq_zero_or_pos l with rfl | hl
  · exact List.eq_nil_of_length_eq_zero hcount
  · simpa only [hcount, Nat.zero_add] using polyphase_out hl hm h

section
variable {p : Params} {x : Slot} {xs : List Sample}

theorem pfir_of_some {out hist : List Sample} (hcount : x.taps.count x.taps.act ≤ p.tapmax)
    (h : polyphase p x.cfg.flag (x.taps.vector x.taps.act) x.cfg.l.toNat x.cfg.m.toNat xs 0 x.rt.hist = some (out, hist)) :
    pfir p x xs = .emit out { x.rt with hist := hist } := by
  rw [pfir, if_neg (not_lt.mpr hcount)]
  simp only [h]

theorem pfir_of_none (hcount : x.taps.count x.taps.act ≤ p.tapmax)
    (h : polyphase p x.cfg.flag (x.taps.vector x.taps.act) x.cfg.l.toNat x.cfg.m.toNat xs 0 x.rt.hist = none) :
    pfir p x xs = .raise := by
  rw [pfir, if_neg (not_lt.mpr hcount)]
  simp only [h]

/-- Output `i` of a slot's invocation on the samples `xs` (44_fir.md R237). -/
def Slot.output (p : Params) (x : Slot) (xs : List Sample) (i : Nat) : Sample :=
  blockOut p x.cfg.flag (x.taps.vector x.taps.act) x.cfg.l.toNat xs x.rt.hist (i * x.cfg.m.toNat)

/-- A filter invocation emits its `L` outputs when all of them are finite and raises otherwise (44_fir.md R236). -/
theorem pfir_emits_or_raises (hcount : x.taps.count x.taps.act ≤ p.tapmax) (hlen : xs.length = x.cfg.m.toNat)
    (hm : 1 ≤ x.cfg.m.toNat) :
    ((∀ i < x.cfg.l.toNat, (x.output p xs i).finiteOn p.record x.cfg.flag = true) ∧
      pfir p x xs = .emit ((List.range x.cfg.l.toNat).map (x.output p xs))
        { x.rt with hist := xs.foldl (shiftHist p x.cfg.flag) x.rt.hist }) ∨
    ((∃ i < x.cfg.l.toNat, (x.output p xs i).finiteOn p.record x.cfg.flag = false) ∧ pfir p x xs = .raise) := by
  cases hpoly : polyphase p x.cfg.flag (x.taps.vector x.taps.act) x.cfg.l.toNat x.cfg.m.toNat xs 0 x.rt.hist with
  | some r =>
    obtain ⟨out, hist⟩ := r
    obtain ⟨rfl, rfl, hfin⟩ := polyphase_block hlen hm hpoly
    exact .inl ⟨fun i hi => hfin _ (List.mem_map_of_mem (List.mem_range.mpr hi)), pfir_of_some hcount hpoly⟩
  | none =>
    obtain ⟨i, hi, hbad⟩ := polyphase_stops hm hpoly
    rw [Nat.zero_add] at hi hbad
    rw [hlen, Nat.mul_comm] at hi
    exact .inr ⟨⟨i, Nat.lt_of_mul_lt_mul_left hi, hbad⟩, pfir_of_none hcount hpoly⟩
end

/-- The invocation rule of a filter or resampler slot (41_ring_scheduler.md R171). -/
theorem invoke_of_filter (s : State) {x : Slot} (xs : List Sample) (h : x.cfg.kind = .fir ∨ x.cfg.kind = .rsp) :
    invoke s x xs = pfir s.par x xs := by
  rcases h with h | h <;> rw [invoke, h]

/-- Settles O44: each output is the one at its position, and its sums are those over the taps of its phase. -/
theorem polyphaseClosedForm : Obligations.PolyphaseClosedForm := by
  intro s x xs hkind hcount hlen hm N n L tap stored past sum out fits
  have hsum (b : Nat) (h : List Sample) (part : Sample → F) (hL : 1 ≤ L) :
      branchSum N (x.taps.vector x.taps.act) h L b part = sum b h part := branchSum_vector N x.taps x.taps.act h hL b part
  have hout : ∀ i < L, x.output s.par xs i = out i := fun i hi => by
    rw [Slot.output, blockOut, pout, hsum _ _ _ (by omega), hsum _ _ _ (by omega)]
    rfl
  have hfits : ∀ i < L, (x.output s.par xs i).finiteOn N x.cfg.flag = true ↔ fits (out i) := fun i hi => by
    rw [finiteOn_iff, hout i hi]
  have hpast : xs.foldl (shiftHist s.par x.cfg.flag) x.rt.hist = past xs.length := by
    show _ = (xs.take xs.length).foldl (shiftHist s.par x.cfg.flag) x.rt.hist
    rw [List.take_length]
  rw [invoke_of_filter s xs hkind]
  rcases pfir_emits_or_raises hcount hlen hm with ⟨hfin, hpfir⟩ | ⟨⟨i, hi, hbad⟩, hpfir⟩
  · refine ⟨fun _ => ?_, fun ⟨i, hi, hbad⟩ => absurd ((hfits i hi).mp (hfin i hi)) hbad⟩
    rw [hpfir, hpast, List.map_congr_left fun i hi => hout i (List.mem_range.mp hi)]
  · refine ⟨fun hall => ?_, fun _ => hpfir⟩
    rw [(hfits i hi).mpr (hall i hi)] at hbad
    cases hbad

end Sys2Proof.Machine
end

section
/-! PROOFS. One symbol of timing recovery (45_str.md R257 to R265). Two neighbouring rows share the bound between them, so no
two rows cover one fraction. The invocation walks through its three instants and the loop in order: where each of them has
a value, the answer is read off. Beside an on-time sample that is a zero the error is a zero, and adding a zero keeps the
exact value of the integrator, which the clamp keeps between its limits. -/

namespace Sys2Proof.Machine.NUM

open Sys2Proof

/-! ### Adding a zero, and a value between its limits -/

/-- The quiet comparison of finite values sees the exact value only (00_scope.md R8). -/
theorem eq_iff {a b : F} (ha : finite a = true) (hb : finite b = true) : eq a b = true ↔ exact a = exact b := by
  have hkey : key a = key b ↔ exact a = exact b := by
    rw [le_antisymm_iff, le_antisymm_iff, exact_le_iff, exact_le_iff]
  simp only [eq, isNaN_of_finite ha, isNaN_of_finite hb, Bool.not_false, Bool.true_and, decide_eq_true_eq, hkey]

theorem sgn_of_isZero {v : F} (h : isZero v = true) : binary64.sgn v = posZero := by
  have hfin := finite_of_isZero h
  have hval := (isZero_iff_exact v).mp h
  have hpos : ¬ lt posZero v = true := by rw [lt_iff finite_zero hfin, hval, exact_zero]; exact lt_irrefl 0
  have hneg : ¬ lt v posZero = true := by rw [lt_iff hfin finite_zero, hval, exact_zero]; exact lt_irrefl 0
  rw [NumRecord.sgn, if_neg hpos, if_neg hneg]

/-- A sum with a zero is exact. -/
theorem add_isZero {a z : F} (ha : finite a = true) (hz : isZero z = true) :
    finite (add a z) = true ∧ exact (add a z) = exact a := by
  have hsum : exact a + exact z = exact a := by rw [(isZero_iff_exact z).mp hz, add_zero]
  obtain ⟨hfin, hlow, hhigh⟩ := add_between a z a a ha (finite_of_isZero hz) ha ha hsum.ge hsum.le
  exact ⟨hfin, le_antisymm hhigh hlow⟩

theorem clamp_of_between {v lo hi : F} (hv : finite v = true) (hlo : finite lo = true) (hhi : finite hi = true)
    (hlow : exact lo ≤ exact v) (hhigh : exact v ≤ exact hi) : binary64.clamp v lo hi = v := by
  have hnlo : ¬ lt v lo = true := by rw [lt_iff hv hlo]; exact not_lt.mpr hlow
  have hnhi : ¬ lt hi v = true := by rw [lt_iff hhi hv]; exact not_lt.mpr hhigh
  rw [NumRecord.clamp, if_neg hnlo, if_neg hnhi]

end Sys2Proof.Machine.NUM

namespace Sys2Proof.Machine

/-! ### The row of a fraction (45_str.md R258) -/

theorem rowCovers_iff (nph : Nat) (f : F) (q : Nat) :
    rowCovers NUM.binary64 nph f q = true ↔
      (2 * (q : Int) - 1) * NUM.oneUnits ≤ 2 * nph * NUM.exact f ∧
        2 * nph * NUM.exact f < (2 * (q : Int) + 1) * NUM.oneUnits := by
  simp only [rowCovers, NUM.atLeast, Bool.and_eq_true, Bool.not_eq_true', decide_eq_true_eq, decide_eq_false_iff_not,
    not_le, Nat.cast_mul, Nat.cast_ofNat, mul_comm (NUM.exact f)]

/-- A row that covers a fraction is no higher than any other that does: its lower bound lies below the other's upper one. -/
theorem le_of_rowCovers {nph q r : Nat} {f : F} (hq : rowCovers NUM.binary64 nph f q = true)
    (hr : rowCovers NUM.binary64 nph f r = true) : q ≤ r := by
  obtain ⟨hlow, -⟩ := (rowCovers_iff nph f q).mp hq
  obtain ⟨-, hhigh⟩ := (rowCovers_iff nph f r).mp hr
  have := lt_of_mul_lt_mul_right (lt_of_le_of_lt hlow hhigh) NUM.oneUnits_pos_int.le
  omega

/-- The row taken is one of `0 .. NPH` and covers the fraction, whatever the record. -/
theorem rowOf_eq_some {N : NumRecord} {nph r : Nat} {f : F} (h : rowOf N nph f = some r) :
    r ≤ nph ∧ rowCovers N nph f r = true := by
  rw [rowOf] at h
  split at h
  · exact ⟨Nat.lt_succ_iff.mp (List.mem_range.mp (List.mem_of_find?_eq_some h)), List.find?_some h⟩
  · cases h

/-- Settles O46: a row is found, it covers the fraction, and no other row does. -/
theorem rowSelection : Obligations.RowSelection := by
  intro nph f hnph hfin hlow hhigh
  obtain ⟨r, hrow⟩ := rowOf_isSome nph f hnph hfin hlow hhigh
  obtain ⟨hle, hr⟩ := rowOf_eq_some hrow
  refine ⟨r, hle, hrow, fun q => ?_⟩
  rw [← rowCovers_iff]
  exact ⟨fun hq => le_antisymm (le_of_rowCovers hq hr) (le_of_rowCovers hr hq), fun hq => hq ▸ hr⟩

/-! ### The interpolator's sum (45_str.md R257) -/

/-- An interpolation that answers has a row and reads inside the window. -/
theorem interp_eq_ok {p : Params} {x : Slot} {win : List F} {o : Int} {f v : F} (h : interp p x win o f = .ok v) :
    ∃ r, rowOf p.record (2 ^ x.cfg.lognph.toNat) f = some r ∧ 0 ≤ firstPlace x o ∧
      firstPlace x o + x.cfg.nt.toNat ≤ x.dv.w.toNat ∧
      v = p.record.sum (List.zipWith p.record.mul (x.itb.row p r x.cfg.nt.toNat)
        ((win.drop (firstPlace x o).toNat).take x.cfg.nt.toNat)) := by
  unfold interp at h
  cases hrow : rowOf p.record (2 ^ x.cfg.lognph.toNat) f with
  | none => simp [hrow] at h
  | some r =>
    simp only [hrow] at h
    split at h
    next hinside =>
      obtain ⟨-, -, hfirst, hlast⟩ := hinside
      cases h
      exact ⟨r, rfl, hfirst, hlast, rfl⟩
    next => cases h

/-- A stretch of the window, place by place. -/
theorem take_drop_eq_map_getD {win : List F} {a n : Nat} (d : F) (h : a + n ≤ win.length) :
    (win.drop a).take n = (List.range n).map fun k => win.getD (a + k) d := by
  have hlen : ((win.drop a).take n).length = n := List.length_take_of_le (by rw [List.length_drop]; omega)
  refine List.ext_getElem (by rw [hlen, List.length_map, List.length_range]) fun k hk _ => ?_
  have hplace : a + k < win.length := by omega
  simp [hplace]

/-- Settles O47: coefficient `k` of the row meets window place `k` from the first one read. -/
theorem interpolatorSum : Obligations.InterpolatorSum := by
  intro p x win o f v hwin h
  obtain ⟨r, hrow, hfirst, hlast, rfl⟩ := interp_eq_ok h
  refine ⟨r, hrow, ?_⟩
  have hplace (k : Nat) : (firstPlace x o + k).toNat = (firstPlace x o).toNat + k := by omega
  rw [take_drop_eq_map_getD posZero (by omega), InterpTable.row, Mem.readAll, List.zipWith_map, List.zipWith_self]
  simp only [← hplace]
  rfl

/-! ### One invocation (45_str.md R260) -/

section
variable {p : Params} {x : Slot} {win : List F} {v f mid early late e lg : F} {o n : Int}

theorem splitInstant_of_floorI {N : NumRecord} (h : N.floorI v = some n) :
    splitInstant N v = .ok (n, N.sub v (N.ofInt n)) := by
  simp only [splitInstant, h]

theorem sampleAt_of_floorI (ho : p.record.floorI v = some o) :
    sampleAt p x win v = interp p x win o (p.record.sub v (p.record.ofInt o)) := by
  simp only [sampleAt, splitInstant_of_floorI ho]

theorem instants_of_values (hmid : interp p x win 0 x.rt.mu = .ok mid)
    (hearly : sampleAt p x win (p.record.sub x.rt.mu x.cfg.par1) = .ok early)
    (hlate : sampleAt p x win (p.record.add x.rt.mu x.cfg.par1) = .ok late) :
    instants p x win = .ok (mid, early, late) := by
  simp only [instants, hmid, hearly, hlate]

/-- Steps 4 and 5 where the next instant has an integer part (45_str.md R262 to R265). -/
theorem closeLoop_of_floorI {N : NumRecord}
    (h : N.floorI (N.add x.rt.mu (advance N x (N.add x.dv.p0 (integNext N x lg e)) e)) = some n) :
    closeLoop N x lg win mid e = .emit [{ re := mid, im := posZero }]
      { x.rt with
        win := win, skip := BitVec.ofInt 32 n,
        mu := N.sub (N.add x.rt.mu (advance N x (N.add x.dv.p0 (integNext N x lg e)) e)) (N.ofInt n),
        integ := integNext N x lg e, period := N.add x.dv.p0 (integNext N x lg e), err := e } := by
  simp only [closeLoop, splitInstant_of_floorI h]

/-- An invocation whose three instants have a value raises, or closes the loop (45_str.md R260). -/
theorem invokeStr_of_instants {xs : List Sample} (hw : 0 < x.dv.w.toNat) (hwTop : x.dv.w.toNat ≤ p.hlen)
    (hwin : (xs.map Sample.re).foldl (shiftWin x.dv.w.toNat) x.rt.win = win)
    (h : instants p x win = .ok (mid, early, late)) :
    invokeStr p lg x xs =
      if (p.record.finite mid && p.record.finite (timingError p.record mid early late)) = true then
        closeLoop p.record x lg win mid (timingError p.record mid early late)
      else .raise := by
  subst hwin
  rw [invokeStr, if_neg (by omega)]
  simp only [h]
end

/-- The invocation rule of a timing recovery slot (41_ring_scheduler.md R171). -/
theorem invoke_of_str (s : State) {x : Slot} (xs : List Sample) (h : x.cfg.kind = .str) :
    invoke s x xs = invokeStr s.par s.actv.lg x xs := by
  rw [invoke, h]

/-- Settles O48: the three instants have the values given, and the loop is closed where mid and the error are finite. -/
theorem timingCycle : Obligations.TimingCycle := by
  intro s x xs mid early late oe ol n hkind hw hwTop N win te tl sgn clamp e integ period adv t hmid hoe hearly hol hlate
  have hinstants : instants s.par x win = .ok (mid, early, late) :=
    instants_of_values hmid ((sampleAt_of_floorI hoe).trans hearly) ((sampleAt_of_floorI hol).trans hlate)
  have hinvoke : invoke s x xs =
      if (N.finite mid && N.finite e) = true then closeLoop N x s.actv.lg win mid e else .raise :=
    (invoke_of_str s xs hkind).trans (invokeStr_of_instants hw hwTop rfl hinstants)
  rw [hinvoke]
  refine ⟨fun hbad => if_neg ?_, fun hfinMid hfinErr hn => ?_⟩
  · rcases hbad with h | h <;> simp [h]
  · rw [hfinMid, hfinErr, if_pos (Bool.and_self true)]
    exact closeLoop_of_floorI hn

/-! ### The dead point (45_str.md R261, R269) -/

theorem isZero_timingError {mid early late : F} (hmid : NUM.isZero mid = true)
    (hdiff : NUM.finite (NUM.sub late early) = true) :
    NUM.isZero (timingError NUM.binary64 mid early late) = true := by
  rw [timingError, NUM.sgn_of_isZero hmid]
  exact NUM.isZero_mul NUM.finite_zero hdiff (.inl (by decide))

/-- A zero error keeps the integrator that lies within its limits (45_str.md R262, R264). -/
theorem integNext_of_isZero {x : Slot} {lg e : F} (he : NUM.isZero e = true) (hlg : NUM.finite lg = true)
    (hinteg : NUM.finite x.rt.integ = true) (hrng : NUM.finite x.dv.rng = true)
    (hlow : NUM.le (NUM.negate x.dv.rng) x.rt.integ = true) (hhigh : NUM.le x.rt.integ x.dv.rng = true) :
    NUM.eq (integNext NUM.binary64 x lg e) x.rt.integ = true := by
  have hneg : NUM.finite (NUM.negate x.dv.rng) = true := (NUM.finite_negate _).trans hrng
  obtain ⟨hfin, hval⟩ := NUM.add_isZero hinteg (NUM.isZero_mul hlg (NUM.finite_of_isZero he) (.inr he))
  have hkeep : integNext NUM.binary64 x lg e = NUM.add x.rt.integ (NUM.mul lg e) :=
    NUM.clamp_of_between hfin hneg hrng (hval ▸ (NUM.le_iff hneg hinteg).mp hlow)
      (hval ▸ (NUM.le_iff hinteg hrng).mp hhigh)
  rw [hkeep]
  exact (NUM.eq_iff hfin hinteg).mpr hval

/-- Settles O50: the sign of a zero is `+0.0`, so the error is a zero, and a zero error keeps the integrator. -/
theorem timingDeadPoint : Obligations.TimingDeadPoint := by
  intro x lg mid early late hmid hdiff hlg hloop hrng hlow hhigh
  have herr := isZero_timingError hmid hdiff
  exact ⟨herr, integNext_of_isZero herr hlg hloop.integ hrng hlow hhigh⟩

end Sys2Proof.Machine
end

section
/-! PROOFS. The lifecycle register and the fault latch (60_exceptions.md R320, R323, R327). Every step either keeps `LC`,
`FCODE` and `FSLOT`, or takes one line of the transition table; of these lines `RESET` alone starts in `FAULTED`. -/

namespace Sys2Proof.Machine

/-! ### The lines of the transition table -/

/-- The lifecycle register and the fault latch are as before. -/
structure KeepsLatch (s t : State) : Prop where
  lc : t.lc = s.lc
  fcode : t.fcode = s.fcode
  fslot : t.fslot = s.fslot

/-- The lines that a command takes (60_exceptions.md R327). -/
inductive CommandTransition (i : Instr) (s t : State) : Prop
  | reset (hi : i = .reset) (ht : IsReset t)
  | start (hi : i = .start) (hs : s.lc = .idle ∨ s.lc = .halted) (ht : t.lc = .running ∨ t.lc = .faulted)
  | stop (hi : i = .stop) (hs : s.lc = .running) (ht : t.lc = .stopping)
  | commit (hi : i = .commit) (hs : s.lc = .running ∨ s.lc = .stopping) (ht : t.lc = .faulted)

/-- The lines that an agent beside the command port takes (60_exceptions.md R327). -/
inductive AgentTransition (a : Agent) (s t : State) : Prop
  | halt (ha : a = .sched) (hs : s.lc = .stopping) (ht : t.lc = .halted)
  | pipeline (ha : (∃ k, a = .stage k) ∨ a = .hostIo) (hs : s.lc = .running ∨ s.lc = .stopping) (ht : t.lc = .faulted)
  | push (ha : a = .hostSrc) (hs : s.lc = .running) (ht : t.lc = .faulted)
  | pop (ha : a = .hostSnk) (hs : s.lc = .running ∨ s.lc = .stopping ∨ s.lc = .halted) (ht : t.lc = .faulted)

theorem KeepsLatch.refl (s : State) : KeepsLatch s s := ⟨rfl, rfl, rfl⟩

theorem KeepsLatch.trans {s t u : State} (h : KeepsLatch s t) (h' : KeepsLatch t u) : KeepsLatch s u :=
  ⟨h'.lc.trans h.lc, h'.fcode.trans h.fcode, h'.fslot.trans h.fslot⟩

theorem keepsLatch_advancePlan (s : State) : KeepsLatch s s.advancePlan := by constructor <;> simp

/-- A transition of a state with the lifecycle register of `s` is one of `s`. -/
theorem CommandTransition.of_lc {i : Instr} {s u t : State} (h : CommandTransition i u t) (e : u.lc = s.lc) :
    CommandTransition i s t := by
  cases h with
  | reset hi ht => exact .reset hi ht
  | start hi hs ht => exact .start hi (e ▸ hs) ht
  | stop hi hs ht => exact .stop hi (e ▸ hs) ht
  | commit hi hs ht => exact .commit hi (e ▸ hs) ht

theorem AgentTransition.of_lc {a : Agent} {s u t : State} (h : AgentTransition a u t) (e : u.lc = s.lc) :
    AgentTransition a s t := by
  cases h with
  | halt ha hs ht => exact .halt ha (e ▸ hs) ht
  | pipeline ha hs ht => exact .pipeline ha (e ▸ hs) ht
  | push ha hs ht => exact .push ha (e ▸ hs) ht
  | pop ha hs ht => exact .pop ha (e ▸ hs) ht

/-! ### Commands -/

theorem isReset_effect (s : State) : IsReset (effect .reset s) := { isReset_resetEngine s with }

theorem rejectConfig_lc (s : State) (c : FaultCode) (k : BitVec 4) : (s.rejectConfig c k).lc = .faulted := by
  rw [State.rejectConfig, respond_lc, raiseFault_lc]

theorem startEffect_lc (s : State) : (startEffect s).lc = .running ∨ (startEffect s).lc = .faulted := by
  unfold startEffect
  dsimp only
  split
  · exact .inl rfl
  · exact .inr (rejectConfig_lc ..)

/-- A `COMMIT` keeps the latch or raises its fault (40_commands.md R125). -/
theorem commitEffect_latch (s : State) : KeepsLatch s (commitEffect s) ∨ (commitEffect s).lc = .faulted := by
  unfold commitEffect
  split
  · exact .inl ⟨rfl, rfl, rfl⟩
  · exact .inr (rejectConfig_lc ..)

theorem keepsLatch_waitEffect (s : State) : KeepsLatch s (waitEffect s) := by
  unfold waitEffect
  split <;> exact ⟨rfl, rfl, rfl⟩

theorem keepsLatch_readCsrEffect (n : BitVec 12) (s : State) : KeepsLatch s (readCsrEffect n s) := by
  unfold readCsrEffect
  split <;> exact ⟨rfl, rfl, rfl⟩

/-- An accepted command keeps the latch or takes its line of the table. -/
theorem effect_transition {i : Instr} {s : State} (hok : refusal s i = none) :
    KeepsLatch s (effect i s) ∨ CommandTransition i s (effect i s) := by
  obtain ⟨-, hlegal, -, -⟩ := (accepted_iff s i).mp hok
  cases i with
  | reset => exact .inr (.reset rfl (isReset_effect s))
  | start => exact .inr (.start rfl (of_decide_eq_true hlegal) (startEffect_lc s))
  | stop =>
    by_cases hlc : s.lc = .running
    · exact .inr (.stop rfl hlc (by rw [effect, stopEffect_of_running hlc]; rfl))
    · exact .inl (by rw [effect, stopEffect_of_not_running hlc]; exact ⟨rfl, rfl, rfl⟩)
  | commit => exact (commitEffect_latch s).imp_right (.commit rfl (of_decide_eq_true hlegal))
  | wait => exact .inl (keepsLatch_waitEffect s)
  | rdcsr n => exact .inl (keepsLatch_readCsrEffect n s)
  | _ => exact .inl ⟨rfl, rfl, rfl⟩

/-- The command port keeps the latch, or the command in front takes its line of the table. -/
theorem hostCmd_transition {s t : State} (h : hostCmd s = .next t) :
    KeepsLatch s t ∨ ∃ i rest, decode s.cmdIn = .instr i rest ∧ CommandTransition i s t := by
  rcases hostCmd_cases h with ⟨i, rest, hd, hexec⟩ | ⟨opc, rest, -, rfl⟩ | ⟨rest, -, rfl⟩ | ⟨-, rfl⟩
  · rw [exec_eq] at hexec
    rcases command_cases hexec with ⟨c, info, -, rfl⟩ | ⟨hok, rfl⟩
    · exact .inl ⟨rfl, rfl, rfl⟩
    · have hconsumed : KeepsLatch s { s with cmdIn := rest } := ⟨rfl, rfl, rfl⟩
      exact (effect_transition hok).imp hconsumed.trans fun ht => ⟨i, rest, hd, ht.of_lc rfl⟩
  · exact .inl ⟨rfl, rfl, rfl⟩
  · exact .inl ⟨rfl, rfl, rfl⟩
  · exact .inl (.refl _)

/-! ### The agents beside the command port -/

/-- The sink's fault is raised from the three states in which it is enabled and no fault is latched. -/
theorem hostSnk_transition (s : State) : KeepsLatch s (hostSnk s) ∨ AgentTransition .hostSnk s (hostSnk s) := by
  rcases hostSnk_cases s with e | ⟨v, q, -, -, hidle, ⟨-, e⟩ | ⟨-, e⟩⟩ <;> rw [e]
  · exact .inl (.refl s)
  · exact .inl ⟨rfl, rfl, rfl⟩
  · by_cases hf : s.lc = .faulted
    · rw [State.raiseFault, if_pos hf]
      exact .inl (.refl s)
    · exact .inr (.pop rfl (by cases hlc : s.lc <;> simp_all) (raiseFault_lc ..))

theorem stageStep_transition {s t : State} {k : Nat} (h : stageStep s k = .next t) :
    KeepsLatch s t ∨ AgentTransition (.stage k) s t := by
  rcases stageStep_cases h with rfl | ⟨-, out, rt, -, rfl⟩ | ⟨hready, -, rfl⟩ | ⟨-, rfl⟩
  · exact .inl (.refl _)
  · exact .inl ⟨rfl, rfl, rfl⟩
  · obtain ⟨-, -, hlc, -⟩ := (stageLive_iff s k).mp ((invokeReady_iff s k).mp hready).1
    exact .inr (.pipeline (.inl ⟨k, rfl⟩) hlc (raiseFault_lc ..))
  · exact .inl ⟨rfl, rfl, rfl⟩

theorem agentStep_transition {a : Agent} {s t : State} (ha : a ≠ .hostCmd) (h : agentStep a s = .next t) :
    KeepsLatch s t ∨ AgentTransition a s t := by
  cases a with
  | hostCmd => exact absurd rfl ha
  | hostSrc =>
    cases h
    rcases hostSrc_cases s with e | ⟨x, rest, hlc, -, -, ⟨-, e⟩ | ⟨-, e⟩⟩ <;> rw [e]
    · exact .inl (.refl s)
    · exact .inl ⟨rfl, rfl, rfl⟩
    · exact .inr (.push rfl hlc (raiseFault_lc ..))
  | hostSnk => cases h; exact hostSnk_transition s
  | hostIo =>
    cases h
    rcases hostIo_cases s with ⟨hlive, e⟩ | ⟨-, e⟩ <;> rw [e]
    · exact .inr (.pipeline (.inr rfl) ((live_iff s).mp hlive) (raiseFault_lc ..))
    · exact .inl (.refl s)
  | stage k => exact stageStep_transition h
  | sched =>
    cases h
    rcases schedHalt_cases s with ⟨hlc, -, -, e⟩ | e <;> rw [e]
    · exact .inr (.halt rfl hlc rfl)
    · exact .inl (.refl s)

/-! ### One step -/

/-- Every step keeps `LC` and the latch or takes one line of the transition table (60_exceptions.md R327). -/
theorem step_transition {s t : State} (h : step s = .next t) :
    KeepsLatch s t ∨ (∃ i, Executes s i ∧ CommandTransition i s t) ∨ AgentTransition s.nextAgent s t := by
  have hadv := keepsLatch_advancePlan s
  by_cases ha : s.nextAgent = .hostCmd
  · rw [step_hostCmd ha] at h
    rcases hostCmd_transition h with hkeep | ⟨i, rest, hd, ht⟩
    · exact .inl (hadv.trans hkeep)
    · exact .inr (.inl ⟨i, ⟨ha, rest, by rwa [advancePlan_cmdIn] at hd⟩, ht.of_lc hadv.lc⟩)
  · exact (agentStep_transition ha h).imp hadv.trans fun ht => .inr (ht.of_lc hadv.lc)

/-- Settles O30: of the lines of the table, `RESET` alone starts in `FAULTED`. -/
theorem onlyResetLeavesFaulted : Obligations.OnlyResetLeavesFaulted := by
  intro s t h hf
  rcases step_transition h with hkeep | ⟨i, hex, ht⟩ | ht
  · exact .inl ⟨hkeep.lc.trans hf, hkeep.fcode, hkeep.fslot⟩
  · cases ht with
    | reset hi ht => exact .inr ⟨hi ▸ hex, ht⟩
    | start hi hs ht => simp [hf] at hs
    | stop hi hs ht => simp [hf] at hs
    | commit hi hs ht => simp [hf] at hs
  · cases ht with
    | halt ha hs ht => simp [hf] at hs
    | pipeline ha hs ht => simp [hf] at hs
    | push ha hs ht => simp [hf] at hs
    | pop ha hs ht => simp [hf] at hs

/-- Settles O31: a step that changes `LC` does not keep the latch, and the lines are those of the statement. -/
theorem lifecycleTransitions : Obligations.LifecycleTransitions := by
  intro s t h hne
  rcases step_transition h with hkeep | ⟨i, hex, ht⟩ | ht
  · exact absurd hkeep.lc hne
  · cases ht with
    | reset hi ht => exact .inl ⟨hi ▸ hex, ht.lc⟩
    | start hi hs ht => exact .inr (.inl ⟨hi ▸ hex, hs, ht⟩)
    | stop hi hs ht => exact .inr (.inr (.inl ⟨hi ▸ hex, hs, ht⟩))
    | commit hi hs ht => exact .inr (.inr (.inr (.inr (.inl ⟨hi ▸ hex, hs, ht⟩))))
  · cases ht with
    | halt ha hs ht => exact .inr (.inr (.inr (.inl ⟨ha, hs, ht⟩)))
    | pipeline ha hs ht => exact .inr (.inr (.inr (.inr (.inr (.inl ⟨ha, hs, ht⟩)))))
    | push ha hs ht => exact .inr (.inr (.inr (.inr (.inr (.inr (.inl ⟨ha, hs, ht⟩))))))
    | pop ha hs ht => exact .inr (.inr (.inr (.inr (.inr (.inr (.inr ⟨ha, hs, ht⟩))))))

/-! ### Fault entry -/

/-- Settles O29: by the two cases of fault entry. -/
theorem faultEntry : Obligations.FaultEntry := fun _ c k =>
  ⟨fun hlc => raiseFault_of_ne hlc c k, fun hlc => if_pos hlc⟩

/-- The I/O failure is lost where the pipeline does not run (60_exceptions.md R316). -/
theorem hostIo_of_not_live {s : State} (h : s.live = false) : hostIo s = s := by
  rw [hostIo, h, if_neg Bool.false_ne_true]

/-- Settles O32: the event is a fault of a live pipeline; in `FAULTED` no stage is live, the halt step is not enabled and
the input port is closed. -/
theorem ioFailureAndFatalStop : Obligations.IoFailureAndFatalStop := by
  refine fun s => ⟨fun hlc => ?_, fun hlc => ?_, fun hlc => ⟨fun k => ?_, ?_, ?_⟩⟩
  · have hne : s.lc ≠ .faulted := by rcases hlc with e | e <;> simp [e]
    rw [agentStep, hostIo, (live_iff s).mpr hlc, if_pos rfl, raiseFault_of_ne hne]
  · rw [agentStep, hostIo_of_not_live (by rcases hlc with e | e | e <;> simp [State.live, e])]
  · obtain ⟨-, hstopped, -⟩ := blockedStageWaits s k
    exact hstopped (.inr (.inr hlc))
  · obtain ⟨-, -, hwaits⟩ := drainAndHalt s
    exact hwaits (.inl (by simp [hlc]))
  · obtain ⟨-, hclosed⟩ := sourcePush s
    exact hclosed (.inl (by simp [hlc]))

end Sys2Proof.Machine
end

section
/-! PROOFS. No infinity and no NaN enters a ring or a slot's runtime state (60_exceptions.md R310, 10_state.md R45). Whatever
is written there is a start value, was there before, or has passed the test of the agent that writes it: the source's on what
it takes in, a stage's on what it emits. Only the loop state of timing recovery is computed past its test; it lies between
finite limits. -/

namespace Sys2Proof.Machine

open NUM

/-! ### The invariant and the updates of the state -/

/-- The rings and the runtime state of every slot hold finite values of the default record. -/
structure DataFinite (s : State) : Prop where
  rings : ∀ r ∈ s.rings, ∀ x ∈ r.queue, x.finite binary64 = true
  slots : ∀ x ∈ s.slots, RuntimeFinite binary64 x

theorem RuntimeFinite.of_rt {N : NumRecord} {x y : Slot} (h : RuntimeFinite N x) (hrt : y.rt = x.rt) :
    RuntimeFinite N y := by
  obtain ⟨c, taps, itb, dv, rt⟩ := x
  subst hrt
  exact { h with }

theorem DataFinite.of_eq {s t : State} (h : DataFinite s) (hslots : t.slots = s.slots) (hrings : t.rings = s.rings) :
    DataFinite t :=
  ⟨hrings ▸ h.rings, hslots ▸ h.slots⟩

theorem DataFinite.same {s t : State} (h : DataFinite s) (e : SameRegisters s t) : DataFinite t := h.of_eq e.slots e.rings

theorem DataFinite.raiseFault {s : State} (h : DataFinite s) (c : FaultCode) (k : BitVec 4) :
    DataFinite (s.raiseFault c k) :=
  h.of_eq (raiseFault_slots ..) (raiseFault_rings ..)

/-- Every slot number reads a slot with finite runtime state. -/
theorem DataFinite.slot {s : State} (h : DataFinite s) (k : Nat) : RuntimeFinite binary64 (s.slot k) := by
  by_cases hk : k < s.slots.length
  · rw [slot_getElem s hk]
    exact h.slots _ (List.getElem_mem hk)
  · rw [slot_of_ge s (not_lt.mp hk)]
    exact runtimeFinite_reset s.par

/-- Every ring number reads a queue of finite samples. -/
theorem DataFinite.queue {s : State} (h : DataFinite s) (e : Nat) : ∀ x ∈ (s.ring e).queue, x.finite binary64 = true := by
  by_cases he : e < s.rings.length
  · rw [ring_getElem s he]
    exact h.rings _ (List.getElem_mem he)
  · rw [State.ring, List.getD_eq_getElem?_getD, List.getElem?_eq_none (not_lt.mp he)]
    exact fun x hx => absurd hx List.not_mem_nil

theorem DataFinite.front {s : State} (h : DataFinite s) (e n : Nat) : ∀ x ∈ s.front e n, x.finite binary64 = true :=
  fun x hx => h.queue e x (List.mem_of_mem_take hx)

theorem DataFinite.setSlot {s : State} (h : DataFinite s) (k : Nat) {x : Slot} (hx : RuntimeFinite binary64 x) :
    DataFinite (s.setSlot k x) where
  rings := h.rings
  slots y hy := by
    rcases List.mem_or_eq_of_mem_set hy with hy | rfl
    · exact h.slots y hy
    · exact hx

theorem DataFinite.setQueue {s : State} (h : DataFinite s) (e : Nat) {q : List Sample}
    (hq : ∀ x ∈ q, x.finite binary64 = true) : DataFinite (s.setRing e { s.ring e with queue := q }) where
  rings r hr := by
    rcases List.mem_or_eq_of_mem_set hr with hr | rfl
    · exact h.rings r hr
    · exact hq
  slots := h.slots

theorem DataFinite.deq {s : State} (h : DataFinite s) (e n : Nat) : DataFinite (s.deq e n) :=
  h.setQueue e fun x hx => h.queue e x (List.mem_of_mem_drop hx)

theorem DataFinite.enq {s : State} (h : DataFinite s) (e : Nat) {xs : List Sample}
    (hxs : ∀ x ∈ xs, x.finite binary64 = true) : DataFinite (s.enq e xs) :=
  h.setQueue e fun x hx => (List.mem_append.mp hx).elim (h.queue e x) (hxs x)

/-! ### Invocations -/

theorem finite_mk {re im : F} (hre : finite re = true) (him : finite im = true) :
    ({ re := re, im := im } : Sample).finite binary64 = true := by
  rw [Sample.finite, Bool.and_eq_true]
  exact ⟨hre, him⟩

theorem finite_re_im {x : Sample} (h : x.finite binary64 = true) : finite x.re = true ∧ finite x.im = true := by
  rwa [Sample.finite, Bool.and_eq_true] at h

/-- What an invocation that emits leaves: finite outputs, and finite runtime state in its slot. -/
structure EmitFinite (x : Slot) (out : List Sample) (rt : Runtime) : Prop where
  out : ∀ y ∈ out, y.finite binary64 = true
  rt : RuntimeFinite binary64 { x with rt := rt }

theorem finite_headD {xs : List Sample} (h : ∀ x ∈ xs, x.finite binary64 = true) :
    (xs.headD Sample.zero).finite binary64 = true := by
  cases xs with
  | nil => exact sample_zero_finite
  | cons x xs => exact h x List.mem_cons_self

/-- The squelch passes its input or a zero, and tests its power (42_squelch.md R203). -/
theorem invokeSql_emit_finite {x : Slot} {v : Sample} {out : List Sample} {rt : Runtime} (hx : RuntimeFinite binary64 x)
    (hv : v.finite binary64 = true) (h : invokeSql binary64 x v = .emit out rt) : EmitFinite x out rt := by
  obtain ⟨pwr, gate, -, -, hpwr, rfl, rfl⟩ := invokeSql_emit h
  refine ⟨fun y hy => ?_, { hx with pwr := hpwr }⟩
  rw [List.mem_singleton.mp hy]
  split
  · exact hv
  · exact sample_zero_finite

/-- The demodulator tests its output and stores its input (43_fmdemod.md R218). -/
theorem invokeFmd_emit_finite {x : Slot} {v : Sample} {out : List Sample} {rt : Runtime} (hx : RuntimeFinite binary64 x)
    (hv : v.finite binary64 = true) (h : invokeFmd binary64 x v = .emit out rt) : EmitFinite x out rt := by
  obtain ⟨y, -, hy, rfl, rfl⟩ := invokeFmd_emit h
  refine ⟨fun z hz => ?_, { hx with prev := hv }⟩
  rw [List.mem_singleton.mp hz]
  exact finite_mk hy finite_zero

/-- The history of a filter holds old entries and inputs (44_fir.md R233). -/
theorem foldl_shiftHist_finite (p : Params) (cplx : Bool) {xs hist : List Sample}
    (hxs : ∀ x ∈ xs, x.finite binary64 = true) (hh : ∀ y ∈ hist, y.finite binary64 = true) :
    ∀ y ∈ xs.foldl (shiftHist p cplx) hist, y.finite binary64 = true := by
  induction xs generalizing hist with
  | nil => exact hh
  | cons x xs ih =>
    obtain ⟨hx, hxs⟩ := List.forall_mem_cons.mp hxs
    refine ih hxs fun y hy => ?_
    rcases shiftHist_mem p cplx hist x y hy with hy | rfl
    · exact hh y hy
    · split
      · exact hx
      · exact finite_mk (finite_re_im hx).1 finite_zero

/-- A filter tests each output (44_fir.md R236). -/
theorem pfir_emit_finite {p : Params} {x : Slot} {xs out : List Sample} {rt : Runtime} (hN : p.record = binary64)
    (hm : 1 ≤ x.cfg.m.toNat) (hx : RuntimeFinite binary64 x) (hxs : ∀ v ∈ xs, v.finite binary64 = true)
    (h : pfir p x xs = .emit out rt) : EmitFinite x out rt := by
  obtain ⟨hist, hpoly, rfl⟩ := pfir_emit h
  obtain ⟨rfl, hout, -⟩ := polyphase_facts p _ _ _ _ hm xs 0 _ out hist hpoly
  rw [hN] at hout
  refine ⟨fun y hy => ?_, { hx with hist := foldl_shiftHist_finite p _ hxs hx.hist }⟩
  obtain ⟨hfin, hreal⟩ := hout y hy
  exact finite_of_finiteOn hfin hreal

/-- Timing recovery tests its output and its error; the loop state lies within its limits (45_str.md R260, R264). -/
theorem invokeStr_emit_finite {p : Params} {lg : F} {x : Slot} {xs out : List Sample} {rt : Runtime}
    (hN : p.record = binary64) (hp : p.Ok) (hv : StrValid binary64 p x) (hl : LoopOk binary64 x) (hg : finite lg = true)
    (hx : RuntimeFinite binary64 x) (hxs : ∀ v ∈ xs, v.finite binary64 = true)
    (h : invokeStr p lg x xs = .emit out rt) : EmitFinite x out rt := by
  obtain ⟨top, htop⟩ := floor_isSome hv.pmaxFinite
  have hw := invokeStr_emit_within hN hp hv hl hg htop h
  obtain ⟨win, mid, early, late, e, n, mu, -, -, hwin, -, -, hmid, he, -, rfl, rfl⟩ := invokeStr_emit h
  rw [hN] at hmid he
  refine ⟨fun y hy => ?_, { hx with
    mu := hw.muFinite, period := hw.periodFinite, integ := hw.integFinite, err := he, win := fun v hv => ?_ }⟩
  · rw [List.mem_singleton.mp hy]
    exact finite_mk hmid finite_zero
  · rw [hwin] at hv
    rcases foldl_shiftWin_mem _ _ _ v hv with hv | hv
    · exact hx.win v hv
    · obtain ⟨y, hy, rfl⟩ := List.mem_map.mp hv
      exact (finite_re_im (hxs y hy)).1

/-- An invocation of a stage of a live pipeline on finite samples emits finite samples and leaves finite runtime state. -/
theorem invoke_emit_finite {s : State} {k : Nat} {xs out : List Sample} {rt : Runtime} (hN : s.par.record = binary64)
    (hp : s.par.Ok) (hl : LivePipeline s) (hk : k < s.nstg) (hx : RuntimeFinite binary64 (s.slot k))
    (hxs : ∀ v ∈ xs, v.finite binary64 = true) (h : invoke s (s.slot k) xs = .emit out rt) :
    EmitFinite (s.slot k) out rt := by
  unfold invoke at h
  cases hkind : (s.slot k).cfg.kind <;> rw [hkind] at h <;> dsimp only at h
  case none => cases h; exact ⟨fun y hy => absurd hy List.not_mem_nil, hx⟩
  case sql => exact invokeSql_emit_finite hx (finite_headD hxs) (hN ▸ h)
  case fmd => exact invokeFmd_emit_finite hx (finite_headD hxs) (hN ▸ h)
  case fir => exact pfir_emit_finite hN (hl.rates k hk (.inl hkind)).2 hx hxs h
  case rsp => exact pfir_emit_finite hN (hl.rates k hk (.inr hkind)).2 hx hxs h
  case str =>
    obtain ⟨hv, hloop, hg⟩ := hl.strSlot hN hk hkind
    exact invokeStr_emit_finite hN hp hv hloop hg hx hxs h

/-! ### The agents beside the command port -/

theorem DataFinite.hostSrc {s : State} (hN : s.par.record = binary64) (h : DataFinite s) : DataFinite (hostSrc s) := by
  rcases hostSrc_cases s with e | ⟨x, rest, -, -, hoff, ⟨hfin, e⟩ | ⟨-, e⟩⟩ <;> rw [e]
  · exact h
  · refine (h.same (sameRegisters_srcIn s rest)).enq 0 fun y hy => ?_
    rw [List.mem_singleton.mp hy]
    rw [hN] at hfin
    exact finite_of_finiteOn hfin fun hreal => offered_im (hreal ▸ hoff)
  · exact h.raiseFault _ _

theorem DataFinite.hostSnk {s : State} (h : DataFinite s) : DataFinite (hostSnk s) := by
  rcases hostSnk_cases s with e | ⟨v, q, -, -, -, ⟨-, e⟩ | ⟨-, e⟩⟩ <;> rw [e]
  · exact h
  · exact (h.same (sameRegisters_snkOut s _)).deq _ _
  · exact h.raiseFault _ _

theorem DataFinite.hostIo {s : State} (h : DataFinite s) : DataFinite (hostIo s) := by
  rcases hostIo_cases s with ⟨-, e⟩ | ⟨-, e⟩ <;> rw [e]
  · exact h.raiseFault _ _
  · exact h

theorem DataFinite.schedHalt {s : State} (h : DataFinite s) : DataFinite (schedHalt s) := by
  rcases schedHalt_cases s with ⟨-, -, -, e⟩ | e <;> rw [e]
  · exact h.of_eq rfl rfl
  · exact h

theorem DataFinite.stageStep {s t : State} {k : Nat} (hN : s.par.record = binary64) (hp : s.par.Ok)
    (hl : s.live = true → LivePipeline s) (h : DataFinite s) (hstep : stageStep s k = .next t) : DataFinite t := by
  rcases stageStep_cases hstep with rfl | ⟨hready, out, rt, hinv, rfl⟩ | ⟨-, -, rfl⟩ | ⟨-, rfl⟩
  · exact h
  · obtain ⟨hk, -, hlc, -⟩ := (stageLive_iff s k).mp ((invokeReady_iff s k).mp hready).1
    have hemit := invoke_emit_finite hN hp (hl ((live_iff s).mpr hlc)) hk (h.slot k) (h.front k _) hinv
    exact ((h.deq k _).setSlot k hemit.rt).enq (k + 1) hemit.out
  · exact h.raiseFault _ _
  · exact h.setSlot k { h.slot k with }

theorem DataFinite.agentStep {s t : State} {a : Agent} (hN : s.par.record = binary64) (hp : s.par.Ok)
    (hl : s.live = true → LivePipeline s) (h : DataFinite s) (ha : a ≠ .hostCmd) (hstep : agentStep a s = .next t) :
    DataFinite t := by
  cases a with
  | hostCmd => exact absurd rfl ha
  | hostSrc => cases hstep; exact h.hostSrc hN
  | hostSnk => cases hstep; exact h.hostSnk
  | hostIo => cases hstep; exact h.hostIo
  | stage k => exact h.stageStep hN hp hl hstep
  | sched => cases hstep; exact h.schedHalt

/-! ### Commands -/

/-- The start values are zeros, but for the period of a timing recovery slot (10_state.md R43, 45_str.md R254). -/
theorem RuntimeFinite.start {p : Params} {x : Slot} (h : RuntimeFinite binary64 x)
    (hp0 : x.cfg.kind = .str → finite x.dv.p0 = true) : RuntimeFinite binary64 (startSlot p x) := by
  have hzero : ∀ y ∈ List.replicate p.tapmax Sample.zero, y.finite binary64 = true := fun y hy =>
    List.eq_of_mem_replicate hy ▸ sample_zero_finite
  have hwin : ∀ v ∈ List.replicate p.hlen posZero, finite v = true := fun v hv =>
    List.eq_of_mem_replicate hv ▸ finite_zero
  unfold startSlot
  cases hkind : x.cfg.kind <;> dsimp only
  case none => exact { h with }
  case sql => exact { h with pwr := finite_zero }
  case fmd => exact { h with prev := sample_zero_finite }
  case fir => exact { h with hist := hzero }
  case rsp => exact { h with hist := hzero }
  case str =>
    exact { h with
      mu := finite_zero, integ := finite_zero, err := finite_zero, period := hp0 hkind, win := hwin }

/-- `derive()` and `adopt()` write no runtime state (40_commands.md R127, R128). -/
theorem DataFinite.committed {s : State} (h : DataFinite s) : DataFinite s.adopt.derive where
  rings := h.rings
  slots x hx := by
    obtain ⟨y, hy, e⟩ := mem_mapFirst hx
    obtain ⟨z, hz, rfl⟩ := List.mem_map.mp hy
    exact (h.slots z hz).of_rt (by rcases e with rfl | rfl <;> simp)

/-- A started pipeline has empty rings and start values (40_commands.md R122). -/
theorem DataFinite.started {s : State} {n : Nat} {z : BitVec 4} (hN : s.par.record = binary64) (hp : s.par.Ok)
    (hn : n ≤ s.slots.length) (hv : validate s.par s.pend s.slots n = (.noFault, z)) (h : DataFinite s) :
    DataFinite (s.started n) where
  rings r hr x hx := by
    obtain ⟨e, he, rfl⟩ := List.mem_mapIdx.mp hr
    exact absurd hx List.not_mem_nil
  slots x hx := by
    obtain ⟨-, -, hchecks⟩ := validate_noFault_slot hn hv
    obtain ⟨k, hk, rfl⟩ := List.getElem_of_mem hx
    rw [← slot_getElem _ hk]
    by_cases hkn : k < n
    · rw [started_slot_of_lt hkn hn]
      refine RuntimeFinite.start ((h.slot k).of_rt (by simp)) fun hkind => ?_
      rw [deriveSlot_cfg] at hkind
      obtain ⟨hstr, -⟩ := strValid_derived (x := s.slot k) hN hp hkind (hchecks k hkn)
      rw [deriveSlot_dv_adopt, hN]
      exact hstr.p0.1
    · rw [started_slot_of_ge s (not_lt.mp hkn)]
      exact (h.slot k).of_rt rfl

theorem DataFinite.rejectConfig {s : State} (h : DataFinite s) (c : FaultCode) (k : BitVec 4) :
    DataFinite (s.rejectConfig c k) := (h.raiseFault c k).same (sameRegisters_respond ..)

theorem DataFinite.startEffect {s : State} (hN : s.par.record = binary64) (hp : s.par.Ok) (h : DataFinite s) :
    DataFinite (startEffect s) := by
  unfold Machine.startEffect
  dsimp only
  split
  · rename_i z hv
    exact (h.started hN hp (leading_le s.slots) hv).same (sameRegisters_respond ..)
  · exact h.rejectConfig _ _

theorem DataFinite.commitEffect {s : State} (h : DataFinite s) : DataFinite (commitEffect s) := by
  unfold Machine.commitEffect
  split
  · exact h.committed.same (sameRegisters_respond ..)
  · exact h.rejectConfig _ _

theorem DataFinite.stopEffect {s : State} (h : DataFinite s) : DataFinite (stopEffect s) := by
  unfold Machine.stopEffect
  split <;> exact h.of_eq rfl rfl

/-- The commands on one slot write it and answer. -/
theorem DataFinite.setSlot_respond {s : State} (h : DataFinite s) (k : Nat) {x : Slot} {c : Status} {info : BitVec 24}
    (hx : RuntimeFinite binary64 x) : DataFinite ((s.setSlot k x).respond c info) :=
  (h.setSlot k hx).same (sameRegisters_respond ..)

theorem dataFinite_resetEngine (s : State) : DataFinite s.resetEngine where
  rings r hr x hx := by
    rw [List.eq_of_mem_replicate hr] at hx
    exact absurd hx List.not_mem_nil
  slots _ hx := List.eq_of_mem_replicate hx ▸ runtimeFinite_reset s.par

/-- No command writes a value of its payload into a ring or into runtime state. -/
theorem DataFinite.effect {s : State} (hN : s.par.record = binary64) (hp : s.par.Ok) (h : DataFinite s) (i : Instr) :
    DataFinite (effect i s) := by
  cases effect_cases i s with
  | quiet he => exact h.same he
  | stop hi => subst hi; exact h.stopEffect
  | reset hi => subst hi; exact (dataFinite_resetEngine s).same (sameRegisters_respond ..)
  | start hi => subst hi; exact h.startEffect hN hp
  | commit hi => subst hi; exact h.commitEffect
  | pending v t hi he => rw [he]; exact h.of_eq rfl rfl
  | configured k c hi hl he =>
    rw [he]
    exact h.setSlot_respond k.toNat ((runtimeFinite_reset s.par).of_rt rfl)
  | taps k vs hi => subst hi; exact h.setSlot_respond k.toNat ((h.slot k.toNat).of_rt rfl)
  | row k r cs hi => subst hi; exact h.setSlot_respond k.toNat ((h.slot k.toNat).of_rt rfl)

/-! ### One step -/

theorem effect_par (i : Instr) (s : State) : (effect i s).par = s.par := by
  cases effect_cases i s with
  | quiet he => exact he.par
  | stop hi => subst hi; exact (dataStep_stopEffect s).par
  | reset hi => subst hi; rfl
  | start hi => subst hi; simp only [effect, startEffect]; split <;> simp [State.rejectConfig, State.started]
  | commit hi => subst hi; simp only [effect, commitEffect]; split <;> simp [State.rejectConfig]
  | pending v t hi he => rw [he]; rfl
  | configured k c hi hl he => rw [he]; rfl
  | taps k vs hi => subst hi; rfl
  | row k r cs hi => subst hi; rfl

/-- The parameters are no state of the engine: no step changes them (00_scope.md R6, log 4). -/
theorem step_par {s t : State} (h : step s = .next t) : t.par = s.par := by
  rcases step_cases h with ⟨i, u, -, hu, -, rfl⟩ | hsame | ⟨a, ha, hagent⟩
  · exact (effect_par i u).trans hu.par
  · exact hsame.par
  · exact (dataStep_agentStep ha hagent).par.trans (advancePlan_par s)

/-- Settles O57: by the three kinds of step. -/
theorem nonFiniteNeverEnters : Obligations.NonFiniteNeverEnters := by
  intro s t hnum hwf hl hrings hslots hstep
  have hN : s.par.record = binary64 := record_eq hnum
  have h : DataFinite s := ⟨hN ▸ hrings, hN ▸ hslots⟩
  have ht : DataFinite t := by
    rcases step_cases hstep with ⟨i, u, -, hu, -, rfl⟩ | hsame | ⟨a, ha, hagent⟩
    · exact (h.same hu).effect (hu.par ▸ hN) (hu.par ▸ hwf.par) i
    · exact h.same hsame
    · have hadv := sameRegisters_advancePlan s
      exact (h.same hadv).agentStep (hadv.par ▸ hN) (hadv.par ▸ hwf.par)
        (fun hlive => (hl (hadv.live ▸ hlive)).same hadv) ha hagent
  have hNt : t.par.record = binary64 := by rw [step_par hstep, hN]
  rw [RingsFinite, hNt]
  exact ⟨ht.rings, ht.slots⟩

end Sys2Proof.Machine
end

section
/-! PROOFS. Validation (60_exceptions.md R305): which defect it finds first, and that a candidate that fails is rejected
whole (R307, R320). -/

namespace Sys2Proof.Machine

/-! ### A rejected candidate -/

/-- The word a rejected candidate answers: `FCODE` and `FSLOT` of the latch (30_encoding.md R98). -/
theorem statusWord_faultInfo (s : State) :
    statusWord .errFault (faultInfo s) = BitVec.ofNat 32 (0x10000000 + s.fcode.code + s.fslot.toNat * 0x100) := by
  have hcode := faultCode_code_lt s.fcode
  have hslot := s.fslot.isLt
  refine BitVec.eq_of_toNat_eq ?_
  rw [statusWord_toNat, faultInfo, BitVec.toNat_ofNat, BitVec.toNat_ofNat, Nat.mod_eq_of_lt (by omega),
    Nat.mod_eq_of_lt (by omega), Nat.add_assoc]
  rfl

theorem rejectConfig_of_ne {s : State} (h : s.lc ≠ .faulted) (c : FaultCode) (k : BitVec 4) :
    s.rejectConfig c k = { s with lc := .faulted, fcode := c, fslot := k }.answers
      [BitVec.ofNat 32 (0x10000000 + c.code + k.toNat * 0x100)] := by
  rw [State.rejectConfig, raiseFault_of_ne h, State.respond, statusWord_faultInfo]
  rfl

theorem startEffect_of_defect {s : State} {c : FaultCode} {k : BitVec 4} (hc : c ≠ .noFault)
    (h : validate s.par s.pend s.slots (leading s.slots) = (c, k)) : startEffect s = s.rejectConfig c k := by
  unfold startEffect
  dsimp only
  rw [h]
  split <;> rename_i heq <;> cases heq
  · exact absurd rfl hc
  · rfl

theorem commitEffect_of_defect {s : State} {c : FaultCode} {k : BitVec 4} (hc : c ≠ .noFault)
    (h : validate s.par s.pend s.slots s.nstg = (c, k)) : commitEffect s = s.rejectConfig c k := by
  unfold commitEffect
  rw [h]
  split <;> rename_i heq <;> cases heq
  · exact absurd rfl hc
  · rfl

/-- Settles O16: both commands pass their checks, and their effect is to reject the candidate. -/
theorem candidateRejected : Obligations.CandidateRejected := by
  refine fun s c k hc => ⟨fun hlc hv => ?_, fun hlc hv => ?_⟩
  · have hexec : exec .start s = .next (startEffect s) := exec_of_checks rfl (decide_eq_true hlc) rfl rfl
    rw [hexec, startEffect_of_defect hc hv, rejectConfig_of_ne (by rcases hlc with e | e <;> simp [e])]
  · have hexec : exec .commit s = .next (commitEffect s) := exec_of_checks rfl (decide_eq_true hlc) rfl rfl
    rw [hexec, commitEffect_of_defect hc hv, rejectConfig_of_ne (by rcases hlc with e | e <;> simp [e])]

/-! ### The three searches, by place (60_exceptions.md R305 steps 2 to 4) -/

section
variable {p : Params} {t : Tunables} {d : Slot}

/-- Step 2 finds the first configured slot. -/
theorem gapAt_eq_some {k j : Nat} {xs : List Slot} (hj : j < xs.length) (hgap : (xs.getD j d).cfg.kind ≠ .none)
    (hfirst : ∀ i < j, (xs.getD i d).cfg.kind = .none) : gapAt k xs = some (k + j) := by
  induction xs generalizing k j with
  | nil => exact absurd hj (Nat.not_lt_zero j)
  | cons x xs ih =>
    cases j with
    | zero => exact if_neg hgap
    | succ j =>
      have hrest : gapAt (k + 1) xs = some (k + 1 + j) :=
        ih (Nat.lt_of_succ_lt_succ hj) hgap fun i hi => hfirst (i + 1) (Nat.succ_lt_succ hi)
      have hx : x.cfg.kind = .none := hfirst 0 (Nat.succ_pos j)
      rw [gapAt, if_pos hx, hrest, Nat.add_assoc, Nat.add_comm 1]

theorem gapAt_eq_none {k : Nat} {xs : List Slot} (h : ∀ x ∈ xs, x.cfg.kind = .none) : gapAt k xs = none := by
  induction xs generalizing k with
  | nil => rfl
  | cons x xs ih =>
    obtain ⟨hx, hxs⟩ := List.forall_mem_cons.mp h
    rw [gapAt, if_pos hx, ih hxs]

/-- Step 3 finds the first slot whose input type is not its predecessor's output type. -/
theorem typeClashAt_eq_some {k j : Nat} {xs : List Slot} (hj : j + 1 < xs.length)
    (hclash : (xs.getD j d).outCplx ≠ (xs.getD (j + 1) d).inCplx)
    (hfirst : ∀ i < j, (xs.getD i d).outCplx = (xs.getD (i + 1) d).inCplx) :
    typeClashAt k xs = some (k + (j + 1)) := by
  induction xs generalizing k j with
  | nil => exact absurd hj (Nat.not_lt_zero _)
  | cons x xs ih =>
    cases xs with
    | nil => simp at hj
    | cons y ys =>
      cases j with
      | zero => exact if_neg hclash
      | succ j =>
        have hrest : typeClashAt (k + 1) (y :: ys) = some (k + 1 + (j + 1)) :=
          ih (Nat.lt_of_succ_lt_succ hj) hclash fun i hi => hfirst (i + 1) (Nat.succ_lt_succ hi)
        have hxy : x.outCplx = y.inCplx := hfirst 0 (Nat.succ_pos j)
        rw [typeClashAt, if_pos hxy, hrest]
        congr 1
        omega

theorem typeClashAt_eq_none {k : Nat} {xs : List Slot}
    (h : ∀ i, i + 1 < xs.length → (xs.getD i d).outCplx = (xs.getD (i + 1) d).inCplx) : typeClashAt k xs = none := by
  induction xs generalizing k with
  | nil => rfl
  | cons x xs ih =>
    cases xs with
    | nil => rfl
    | cons y ys =>
      have hxy : x.outCplx = y.inCplx := h 0 (by simp)
      rw [typeClashAt, if_pos hxy]
      exact ih fun i hi => h (i + 1) (Nat.succ_lt_succ hi)

/-- Step 4 finds the first slot with a failing check, and that check's code. -/
theorem defectAt_eq {k j : Nat} {xs : List Slot} {c : FaultCode} (hj : j < xs.length) (hc : c ≠ .noFault)
    (hbad : firstBad (slotChecks p t (xs.getD j d)) = c)
    (hfirst : ∀ i < j, firstBad (slotChecks p t (xs.getD i d)) = .noFault) :
    defectAt p t k xs = (c, BitVec.ofNat 4 (k + j)) := by
  induction xs generalizing k j with
  | nil => exact absurd hj (Nat.not_lt_zero j)
  | cons x xs ih =>
    unfold defectAt
    cases j with
    | zero =>
      rw [show firstBad (slotChecks p t x) = c from hbad]
      split
      · exact absurd rfl hc
      · rfl
    | succ j =>
      have hx : firstBad (slotChecks p t x) = .noFault := hfirst 0 (Nat.succ_pos j)
      rw [hx]
      dsimp only
      rw [ih (Nat.lt_of_succ_lt_succ hj) hbad fun i hi => hfirst (i + 1) (Nat.succ_lt_succ hi), Nat.add_assoc,
        Nat.add_comm 1]

theorem defectAt_eq_noFault {k : Nat} {xs : List Slot} (h : ∀ x ∈ xs, firstBad (slotChecks p t x) = .noFault) :
    defectAt p t k xs = (.noFault, 0#4) := by
  induction xs generalizing k with
  | nil => rfl
  | cons x xs ih =>
    obtain ⟨hx, hxs⟩ := List.forall_mem_cons.mp h
    unfold defectAt
    rw [hx]
    exact ih hxs

end

/-! ### The order of the steps -/

/-- What holds of the slot at each place of a list holds of each slot in it. -/
theorem forall_mem_of_getD {P : Slot → Prop} {xs : List Slot} {d : Slot} (h : ∀ j < xs.length, P (xs.getD j d)) :
    ∀ x ∈ xs, P x := by
  intro x hx
  obtain ⟨j, hj, rfl⟩ := List.getElem_of_mem hx
  rw [← List.getD_eq_getElem xs d hj]
  exact h j hj

section
variable {p : Params} {t : Tunables} {slots : List Slot} {n : Nat}

theorem validate_of_gap {k : Nat} (hn : 0 < n) (h : gapAt n (slots.drop n) = some k) :
    validate p t slots n = (.cfgGap, BitVec.ofNat 4 k) := by
  rw [validate, if_neg hn.ne', h]

theorem validate_of_clash {k : Nat} (hn : 0 < n) (hgap : gapAt n (slots.drop n) = none)
    (h : typeClashAt 0 (slots.take n) = some k) : validate p t slots n = (.cfgType, BitVec.ofNat 4 k) := by
  rw [validate, if_neg hn.ne', hgap, h]

theorem validate_of_typed (hn : 0 < n) (hgap : gapAt n (slots.drop n) = none)
    (h : typeClashAt 0 (slots.take n) = none) : validate p t slots n = defectAt p t 0 (slots.take n) := by
  rw [validate, if_neg hn.ne', hgap, h]

end

/-- Settles O18: each step's search finds the first place of its defect; a step is reached where the searches before it find
nothing. -/
theorem validationFindsFirstDefect : Obligations.ValidationFindsFirstDefect := by
  intro p t slots n hn x gap clash defect
  have hlen : (slots.take n).length = n := by rw [List.length_take, Nat.min_eq_left hn]
  have htake : ∀ j < n, (slots.take n).getD j (Slot.reset p) = x j := fun j hj => by simp [x, hj]
  have hdrop : ∀ j, (slots.drop n).getD j (Slot.reset p) = x (n + j) := fun j => by simp [x]
  have hnogap (h : ∀ j, ¬gap j) : gapAt n (slots.drop n) = none := by
    refine gapAt_eq_none (forall_mem_of_getD (d := Slot.reset p) fun j hj => ?_)
    rw [List.length_drop] at hj
    rw [hdrop]
    by_contra hne
    exact h (n + j) ⟨by omega, by omega, hne⟩
  have hnoclash (h : ∀ j, ¬clash j) : typeClashAt 0 (slots.take n) = none := by
    refine typeClashAt_eq_none (d := Slot.reset p) fun i hi => ?_
    rw [hlen] at hi
    rw [htake i (by omega), htake (i + 1) hi]
    by_contra hne
    exact h (i + 1) ⟨by omega, hi, Ne.symm hne⟩
  refine ⟨fun h0 => if_pos h0, fun k hpos hk hfirst => ?_, fun k hpos hgap hk hfirst => ?_,
    fun k c hpos hgap hclash hk hfirst => ?_, fun hpos hgap hclash hdefect => ?_⟩
  · obtain ⟨hnk, hklen, hkind⟩ := hk
    obtain ⟨j, rfl⟩ := Nat.exists_eq_add_of_le hnk
    refine validate_of_gap hpos (gapAt_eq_some (d := Slot.reset p) (by rw [List.length_drop]; omega) ?_ fun i hi => ?_)
    · rw [hdrop]
      exact hkind
    · rw [hdrop]
      by_contra hne
      exact hfirst (n + i) (by omega) ⟨by omega, by omega, hne⟩
  · obtain ⟨hk1, hkn, hne⟩ := hk
    obtain ⟨j, rfl⟩ := Nat.exists_eq_add_of_le' hk1
    rw [← Nat.zero_add (j + 1)]
    refine validate_of_clash hpos (hnogap hgap) (typeClashAt_eq_some (d := Slot.reset p) (by omega) ?_ fun i hi => ?_)
    · rw [htake j (by omega), htake (j + 1) hkn]
      exact Ne.symm hne
    · rw [htake i (by omega), htake (i + 1) (by omega)]
      by_contra hne
      exact hfirst (i + 1) (by omega) ⟨by omega, by omega, Ne.symm hne⟩
  · obtain ⟨hkn, hbad, hc⟩ := hk
    rw [validate_of_typed hpos (hnogap hgap) (hnoclash hclash), ← Nat.zero_add k]
    refine defectAt_eq (d := Slot.reset p) (by omega) hc (by rwa [htake k hkn]) fun i hi => ?_
    rw [htake i (by omega)]
    by_contra hne
    exact hfirst i hi _ ⟨by omega, rfl, hne⟩
  · rw [validate_of_typed hpos (hnogap hgap) (hnoclash hclash)]
    refine defectAt_eq_noFault (forall_mem_of_getD (d := Slot.reset p) fun j hj => ?_)
    rw [hlen] at hj
    rw [htake j hj]
    by_contra hne
    exact hdefect j _ ⟨hj, rfl, hne⟩

end Sys2Proof.Machine
end

section
/-! PROOFS. The checks of one slot, kind by kind (60_exceptions.md R305, "Checks per kind"). The list of checks is read as a
chain of conditions, each written as the rule writes it. -/

namespace Sys2Proof.Machine

theorem firstBad_nil : firstBad [] = .noFault := rfl

theorem firstBad_cons (good : Bool) (c : FaultCode) (rest : List (Bool × FaultCode)) :
    firstBad ((good, c) :: rest) = if good = true then firstBad rest else c := rfl

section
variable {N : NumRecord} {p : Params} {t : Tunables} {c : SlotCfg} {x : Slot}

theorem positive_iff {v : F} : positive N v = true ↔ N.finite v = true ∧ N.lt posZero v = true := Bool.and_eq_true_iff

theorem nonnegative_iff {v : F} : nonnegative N v = true ↔ N.finite v = true ∧ N.le posZero v = true :=
  Bool.and_eq_true_iff

/-! ### Squelch and demodulator -/

/-- The checks of `SQL` share one code, so that they are one condition. -/
theorem firstBad_checkSql : firstBad (checkSql N t c) =
    if (N.finite c.par1 = true ∧ N.lt posZero c.par1 = true) ∧ N.le c.par1 N.one = true ∧
      (N.finite c.par2 = true ∧ N.le posZero c.par2 = true) ∧ N.finite t.thr = true ∧
      N.finite (thoOf N t.thr c.par2) = true ∧ N.finite (thcOf N t.thr c.par2) = true then .noFault else .cfgSql := by
  simp only [checkSql, firstBad_cons, firstBad_nil, Bool.and_eq_true, positive_iff, nonnegative_iff, ← ite_and,
    and_assoc]

theorem firstBad_checkFmd : firstBad (checkFmd N t c) =
    if ¬(N.finite (fmdRate t c) = true ∧ N.lt posZero (fmdRate t c) = true) then .cfgRate
    else if ¬(N.finite t.dev = true ∧ N.lt posZero t.dev = true) ∨
      ¬(N.finite (gainOf N (fmdRate t c) t.dev) = true ∧ N.lt posZero (gainOf N (fmdRate t c) t.dev) = true) then .cfgDev
    else .noFault := by
  simp only [checkFmd, firstBad_cons, firstBad_nil, positive_iff, ← not_and_or, ite_not, ← ite_and]

/-! ### Filter and resampler -/

theorem firstBad_checkTaps : firstBad (checkTaps p x) =
    if ¬(1 ≤ (candidateTaps x).length ∧ ∀ v ∈ candidateTaps x, p.record.finite v = true) then .cfgTaps
    else if ¬(x.cfg.l.toNat ≤ p.rcap ∧ x.cfg.m.toNat ≤ p.rcap) then .cfgRing else .noFault := by
  simp only [checkTaps, firstBad_cons, firstBad_nil, Bool.and_eq_true, decide_eq_true_eq, List.all_eq_true, ite_not]

theorem toNat_eq_one_iff (b : BitVec 16) : b.toNat = 1 ↔ b = 1#16 := by
  rw [← BitVec.toNat_inj]
  rfl

theorem firstBad_checkFir : firstBad (checkFir p x) =
    if ¬(1 ≤ x.cfg.l.toNat ∧ 1 ≤ x.cfg.m.toNat ∧ (x.cfg.l = 1#16 ∨ x.cfg.m = 1#16)) then .cfgFactor
    else firstBad (checkTaps p x) := by
  simp only [checkFir, firstBad_cons, Bool.and_eq_true, Bool.or_eq_true, decide_eq_true_eq, toNat_eq_one_iff, and_assoc,
    ite_not]

theorem firstBad_checkRsp : firstBad (checkRsp p x) =
    if ¬(1 ≤ x.cfg.l.toNat ∧ 1 ≤ x.cfg.m.toNat) then .cfgFactor else firstBad (checkTaps p x) := by
  simp only [checkRsp, firstBad_cons, Bool.and_eq_true, decide_eq_true_eq, ite_not]

/-! ### Timing recovery -/

/-- A bound on an integer part that may not be defined, for which the checks read 0. -/
theorem getD_zero_le_iff {o : Option Int} {b : Int} (hb : 0 ≤ b) : o.getD 0 ≤ b ↔ ∀ i, o = some i → i ≤ b := by
  cases o <;> simp [hb]

/-- Check (a) of `STR` (45_str.md R251). -/
theorem strParamsGood_iff : strParamsGood p c = true ↔
    c.nt.toNat % 2 = 0 ∧ 2 ≤ c.nt.toNat ∧ c.nt.toNat ≤ p.ntmax ∧ c.lognph.toNat ≤ p.lognphmax ∧
      (p.record.finite c.par1 = true ∧ p.record.lt posZero c.par1 = true) ∧
      (∀ i, p.record.ceilI c.par1 = some i → i ≤ 100) ∧
      (p.record.finite c.par3 = true ∧ p.record.le posZero c.par3 = true) ∧ p.record.lt c.par3 p.record.one = true := by
  simp only [strParamsGood, Bool.and_eq_true, decide_eq_true_eq, positive_iff, nonnegative_iff, and_assoc,
    getD_zero_le_iff (show (0 : Int) ≤ 100 by decide)]

/-- Check (d) of `STR` (45_str.md R257). -/
theorem tableGood_iff : tableGood p x = true ↔
    ∀ r ≤ 2 ^ x.cfg.lognph.toNat, x.itb.valid.getLsbD r = true ∧
      ∀ j < x.cfg.nt.toNat, p.record.finite (Mem.read x.itb.coeffs (r * p.ntmax + j)) = true := by
  simp only [tableGood, InterpTable.row, InterpTable.rowValid, Mem.readAll, itbIndex, List.all_eq_true, List.mem_range,
    Nat.lt_succ_iff, Bool.and_eq_true, List.forall_mem_map, Nat.add_zero]

theorem strLargest_le_iff (hfin : N.finite (pmaxOf N t c) = true) (b : Nat) :
    strLargest N t c ≤ b ↔ wOf N c - cbOf N c ≤ b ∧ ∀ i, N.floorI (pmaxOf N t c) = some i → i + 1 ≤ b := by
  simp only [strLargest, max_le_iff, NumRecord.floorI, if_pos hfin, Option.getD_some, Option.some.injEq, forall_eq',
    Nat.cast_le]

/-- Checks (g) and (h) of `STR`: the second is looked at where `PMAX` is finite, so that its integer part is defined. -/
theorem firstBad_strPeriod :
    firstBad [(N.finite (p0Of N t) && N.le (N.ofInt 2) (p0Of N t) && N.finite (pmaxOf N t c) && N.le N.one (pminOf N t c),
        .cfgStrParam), (decide (strLargest N t c ≤ p.rcap), .cfgRing)] =
      if ¬(N.finite (p0Of N t) = true ∧ N.le (N.ofInt 2) (p0Of N t) = true ∧ N.finite (pmaxOf N t c) = true ∧
        N.le N.one (pminOf N t c) = true) then .cfgStrParam
      else if ¬(wOf N c - cbOf N c ≤ p.rcap ∧ ∀ i, N.floorI (pmaxOf N t c) = some i → i + 1 ≤ p.rcap) then .cfgRing
      else .noFault := by
  simp only [firstBad_cons, firstBad_nil, Bool.and_eq_true, decide_eq_true_eq, and_assoc, ite_not]
  refine if_ctx_congr Iff.rfl (fun ⟨_, _, hfin, _⟩ => ?_) fun _ => rfl
  simp only [strLargest_le_iff hfin]

end

/-- Settles O19: kind by kind, the checks as conditions. -/
theorem checksPerKind : Obligations.ChecksPerKind := by
  intro p t x
  dsimp only
  refine ⟨fun hk => ?_, fun hk => ?_, fun hk => ?_, fun hk => ?_, fun hk => ?_, fun hk => ?_⟩
  all_goals simp only [slotChecks, hk]
  · rfl
  · exact firstBad_checkSql
  · exact firstBad_checkFmd
  · rw [firstBad_checkFir, firstBad_checkTaps]; rfl
  · rw [firstBad_checkRsp, firstBad_checkTaps]; rfl
  · simp only [checkStr, firstBad_cons _ _ (_ :: _ :: _), firstBad_strPeriod, strParamsGood_iff, tableGood_iff,
      positive_iff, nonnegative_iff, Bool.and_eq_true, decide_eq_true_eq, ite_not]

end Sys2Proof.Machine
end

section
/-! PROOFS. The machine after power-on (70_reset_and_hazards.md R341): the engine `RESET` leaves, with nothing at its ports. -/

namespace Sys2Proof.Machine

/-- Power-on and `RESET` give the registers the same values (10_state.md R42). -/
theorem resetEngine_reset : State.reset.resetEngine = State.reset := rfl

/-- Settles O12: the registers are those `RESET` leaves; the ports and the parameters are read off. -/
theorem powerOnState : Obligations.PowerOnState :=
  ⟨resetEngine_reset ▸ isReset_resetEngine State.reset, rfl, rfl, rfl, rfl⟩

end Sys2Proof.Machine
end

section
/-! PROOFS. The two functions the spec leaves open (93_implementation_defined.md I3, I4). The idea for `exp10`: of an
argument that is no NaN it sees only the place in the order, and it answers a magnitude that rises with that place. A free function cuts
its range at each halving of the places, and whatever the cut is, the lower half stays below it and the upper half above.
`atan2` answers the sign of its first argument and a magnitude of at most π rounded, whatever the free value is. -/

namespace Sys2Proof.Machine.NUM

open Sys2Proof

/-! ### Signs, magnitudes and the order -/

theorem pack_neg_mag (v : F) : pack (neg v) (mag v) = v := by
  have hv := v.isLt
  apply BitVec.eq_of_toNat_eq
  rw [pack_toNat _ _ (mag_lt v), neg, BitVec.msb_eq_decide, mag]
  simp only [decide_eq_true_eq]
  split <;> omega

theorem key_pack {s : Bool} {m : Nat} (h : m ≤ infMag) : key (pack s m) = if s then -(m : Int) else m := by
  rw [key, neg_pack s m (h.trans_lt infMag_lt), mag_pack s m (h.trans_lt infMag_lt)]

/-- The quiet comparison of values that are no NaN is the order of their places (00_scope.md R8). -/
theorem le_iff_key {a b : F} (ha : isNaN a = false) (hb : isNaN b = false) : le a b = true ↔ key a ≤ key b := by
  simp [le, ha, hb]

theorem le_pack_pack_iff {m m' : Nat} (h : m ≤ infMag) (h' : m' ≤ infMag) :
    le (pack false m) (pack false m') = true ↔ m ≤ m' := by
  rw [le_iff_key (isNaN_pack _ _ h) (isNaN_pack _ _ h'), key_pack h, key_pack h']
  exact Int.ofNat_le

theorem le_cases {a b : F} (h : le a b = true) : isNaN a = false ∧ isNaN b = false ∧ key a ≤ key b := by
  simpa [le, and_assoc] using h

/-! ### The free monotone function -/

theorem between_bounds {lo hi : Nat} (h : lo ≤ hi) (c : Nat) : lo ≤ between lo hi c ∧ between lo hi c ≤ hi := by
  have hmod : c % (hi - lo + 1) < hi - lo + 1 := Nat.mod_lt _ (Nat.succ_pos _)
  rw [between]
  omega

/-- Every value lies in the range, because every cut does. -/
theorem monotone_bounds (n x path : Nat) {lo hi : Nat} (h : lo ≤ hi) :
    lo ≤ monotone n x path lo hi ∧ monotone n x path lo hi ≤ hi := by
  induction n generalizing x path lo hi with
  | zero => exact between_bounds h _
  | succ n ih =>
    obtain ⟨hlow, hhigh⟩ := between_bounds h (Config.exp10Choice (n + 1) path)
    rw [monotone]
    split
    · obtain ⟨hl, hh⟩ := ih x (2 * path) hlow
      exact ⟨hl, hh.trans hhigh⟩
    · obtain ⟨hl, hh⟩ := ih (x - 2 ^ n) (2 * path + 1) hhigh
      exact ⟨hlow.trans hl, hh⟩

/-- Two places in one half are ordered by that half; two places in different halves have the cut between them. -/
theorem monotone_le_monotone (n path : Nat) {x y lo hi : Nat} (h : lo ≤ hi) (hxy : x ≤ y) :
    monotone n x path lo hi ≤ monotone n y path lo hi := by
  induction n generalizing x y path lo hi with
  | zero => exact le_rfl
  | succ n ih =>
    obtain ⟨hlow, hhigh⟩ := between_bounds h (Config.exp10Choice (n + 1) path)
    rw [monotone, monotone]
    by_cases hx : x < 2 ^ n <;> by_cases hy : y < 2 ^ n
    · rw [if_pos hx, if_pos hy]
      exact ih _ hlow hxy
    · rw [if_pos hx, if_neg hy]
      exact (monotone_bounds n x _ hlow).2.trans (monotone_bounds n _ _ hhigh).1
    · exact absurd (hxy.trans_lt hy) hx
    · rw [if_neg hx, if_neg hy]
      exact ih _ hhigh (Nat.sub_le_sub_right hxy _)

/-! ### `exp10` -/

/-- The magnitude of `exp10` of an argument at place `k` of the order. -/
def exp10Mag (k : Int) : Nat :=
  if k = 0 then mag one
  else if k < 0 then (if k ≤ -(infMag : Int) then 0 else monotone 63 (infMag + k).toNat 2 0 (mag one))
  else if (mag exp10Top : Int) < k then infMag
  else monotone 63 k.toNat 3 (mag one) (infMag - 1)

theorem exp10Mag_zero : exp10Mag 0 = mag one := rfl

theorem exp10Mag_of_neg {k : Int} (h : k < 0) :
    exp10Mag k = if k ≤ -(infMag : Int) then 0 else monotone 63 (infMag + k).toNat 2 0 (mag one) := by
  rw [exp10Mag, if_neg h.ne, if_pos h]

theorem exp10Mag_of_pos {k : Int} (h : 0 < k) :
    exp10Mag k = if (mag exp10Top : Int) < k then infMag else monotone 63 k.toNat 3 (mag one) (infMag - 1) := by
  rw [exp10Mag, if_neg h.ne', if_neg h.le.not_gt]

/-- What `exp10` answers of an argument that is no NaN: the sign and the magnitude of the argument are its place. -/
theorem exp10_eq_pack {x : F} (hx : isNaN x = false) : exp10 x = pack false (exp10Mag (key x)) := by
  have hone : one = pack false (mag one) := by decide
  have hmag : mag x ≤ infMag := by simpa [isNaN] using hx
  rw [exp10, hx, if_neg Bool.false_ne_true]
  by_cases hz : mag x = 0
  · have hkey : key x = 0 := by simp [key, hz]
    rw [if_pos (show isZero x = true from decide_eq_true hz), hkey, exp10Mag_zero, ← hone]
  · rw [if_neg (by simpa [isZero] using hz)]
    cases hneg : neg x with
    | true =>
      have hkey : key x = -(mag x : Int) := by simp [key, hneg]
      have hplace : (infMag + -(mag x : Int)).toNat = infMag - mag x := by omega
      have hinf : -(mag x : Int) ≤ -(infMag : Int) ↔ isInf x = true := by rw [isInf, decide_eq_true_eq]; omega
      simp only [if_true, hkey, exp10Mag_of_neg (show -(mag x : Int) < 0 by omega), hplace, hinf, apply_ite (pack false)]
    | false =>
      have hkey : key x = (mag x : Int) := by simp [key, hneg]
      simp only [Bool.false_eq_true, if_false, hkey, exp10Mag_of_pos (show 0 < (mag x : Int) by omega),
        Int.toNat_natCast, Nat.cast_lt, apply_ite (pack false)]

/-- Up to 0 the magnitudes are those of `[0, 1]`. -/
theorem exp10Mag_le_one {k : Int} (hk : k ≤ 0) : exp10Mag k ≤ mag one := by
  rcases hk.lt_or_eq with hneg | rfl
  · rw [exp10Mag_of_neg hneg]
    split
    · exact Nat.zero_le _
    · exact (monotone_bounds _ _ _ (Nat.zero_le _)).2
  · exact exp10Mag_zero.le

/-- From 0 up they are at least that of 1. -/
theorem one_le_exp10Mag {k : Int} (hk : 0 ≤ k) : mag one ≤ exp10Mag k := by
  rcases hk.lt_or_eq with hpos | rfl
  · rw [exp10Mag_of_pos hpos]
    split
    · decide
    · exact (monotone_bounds _ _ _ (by decide)).1
  · exact exp10Mag_zero.ge

/-- Up to the overflow point they are finite. -/
theorem exp10Mag_lt_infMag {k : Int} (hk : k ≤ mag exp10Top) : exp10Mag k < infMag := by
  rcases le_or_gt k 0 with hneg | hpos
  · exact (exp10Mag_le_one hneg).trans_lt (by decide)
  · rw [exp10Mag_of_pos hpos, if_neg hk.not_gt]
    exact (monotone_bounds _ _ _ (by decide)).2.trans_lt (by decide)

theorem exp10Mag_of_overflow {k : Int} (hk : mag exp10Top < k) : exp10Mag k = infMag := by
  rw [exp10Mag_of_pos ((Int.natCast_nonneg _).trans_lt hk), if_pos hk]

theorem exp10Mag_le_infMag (k : Int) : exp10Mag k ≤ infMag := by
  rcases le_or_gt k (mag exp10Top) with hk | hk
  · exact (exp10Mag_lt_infMag hk).le
  · exact (exp10Mag_of_overflow hk).le

/-- The magnitude rises with the place: on either side of 0 by the free function, across 0 through the value 1. -/
theorem exp10Mag_mono {j k : Int} (h : j ≤ k) : exp10Mag j ≤ exp10Mag k := by
  rcases lt_or_ge k 0 with hk | hk
  · rw [exp10Mag_of_neg (h.trans_lt hk), exp10Mag_of_neg hk]
    split
    · exact Nat.zero_le _
    · rw [if_neg (by omega)]
      exact monotone_le_monotone _ _ (Nat.zero_le _) (by omega)
  · rcases le_or_gt j 0 with hj | hj
    · exact (exp10Mag_le_one hj).trans (one_le_exp10Mag hk)
    · rcases le_or_gt k (mag exp10Top) with htop | htop
      · rw [exp10Mag_of_pos hj, exp10Mag_of_pos (hj.trans_le h), if_neg (h.trans htop).not_gt, if_neg htop.not_gt]
        exact monotone_le_monotone _ _ (by decide) (by omega)
      · exact (exp10Mag_le_infMag j).trans (exp10Mag_of_overflow htop).ge

theorem exp10_zero : exp10 posZero = one := by decide

theorem exp10_le_exp10 {x y : F} (h : le x y = true) : le (exp10 x) (exp10 y) = true := by
  obtain ⟨hx, hy, hxy⟩ := le_cases h
  rw [exp10_eq_pack hx, exp10_eq_pack hy, le_pack_pack_iff (exp10Mag_le_infMag _) (exp10Mag_le_infMag _)]
  exact exp10Mag_mono hxy

theorem exp10_finite_nonneg {x : F} (h : le x exp10Top = true) : finite (exp10 x) = true ∧ le posZero (exp10 x) = true := by
  obtain ⟨hx, -, htop⟩ := le_cases h
  have hzero : posZero = pack false 0 := by decide
  have hkey : key exp10Top = mag exp10Top := by decide
  rw [exp10_eq_pack hx, hzero, le_pack_pack_iff (Nat.zero_le _) (exp10Mag_le_infMag _)]
  exact ⟨finite_pack _ _ (exp10Mag_lt_infMag (hkey ▸ htop)), Nat.zero_le _⟩

/-! ### `atan2` -/

theorem mag_pi_lt_infMag : mag pi < infMag := by decide

/-- A zero first argument, beside a finite second: π over a negative, that zero over anything else (log 6). -/
theorem atan2_of_isZero {y x : F} (hy : isZero y = true) (hx : finite x = true) :
    atan2 y x = pack (neg y) (if neg x = true then mag pi else 0) := by
  rw [atan2, isNaN_of_finite (finite_of_isZero hy), isNaN_of_finite hx, hy, apply_ite (pack (neg y))]
  rfl

theorem atan2_eq_pack {y x : F} (hy : finite y = true) (hx : finite x = true) :
    ∃ m ≤ mag pi, atan2 y x = pack (neg y) m := by
  cases hz : isZero y with
  | true =>
    refine ⟨_, ?_, atan2_of_isZero hz hx⟩
    split
    · exact le_rfl
    · exact Nat.zero_le _
  | false =>
    refine ⟨min (mag (Config.atan2Bits y x)) (mag pi), min_le_right _ _, ?_⟩
    rw [atan2, isNaN_of_finite hy, isNaN_of_finite hx, hz, isInf_of_finite hx]
    rfl

/-- A magnitude of at most π rounded, with either sign, is a value between -π and π rounded. -/
theorem pack_between_pi {s : Bool} {m : Nat} (h : m ≤ mag pi) :
    le (pack s m) pi = true ∧ le (negate pi) (pack s m) = true := by
  have hm : m ≤ infMag := h.trans mag_pi_lt_infMag.le
  have hpi : key pi = mag pi := by decide
  have hneg : key (negate pi) = -(mag pi : Int) := by decide
  rw [le_iff_key (isNaN_pack _ _ hm) (by decide), le_iff_key (by decide) (isNaN_pack _ _ hm), key_pack hm, hpi, hneg]
  cases s <;> simp <;> omega

theorem atan2_zero_of_pos {y x : F} (hy : isZero y = true) (hx : finite x = true) (hpos : lt posZero x = true) :
    atan2 y x = y := by
  have hmag : mag y = 0 := of_decide_eq_true hy
  rw [atan2_of_isZero hy hx, neg_eq_false_of_posZero_lt hpos, if_neg Bool.false_ne_true, ← hmag, pack_neg_mag]

/-- Settles O53: no step of the proof asks what a free value is. -/
theorem openFunctionsKeepTheirProperties : Obligations.OpenFunctionsKeepTheirProperties := by
  refine ⟨exp10_zero, fun x y => exp10_le_exp10, fun x _ => exp10_finite_nonneg, fun y x hy hx _ => ?_⟩
  obtain ⟨m, hm, heq⟩ := atan2_eq_pack hy hx
  obtain ⟨hle, hge⟩ := pack_between_pi (s := neg y) hm
  have hinf : m < infMag := hm.trans_lt mag_pi_lt_infMag
  refine ⟨?_, ?_, ?_, ?_, fun hz => atan2_zero_of_pos hz hx⟩
  all_goals rw [heq]
  · exact finite_pack _ _ hinf
  · exact hle
  · exact hge
  · exact neg_pack _ _ (hinf.trans infMag_lt)

end Sys2Proof.Machine.NUM
end
